-- ==== Sys2Proof/Word.lean ====
section
/-! DEFINITION. The Word of the C16 core and the device identifier (spec rules R7 and R31). -/

namespace Sys2Proof

/-- R7: a 16-bit unsigned value; its arithmetic wraps mod 65536. Registers, memory cells, addresses
computed by the CPU and literal operands are Words. -/
abbrev Word := BitVec 16

/-- R31, R238: a stable 32-bit device identifier. -/
abbrev HardwareId := BitVec 32

end Sys2Proof
end

