-- ==== Sys2Proof/Syntax.lean ====
section
/-! DEFINITION. The instructions of the C16 core: one constructor per row of spec/opcode_table.json,
each with its two operand codes (rules R71, R75, R78). An operand's extra Word is no part of the
syntax: it is fetched from memory when the operand is resolved (rule R125). -/

namespace Sys2Proof

/-- R21, R83: the eight general registers, numbered 0 to 7 in this order. -/
inductive Reg where
  | a | b | c | x | y | z | i | j
deriving DecidableEq, Repr

/-- R75: the addressing modes the 6-bit operand codes select. -/
inductive Operand where
  /-- 0x00-0x07: a register as a value (R128). -/
  | reg (r : Reg)
  /-- 0x08-0x0F: the cell a register addresses (R129). -/
  | regInd (r : Reg)
  /-- 0x10-0x17: the cell at register plus next Word (R130). -/
  | regNext (r : Reg)
  /-- 0x18: POP when read (R131), PUSH when written (R132). -/
  | stack
  /-- 0x19: the cell SP addresses (R133). -/
  | peek
  /-- 0x1A: the cell at SP plus next Word (R134). -/
  | spNext
  /-- 0x1B: SP as a value (R135). -/
  | sp
  /-- 0x1C: PC as a value (R136). -/
  | pc
  /-- 0x1D: EX as a value (R137). -/
  | ex
  /-- 0x1E: the cell the next Word addresses (R138). -/
  | nextInd
  /-- 0x1F: the next Word as a literal (R139). -/
  | nextLit
  /-- 0x20-0x3F: an inline literal; well-formed for the values 0 to 31 (R77, R140). -/
  | lit (v : Word)
deriving DecidableEq, Repr

/-- R78: the sixteen values of the opcode field. Operand a is the destination, operand b the source.
`opcode0` is the table's OPCODE0, the value without a mnemonic (R180). -/
inductive Instr where
  | opcode0 (a b : Operand)
  | set (a b : Operand)
  | add (a b : Operand)
  | sub (a b : Operand)
  | mul (a b : Operand)
  | mli (a b : Operand)
  | div (a b : Operand)
  | dvi (a b : Operand)
  | mod (a b : Operand)
  | mdi (a b : Operand)
  | and (a b : Operand)
  | bor (a b : Operand)
  | xor (a b : Operand)
  | shr (a b : Operand)
  | asr (a b : Operand)
  | shl (a b : Operand)
deriving DecidableEq, Repr

/-- Operand a, the destination (R71). -/
def Instr.operandA : Instr → Operand
  | .opcode0 a _ | .set a _ | .add a _ | .sub a _ | .mul a _ | .mli a _ | .div a _ | .dvi a _
  | .mod a _ | .mdi a _ | .and a _ | .bor a _ | .xor a _ | .shr a _ | .asr a _ | .shl a _ => a

/-- Operand b, the source (R71). -/
def Instr.operandB : Instr → Operand
  | .opcode0 _ b | .set _ b | .add _ b | .sub _ b | .mul _ b | .mli _ b | .div _ b | .dvi _ b
  | .mod _ b | .mdi _ b | .and _ b | .bor _ b | .xor _ b | .shr _ b | .asr _ b | .shl _ b => b

end Sys2Proof
end

