-- ==== Sys2Proof/WellFormed.lean ====
section
/-! DEFINITION. Which terms of `Instr` are instructions of the machine, and the classification of the
instructions (rules R77, R81). -/

namespace Sys2Proof

/-- R77: an inline literal is a value of 0 to 31; every other operand form is well-formed. -/
def Operand.wf : Operand → Bool
  | .lit v => v.toNat < 32
  | _ => true

/-- Both operands are well-formed; every opcode value is an instruction Word (R82). -/
def Instr.wf (i : Instr) : Bool := i.operandA.wf && i.operandB.wf

/-- R81 (b): the operand codes that cannot be written. -/
def Operand.isLiteral : Operand → Bool
  | .nextLit | .lit _ => true
  | _ => false

/-- R76: the operand takes an extra Word. -/
def Operand.needsWord : Operand → Bool
  | .regNext _ | .spNext | .nextInd | .nextLit => true
  | _ => false

/-- R78: the opcode value has semantics in this machine. -/
def Instr.implemented : Instr → Bool
  | .set _ _ | .add _ _ | .sub _ _ | .mul _ _ | .mli _ _ => true
  | .opcode0 _ _ | .div _ _ | .dvi _ _ | .mod _ _ | .mdi _ _ | .and _ _ | .bor _ _ | .xor _ _
  | .shr _ _ | .asr _ _ | .shl _ _ => false

/-- R81: the three classes of instruction Words. -/
inductive WordClass where
  | illegalOpcode
  | illegalDestination
  | legal
deriving DecidableEq, Repr

/-- R81: the class of an instruction. -/
def Instr.wordClass (i : Instr) : WordClass :=
  if i.implemented then (if i.operandA.isLiteral then .illegalDestination else .legal)
  else .illegalOpcode

/-- R76: the length of an instruction in Words, found from the operand codes alone. -/
def Instr.length (i : Instr) : Nat :=
  1 + (if i.operandA.needsWord then 1 else 0) + (if i.operandB.needsWord then 1 else 0)

end Sys2Proof
end

