-- ==== Sys2Proof/Decode.lean ====
section
/-! DEFINITION. Decoding of instruction Words, total on all 65536 of them (rules R71, R75, R78, R82,
R122), and the encoder of rule R72. -/

namespace Sys2Proof

/-- R71: `opcode = word & 0xF`. -/
def opcodeField (w : Word) : BitVec 4 := w.extractLsb' 0 4

/-- R71: `a = (word >> 4) & 0x3F`. -/
def fieldA (w : Word) : BitVec 6 := w.extractLsb' 4 6

/-- R71: `b = (word >> 10) & 0x3F`. -/
def fieldB (w : Word) : BitVec 6 := w.extractLsb' 10 6

/-- R83: "A=0,B=1,C=2,X=3,Y=4,Z=5,I=6,J=7". -/
def decodeReg (n : BitVec 3) : Reg :=
  match n.toNat with
  | 0 => .a
  | 1 => .b
  | 2 => .c
  | 3 => .x
  | 4 => .y
  | 5 => .z
  | 6 => .i
  | _ => .j

/-- R83: the register number. -/
def encodeReg : Reg → Nat
  | .a => 0
  | .b => 1
  | .c => 2
  | .x => 3
  | .y => 4
  | .z => 5
  | .i => 6
  | .j => 7

/-- R75: the table of the 64 operand codes; the register number is `p[2:0]`. -/
def decodeOperand (p : BitVec 6) : Operand :=
  let r := decodeReg (p.extractLsb' 0 3)
  if p.toNat < 0x08 then .reg r
  else if p.toNat < 0x10 then .regInd r
  else if p.toNat < 0x18 then .regNext r
  else if p.toNat = 0x18 then .stack
  else if p.toNat = 0x19 then .peek
  else if p.toNat = 0x1A then .spNext
  else if p.toNat = 0x1B then .sp
  else if p.toNat = 0x1C then .pc
  else if p.toNat = 0x1D then .ex
  else if p.toNat = 0x1E then .nextInd
  else if p.toNat = 0x1F then .nextLit
  else .lit (BitVec.ofNat 16 (p.toNat - 0x20))

/-- R75: the operand code of an operand form. -/
def encodeOperand : Operand → BitVec 6
  | .reg r => BitVec.ofNat 6 (encodeReg r)
  | .regInd r => BitVec.ofNat 6 (0x08 + encodeReg r)
  | .regNext r => BitVec.ofNat 6 (0x10 + encodeReg r)
  | .stack => 0x18
  | .peek => 0x19
  | .spNext => 0x1A
  | .sp => 0x1B
  | .pc => 0x1C
  | .ex => 0x1D
  | .nextInd => 0x1E
  | .nextLit => 0x1F
  | .lit v => BitVec.ofNat 6 (0x20 + v.toNat)

/-- R78: the complete map of the sixteen opcode values. -/
def decodeOpcode (op : BitVec 4) (a b : Operand) : Instr :=
  match op.toNat with
  | 0x0 => .opcode0 a b
  | 0x1 => .set a b
  | 0x2 => .add a b
  | 0x3 => .sub a b
  | 0x4 => .mul a b
  | 0x5 => .mli a b
  | 0x6 => .div a b
  | 0x7 => .dvi a b
  | 0x8 => .mod a b
  | 0x9 => .mdi a b
  | 0xA => .and a b
  | 0xB => .bor a b
  | 0xC => .xor a b
  | 0xD => .shr a b
  | 0xE => .asr a b
  | _ => .shl a b

/-- R78: the opcode value of an instruction. -/
def opcodeValue : Instr → BitVec 4
  | .opcode0 _ _ => 0x0
  | .set _ _ => 0x1
  | .add _ _ => 0x2
  | .sub _ _ => 0x3
  | .mul _ _ => 0x4
  | .mli _ _ => 0x5
  | .div _ _ => 0x6
  | .dvi _ _ => 0x7
  | .mod _ _ => 0x8
  | .mdi _ _ => 0x9
  | .and _ _ => 0xA
  | .bor _ _ => 0xB
  | .xor _ _ => 0xC
  | .shr _ _ => 0xD
  | .asr _ _ => 0xE
  | .shl _ _ => 0xF

/-- R122: decode reads nothing but the Word and cannot fail. -/
def decode (w : Word) : Instr :=
  decodeOpcode (opcodeField w) (decodeOperand (fieldA w)) (decodeOperand (fieldB w))

/-- R72: `opcode | (a << 4) | (b << 10)`. -/
def packWord (op : BitVec 4) (a b : BitVec 6) : Word :=
  op.setWidth 16 ||| (a.setWidth 16 <<< 4) ||| (b.setWidth 16 <<< 10)

/-- R72: the instruction Word of an instruction. -/
def encode (i : Instr) : Word :=
  packWord (opcodeValue i) (encodeOperand i.operandA) (encodeOperand i.operandB)

/-- The instruction the decoder reads from the first Word of an instruction of `nbits` bits. Bits
above the first Word are extra Words, which the decoder does not look at (R76). -/
def decodeTableWord (nbits w : Nat) : Option Instr :=
  if 16 ≤ nbits then some (decode (BitVec.ofNat 16 w)) else none

end Sys2Proof
end

