-- ==== Sys2Proof/Machine/Geometry.lean ====
section
/-! DEFINITION. The pixels of the Display (rules R233, R234). Its size is not in the source
(91_not_in_source.md N15) and free. -/

namespace Sys2Proof

/-- N15: the columns of the Display's character grid: free. -/
opaque Config.screenColumns : Nat

/-- N15: the rows of the Display's character grid: free. -/
opaque Config.screenRows : Nat

/-- N15: whether a glyph cell of 8x4 pixels (R234) is 8 wide and 4 high or 4 wide and 8 high: free. -/
opaque Config.glyphIsWide : Bool

namespace Machine

/-- R234: the width of a glyph cell in pixels. -/
def glyphWidth : Nat := if Config.glyphIsWide then 8 else 4

/-- R234: the height of a glyph cell in pixels. -/
def glyphHeight : Nat := if Config.glyphIsWide then 4 else 8

/-- R234: the width of the pixel array. DEDUCED from R234 ("8x4 pixel glyph cells across a fixed-size
character grid"), log entry 32: the cells of the grid tile the array, so its width is the grid's columns
times the width of a cell. The source gives neither size (N15). -/
def screenWidth : Nat := Config.screenColumns * glyphWidth

/-- R233: the fixed size of the pixel array, width times height. DEDUCED as the width is, log entry 32: the
height is the grid's rows times the height of a cell. -/
def pixelCount : Nat := screenWidth * (Config.screenRows * glyphHeight)

/-- R233: a pixel, "RGBA8 per pixel". -/
structure Rgba where
  red : BitVec 8
  green : BitVec 8
  blue : BitVec 8
  alpha : BitVec 8
deriving DecidableEq, Repr, Inhabited

/-- R234: a 12-bit palette colour, four bits per channel. -/
structure Rgb where
  red : BitVec 4
  green : BitVec 4
  blue : BitVec 4
deriving DecidableEq, Repr, Inhabited

/-- R234: the fields of a 16-bit cell Word. -/
structure CellFields where
  foreground : BitVec 4
  background : BitVec 4
  character : BitVec 8
deriving DecidableEq, Repr, Inhabited

/-- R233: the pixel buffer; pixel (x, y) stands at place y times the width plus x. -/
abbrev Pixels := Vector Rgba pixelCount

end Machine

end Sys2Proof
end

