-- ==== Sys2Proof/Machine/DeviceState.lean ====
section
/-! DEFINITION. Devices as plain data (rules R31, R32, R231 to R236): what the spec names of a device's
private state, what can be signalled to a device and what a device can do. -/

namespace Sys2Proof.Machine

/-- R233: the four mapped registers of the Display, as the rule names them. -/
inductive DisplayReg where
  | screenBase
  | fontBase
  | paletteBase
  | borderColor
deriving DecidableEq, Repr

/-- The place of a register in the rule's own list. -/
def DisplayReg.index : DisplayReg → Fin 4
  | .screenBase => 0
  | .fontBase => 1
  | .paletteBase => 2
  | .borderColor => 3

/-- R233, R234: the Display's four mapped registers by their offset, its dirty flag, its pixel buffer,
and whether it has a CPU/memory reference. -/
structure Display where
  regs : Vector Word 4
  dirty : Bool
  pixels : Pixels
  attached : Bool
deriving DecidableEq, Repr

/-- R235: the Keyboard's FIFO of pressed keys (as the fixed codes they are translated to), its currently
held keys (by their codes or as the input layer calls them, `heldKey`) and its configured interrupt
message. `pending` is the model's own: messages raised and not yet delivered, used only if the Keyboard
defers its interrupts to `update()` (91_not_in_source.md N18). -/
structure Keyboard where
  fifo : List Word
  held : List Nat
  message : Option Word
  pending : List Word
deriving DecidableEq, Repr, Inhabited

/-- R236: the Clock's tick counter, its configured interrupt period, its interrupt message and its enable
bit. DESIGN CHOICE, log entry 34: the counter and the period have no width (91_not_in_source.md N17), and
the message is state, so that it may be fixed or configured. -/
structure Clock where
  ticks : Nat
  period : Nat
  message : Word
  enabled : Bool
deriving DecidableEq, Repr, Inhabited

/-- R31, R32, R231, R232: a device with its private state: one of the three the source describes, or any
other device, with its own hardware id and data the core gives no meaning to. -/
inductive Device where
  | display (d : Display)
  | keyboard (k : Keyboard)
  | clock (c : Clock)
  | other (id : HardwareId) (data : List Word)
deriving DecidableEq, Repr

/-- R238: the hardware id of the Display. -/
def displayId : HardwareId := 0x7349f615

/-- R238: the hardware id of the Keyboard. -/
def keyboardId : HardwareId := 0x30cf7406

/-- R238: the hardware id of the Clock. -/
def clockId : HardwareId := 0x12d0b402

/-- R231, R238: the stable hardware id of a device: that of its kind for the three the source describes,
its own for any other, which may be any id (log entry 31). -/
def Device.id : Device → HardwareId
  | .display _ => displayId
  | .keyboard _ => keyboardId
  | .clock _ => clockId
  | .other id _ => id

/-- What an observer of an address stands for in its device (R231, R233): a register of the device's
block, by its offset, or a cell of a window the device watches. -/
inductive Port where
  | register (offset : Nat)
  | window
deriving DecidableEq, Repr

/-- R46: an observer. The closure of the source is the device that registered it (a reference into
`State.devices`) and the port of that device. -/
structure Handler where
  dev : Nat
  port : Port
deriving DecidableEq, Repr

/-- R46: what a device can do to the machine, one after the other. Addresses, values and messages are
unbounded integers, as a caller of the source's methods may pass them (R43, R222). -/
inductive DevAction where
  | read (addr : Nat)
  | write (addr value : Nat)
  | interrupt (msg : Nat)
deriving DecidableEq, Repr

/-- R221 (c), R232: an event of the outside world, delivered between two runs. A key is what the input
layer calls it: a number, before its translation to a fixed code (R235). -/
inductive DevEvent where
  | keyDown (key : Nat)
  | keyUp (key : Nat)
  | other (code : Nat)
deriving DecidableEq, Repr

/-- R232: what a device is told: a write to an address it watches, the Word it asked to read, its
`update()` with that update's outside input, or an outside event. -/
inductive Signal where
  | written (port : Port) (addr : Nat) (value : Word)
  | data (addr : Nat) (value : Word)
  | update (input : Nat)
  | event (e : DevEvent)
deriving DecidableEq, Repr

end Sys2Proof.Machine
end

