-- ==== Sys2Proof/Machine/Regs.lean ====
section
/-! DEFINITION. The general registers (rule R21), and the values a reset gives the registers. -/

namespace Sys2Proof.Machine

/-- R21: the eight general registers. -/
structure Regs where
  a : Word
  b : Word
  c : Word
  x : Word
  y : Word
  z : Word
  i : Word
  j : Word
deriving DecidableEq, Repr

/-- R21: the read of a general register. -/
def Regs.get (g : Regs) : Reg → Word
  | .a => g.a
  | .b => g.b
  | .c => g.c
  | .x => g.x
  | .y => g.y
  | .z => g.z
  | .i => g.i
  | .j => g.j

/-- R21: the write of a general register. -/
def Regs.set (g : Regs) (r : Reg) (v : Word) : Regs :=
  match r with
  | .a => { g with a := v }
  | .b => { g with b := v }
  | .c => { g with c := v }
  | .x => { g with x := v }
  | .y => { g with y := v }
  | .z => { g with z := v }
  | .i => { g with i := v }
  | .j => { g with j := v }

/-- R14, R262: what construction and `resetCPU()` put in the registers (decisions D2 and D3), kept as a
configuration that claims can quantify over. -/
structure ResetRegs where
  regs : Regs
  pc : Word
  /-- `SP_RESET`. -/
  sp : Word
  ex : Word
  ia : Word
deriving DecidableEq, Repr

/-- R262: the spec's values: 0 but for SP (D3, log entry 4). -/
def ResetRegs.spec (sp : Word) : ResetRegs := ⟨⟨0, 0, 0, 0, 0, 0, 0, 0⟩, 0, sp, 0, 0⟩

end Sys2Proof.Machine
end

