-- ==== Sys2Proof/Config.lean ====
section
/-! DEFINITION. What is fixed when a machine is built (the parameters of rule R6, the ordering decisions
of rule R143) and the uninterpreted constants for what the spec leaves to the devices. -/

namespace Sys2Proof

/-- D7: when the address of an SP-relative operand is computed. -/
inductive AddressTime where
  | atResolve
  | atAccess
deriving DecidableEq, Repr

/-- D8: which operand of an arithmetic instruction is read first. -/
inductive ReadOrder where
  | aThenB
  | bThenA
deriving DecidableEq, Repr

/-- D8: whether EX is updated after or before the result is written. -/
inductive ExOrder where
  | afterResult
  | beforeResult
deriving DecidableEq, Repr

/-- D6: whether a destination that is read and written consumes its extra Word once, or again at the
write. -/
inductive ExtraWords where
  | once
  | again
deriving DecidableEq, Repr

/-- R14, R143: the ordering decisions, kept as a configuration that claims can quantify over. -/
structure Order where
  addressTime : AddressTime
  readOrder : ReadOrder
  exOrder : ExOrder
  extraWords : ExtraWords
deriving DecidableEq, Repr

/-- The orders the spec's rules R125 and R141 give (decisions D6, D7, D8). -/
def Order.spec : Order := ⟨.atResolve, .aThenB, .afterResult, .once⟩

/-- R6: the parameters of one machine. No operation of the machine changes them. -/
structure Params where
  /-- `MEM_SIZE`. -/
  memSize : Nat
  /-- `SP_RESET` and the other reset values. -/
  reset : Machine.ResetRegs
  order : Order
deriving DecidableEq, Repr

/-- R6: `MEM_SIZE` with the default `SP_RESET` = (`MEM_SIZE` - 1) mod 65536. -/
def Params.ofSize (n : Nat) : Params :=
  ⟨n, Machine.ResetRegs.spec (BitVec.ofNat 16 (n - 1)), Order.spec⟩

/-- R6: the defaults. DESIGN CHOICE of the spec (D1, D2, D3), log entries 2 to 4. -/
def Params.default : Params := Params.ofSize 65536

/-- R6: `MEM_SIZE` is 1 to 65536. -/
abbrev Params.legal (p : Params) : Prop := 1 ≤ p.memSize ∧ p.memSize ≤ 65536

/-- R236, D22: the outside input of the n-th device update ever made: free. -/
opaque Config.deviceInput : Nat → Nat

/-- R232: the reaction of a device the spec does not describe (new state, actions): free. -/
opaque Config.otherReact :
  HardwareId → List Word → Machine.Signal → List Word × List Machine.DevAction

/-- R233, 91_not_in_source.md N14: the four Display registers stand at the four offsets; in which order is
free. -/
opaque Config.displayLayout : Equiv.Perm (Fin 4)

/-- R234, N15: the address of a character cell, from the screen base, its column and its row: free. -/
opaque Config.cellAddress : Word → Nat → Nat → Nat

/-- R234, N15: the fields of a cell Word: free. -/
opaque Config.cellFields : Word → Machine.CellFields

/-- R234, N15: the address of a glyph's row bits, from the font base, the character and the row within
the glyph: free. -/
opaque Config.glyphAddress : Word → BitVec 8 → Nat → Nat

/-- R234, N15: the glyph bit, from the Word with the row bits, the character, and the column and the row
within the glyph: free. -/
opaque Config.glyphBit : Word → BitVec 8 → Nat → Nat → Bool

/-- R234, N15: the address of a palette entry, from the palette base: free. -/
opaque Config.paletteAddress : Word → BitVec 4 → Nat

/-- R234, N15: the 12-bit colour in a palette entry's Word: free. -/
opaque Config.paletteColour : Word → Machine.Rgb

/-- R234, N15: a 4-bit channel as an 8-bit one: free. -/
opaque Config.expandChannel : BitVec 4 → BitVec 8

/-- R234, N15: the alpha of a rendered pixel: free. -/
opaque Config.pixelAlpha : BitVec 8

/-- R234 leaves open whether the fallback fill clears the dirty flag: free. -/
opaque Config.fallbackClearsDirty : Bool

/-- R234 leaves open whether a Display without a CPU/memory reference is filled at every update or only
when dirty: free. -/
opaque Config.fallbackWhenClean : Bool

/-- R267 leaves open whether rendering on demand clears the dirty flag ("it may"): free. -/
opaque Config.onDemandClearsDirty : Bool

/-- R267: the blank buffer given out when there is no Display: free. -/
opaque Config.blankPixels : Machine.Pixels

/-- R235, N16: the fixed code of a key, if the Keyboard recognises it: free. -/
opaque Config.keyCode : Nat → Option Word

/-- R235 leaves open whether two keys with one fixed code are one held key or two: free. -/
opaque Config.heldByCode : Bool

/-- R46, N16: what a Keyboard does when it is told of anything but a key-down, a key-up or its update (a
write to one of its registers, say): free, with its memory accesses and interrupts. -/
opaque Config.keyboardReact :
  Machine.Keyboard → Machine.Signal → Machine.Keyboard × List Machine.DevAction

/-- N16: how many keys the Keyboard's FIFO can hold beside a new one: free. -/
opaque Config.keyboardSpare : Nat

/-- N16: a full FIFO after one more key: free. -/
opaque Config.keyboardOverflow : List Word → Word → List Word

/-- N16: the FIFO after the repeat of a held key: free. -/
opaque Config.keyboardRepeat : List Word → Word → List Word

/-- N18: the Keyboard defers its interrupts to its next `update()`: free. -/
opaque Config.keyboardDefers : Bool

/-- R46, N17: what a Clock does when it is told of anything but its update (a write to one of its
registers, say): free, with its memory accesses and interrupts. -/
opaque Config.clockReact : Machine.Clock → Machine.Signal → Machine.Clock × List Machine.DevAction

end Sys2Proof
end

