-- ==== Sys2Proof/Machine/State.lean ====
section
/-! DEFINITION. The state of the C16 core (rule R20) as plain data, its faults and refusals, its
updates, and the state after reset (rule R35). -/

namespace Sys2Proof.Machine

/-- R210: the CPU-time faults, with the info value of D15. A fault is state (the latch of R33): the
step in which it is raised ends in a next state with the latch set, and every later step answers the
fault. -/
inductive Fault where
  /-- R211: raised by a memory access, fetch, push or load at an address outside memory. Safe: the
  spec says the machine stops. -/
  | addressing (addr : Nat)
  /-- R212: raised by the CPU cycle for opcode 0x0 and 0x6 to 0xF. Safe: the spec says the machine
  stops (for 0x6 to 0xF by its decision D11). -/
  | unknownOpcode (opcode : BitVec 4)
  /-- R213: raised by the write access to a literal operand. Safe: the spec says the machine stops. -/
  | illegalWrite (code : BitVec 6)
deriving DecidableEq, Repr

/-- R97, R214: the failures of the assembler. -/
inductive AsmError where
  | unknownMnemonic (name : List Char)
  | undefinedLabel (name : List Char)
  /-- R97, D26 (f): a label defined twice. -/
  | duplicateLabel (name : List Char)
  /-- R80, D26 (g): one of the twelve mnemonics without an encoding. -/
  | noEncoding (name : List Char)
deriving DecidableEq, Repr

/-- What the model does not do. -/
inductive Refusal where
  /-- Answered by `exec` for an instruction without a meaning. No instruction is left so. Safe. -/
  | notModelled (mnemonic : String)
  /-- Answered to a host operation during a run (R268, D23, U15). Safe: the model gives it no move. -/
  | hostDuringRun
  /-- Answered to `loadAssembly` of a text that does not assemble (R214, U10). Safe: nothing is
  loaded or reset. -/
  | assemblyFailed (e : AsmError)
  /-- Answered to a host operation that names a device the machine does not have. Safe. -/
  | noSuchDevice (dev : Nat)
deriving DecidableEq, Repr

/-- R28: the memory array as (address, Word) pairs in one canonical form (`Memory.wf`). Its cells are
Words, the smallest unit the machine has (R48), log entry 1. -/
abbrev Memory := List (Nat × Word)

/-- Whose turn it is when no activation is open: the host's, or `exec`'s with `left` cycles to go,
after which the devices are polled if `poll` (R121, R266). The model's own, log entry 29. -/
inductive Phase where
  | host
  | cycles (left : Nat) (poll : Bool)
deriving DecidableEq, Repr

/-- One unfinished activation (R43, R47, R226, R230). The model's own, log entry 28. -/
inductive Frame where
  /-- An observer about to be called with the Word stored at `addr`. -/
  | observe (h : Handler) (addr : Nat) (value : Word)
  /-- A device about to be given its `update()`. -/
  | update (dev : Nat)
  /-- A device in the middle of a reaction, with what it still does. -/
  | acts (dev : Nat) (todo : List DevAction)
  /-- An interrupt entry whose push of A is still to come. -/
  | pushA (msg : Word)
  /-- An interrupt entry whose jump is still to come. -/
  | jump (msg : Word)
  /-- A computing instruction whose EX update is still to come (R141 step 8). -/
  | exUpdate (v : Word)
deriving DecidableEq, Repr

/-- R20: the complete state of the machine, with its construction parameters and the model's own
`agents`, `phase` and `draws`. -/
structure State where
  regs : Regs
  pc : Word
  sp : Word
  ex : Word
  ia : Word
  mem : Memory
  /-- R30: address to observer, addresses rising. -/
  watch : List (Nat × Handler)
  /-- Every device ever registered; observers and the bus refer to a device by its place here. -/
  devices : List Device
  /-- R31: hardware id to device, in registration order. -/
  bus : List (HardwareId × Nat)
  /-- R33: the fault latch. -/
  fault : Option Fault
  /-- The unfinished activations, the innermost first. -/
  agents : List Frame
  phase : Phase
  /-- How many outside inputs device updates have drawn (D22). -/
  draws : Nat
  /-- R6: the parameters, fixed at construction. -/
  params : Params
deriving DecidableEq, Repr

/-- R10: `x[i]`. -/
def State.reg (s : State) (r : Reg) : Word := s.regs.get r

/-- R10: `x[i] <- v`. -/
def State.setReg (s : State) (r : Reg) (v : Word) : State := { s with regs := s.regs.set r v }

/-- R10: `PC <- v`. -/
def State.setPc (s : State) (v : Word) : State := { s with pc := v }

/-- R10: `SP <- v`. -/
def State.setSp (s : State) (v : Word) : State := { s with sp := v }

/-- R10: `EX <- v`. -/
def State.setEx (s : State) (v : Word) : State := { s with ex := v }

/-- R10: `IA <- v`. -/
def State.setIa (s : State) (v : Word) : State := { s with ia := v }

/-- The memory array replaced. -/
def State.setMem (s : State) (m : Memory) : State := { s with mem := m }

/-- The observer map replaced. -/
def State.setWatch (s : State) (w : List (Nat × Handler)) : State := { s with watch := w }

/-- The devices and their states replaced. -/
def State.setDevices (s : State) (d : List Device) : State := { s with devices := d }

/-- The device registry replaced. -/
def State.setBus (s : State) (b : List (HardwareId × Nat)) : State := { s with bus := b }

/-- The open activations replaced. -/
def State.setAgents (s : State) (fs : List Frame) : State := { s with agents := fs }

/-- The turn replaced. -/
def State.setPhase (s : State) (p : Phase) : State := { s with phase := p }

/-- The count of drawn inputs replaced. -/
def State.setDraws (s : State) (n : Nat) : State := { s with draws := n }

/-- R33, R215: `raise f` at the level of the machine. The latch is set, and the fault unwinds through
every open activation and ends the run. Nothing else changes (R216). DEDUCED from R33, log entry 14: a
further fault, in an activation the host opened with a fault latched, replaces the latched one. -/
def State.latch (s : State) (f : Fault) : State :=
  { s with fault := some f, agents := [], phase := .host }

/-- R262: `resetCPU()`. The registers take the reset values (D2, D3), no fault. Memory, observers, bus
and devices stay (R263, D4). -/
def State.resetCpu (s : State) : State :=
  { s with regs := s.params.reset.regs, pc := s.params.reset.pc, sp := s.params.reset.sp,
           ex := s.params.reset.ex, ia := s.params.reset.ia,
           fault := none, agents := [], phase := .host }

/-- R260, R35: the machine after construction, with memory contents `MEM_INIT` and no device. -/
def State.construct (p : Params) (memInit : Memory) : State :=
  { regs := p.reset.regs, pc := p.reset.pc, sp := p.reset.sp, ex := p.reset.ex, ia := p.reset.ia,
    mem := memInit, watch := [], devices := [], bus := [], fault := none, agents := [], phase := .host, draws := 0,
    params := p }

/-- R35 with the default parameters: the machine after construction, before a program is loaded.
Reset values: log entries 2 to 5, 23, 24, 28, 29. -/
def State.reset : State := State.construct Params.default []

end Sys2Proof.Machine
end

