-- ==== Sys2Proof/Machine/Ops.lean ====
section
/-! DEFINITION. The memory operations (rules R42, R43), the next-Word fetch (R123), raising a fault
(R10, R215) and interrupt entry (R222). -/

namespace Sys2Proof.Machine

/-- What a micro-operation ends in: a value and the state after it, or a fault with everything done
before it still done (R10, R216). -/
inductive Micro (α : Type) where
  | ok (val : α) (s : State)
  | raised (f : Fault) (s : State)
deriving DecidableEq, Repr

/-- R10: `a ; b`. After a fault nothing is done. -/
def Micro.bind {α β : Type} (m : Micro α) (k : α → State → Micro β) : Micro β :=
  match m with
  | .ok v s => k v s
  | .raised f s => .raised f s

/-- The end of a cycle or of an agent's move: a completed one is the next state; a raised fault is the
next state with the latch set and everything unwound (R33, R215, R216). -/
def conclude (m : Micro Unit) : Host.Outcome State Fault Refusal :=
  match m with
  | .ok _ s => .next s
  | .raised f s => .next (s.latch f)

/-! ## Cells by address -/

/-- The value listed at an address. -/
def lookupCell {α : Type} (a : Nat) : List (Nat × α) → Option α
  | [] => none
  | (k, w) :: t => if k = a then some w else lookupCell a t

/-- The list with `v` at address `a`, addresses rising. -/
def insertCell {α : Type} (a : Nat) (v : α) : List (Nat × α) → List (Nat × α)
  | [] => [(a, v)]
  | (k, w) :: t =>
    if a < k then (a, v) :: (k, w) :: t
    else if a = k then (a, v) :: t
    else (k, w) :: insertCell a v t

/-- The list without address `a`. -/
def eraseCell {α : Type} (a : Nat) : List (Nat × α) → List (Nat × α)
  | [] => []
  | (k, w) :: t => if k = a then eraseCell a t else (k, w) :: eraseCell a t

/-- R29: what an unlisted address reads as. DESIGN CHOICE of the spec (D4), log entry 5. -/
def unlisted : Word := 0

/-- `Mem[a]`. -/
def Memory.read (m : Memory) (a : Nat) : Word := (lookupCell a m).getD unlisted

/-- `Mem[a] <- v`, in canonical form. -/
def Memory.write (m : Memory) (a : Nat) (v : Word) : Memory :=
  if v = unlisted then eraseCell a m else insertCell a v m

/-- The canonical form: addresses strictly rising, no entry equal to what an unlisted address reads
as. -/
abbrev Memory.wf (m : Memory) : Prop :=
  m.Pairwise (fun p q => p.1 < q.1) ∧ ∀ p ∈ m, p.2 ≠ unlisted

/-- R44: the cells from `offset` upward take the Words in ascending order. -/
def Memory.copy (m : Memory) (offset : Nat) : List Word → Memory
  | [] => m
  | w :: ws => Memory.copy (m.write offset w) (offset + 1) ws

/-! ## Memory access -/

/-- R42: `MemRead(addr)`. -/
def memRead (a : Nat) (s : State) : Micro Word :=
  if a < s.params.memSize then .ok (s.mem.read a) s else .raised (.addressing a) s

/-- R43 without the notify step: bounds check, then store. -/
def store (a : Nat) (v : Word) (s : State) : Micro Unit :=
  if a < s.params.memSize then .ok () (s.setMem (s.mem.write a v)) else .raised (.addressing a) s

/-- R43: the notify step of a write, as the activation it opens: the observer of the address, if one
is registered, with the stored Word. -/
def observers (a : Nat) (v : Word) (s : State) : List Frame :=
  match lookupCell a s.watch with
  | none => []
  | some h => [.observe h a v]

/-- R43: `MemWrite(addr, v)`: store, then notify. The observer runs before anything else of the
machine does (`agents` is served first). -/
def memWrite (a : Nat) (v : Word) (s : State) : Micro Unit :=
  (store a v s).bind fun _ t => .ok () (t.setAgents (observers a v t ++ t.agents))

/-- R123: `NextWord()`. -/
def nextWord (s : State) : Micro Word :=
  (memRead s.pc.toNat s).bind fun w t => .ok w (t.setPc (t.pc + 1))

/-! ## Interrupt entry and return

The return is the instruction pair `SET A, POP`, `SET PC, POP` (R225); the machine has no operation of
its own for it. -/

/-- A push (R222: pre-decrement, then a `MemWrite`, D17) with what follows it. If the write called an
observer, the rest waits beneath it (R226); otherwise it follows at once. -/
def pushThen (v : Word) (rest : Frame) (now : State → Micro Unit) (s : State) : Micro Unit :=
  let t := s.setSp (s.sp - 1)
  (store t.sp.toNat v t).bind fun _ u =>
    match observers t.sp.toNat v u with
    | [] => now u
    | f :: fs => .ok () (u.setAgents (f :: fs ++ rest :: u.agents))

/-- R222: `PC <- IA ; A <- msg`. -/
def entryJump (msg : Word) (s : State) : Micro Unit := .ok () ((s.setPc s.ia).setReg .a msg)

/-- R222 from the push of A on. -/
def entryPushA (msg : Word) (s : State) : Micro Unit :=
  pushThen (s.reg .a) (.jump msg) (entryJump msg) s

/-- R222, R223: `interrupt(msg)`, the whole entry. With IA = 0 it does nothing. -/
def interrupt (msg : Word) (s : State) : Micro Unit :=
  if s.ia = 0 then .ok () s else pushThen s.pc (.pushA msg) (entryPushA msg) s

end Sys2Proof.Machine
end

