-- ==== Sys2Proof/Machine/Devices.lean ====
section
/-! DEFINITION. The devices: what a device does when it is signalled or updated (rules R232 to R236).
What the spec states of the Display, the Keyboard and the Clock is written out; what it leaves to them, and every
other device, is an uninterpreted constant of Config. -/

namespace Sys2Proof.Machine

/-- R233: the mapped register at offset 0 to 3 takes the value; the dirty flag is set if that changes
it. -/
def displayRegister (d : Display) (offset : Nat) (v : Word) : Display :=
  match d.regs[offset]? with
  | none => d
  | some old => { d with regs := d.regs.setIfInBounds offset v, dirty := d.dirty || old != v }

/-- R233: the offset of a register: each of the four has one of its own. -/
def DisplayReg.offset (r : DisplayReg) : Fin 4 := Config.displayLayout r.index

/-- R233: the value of a register. -/
def Display.register (d : Display) (r : DisplayReg) : Word := d.regs[r.offset]

/-- R233: the currently mapped video-RAM window: the addresses of the character cells. Where they lie,
and so whether a window near 0xFFFF wraps, is free (91_not_in_source.md N15, log entry 32). -/
def inScreen (d : Display) (addr : Nat) : Bool :=
  (List.range Config.screenRows).any fun row =>
    (List.range Config.screenColumns).any fun column =>
      Config.cellAddress (d.register .screenBase) column row == addr

/-- R233: a write inside the window makes the Display dirty. -/
def touchScreen (d : Display) (addr : Nat) : Display :=
  { d with dirty := d.dirty || inScreen d addr }

/-- R233, R234: the Display told of a write. It raises no interrupts and writes no memory. Its update is
`render`; nothing else that it is told changes it (DEDUCED, log entry 32). -/
def displayReact (d : Display) : Signal → Display
  | .written (.register offset) addr v => touchScreen (displayRegister d offset v) addr
  | .written .window addr _ => touchScreen d addr
  | .update _ => d
  | .data _ _ => d
  | .event _ => d

/-! ### Rendering -/

/-- R234: the 12-bit colour expanded to an RGBA pixel. -/
def expandColour (c : Rgb) : Rgba :=
  ⟨Config.expandChannel c.red, Config.expandChannel c.green, Config.expandChannel c.blue,
    Config.pixelAlpha⟩

/-- R234: the palette index of the pixel at column `x` and row `y` of its glyph: foreground or
background, by the glyph bit. -/
def paletteIndex (cell : CellFields) (rowBits : Word) (x y : Nat) : BitVec 4 :=
  if Config.glyphBit rowBits cell.character x y then cell.foreground else cell.background

/-- R234: pixel `n` of the buffer. The cell Word, the glyph's row bits and the palette entry are read in
this order, each by a `MemRead` (R59). -/
def renderPixel (d : Display) (n : Nat) (s : State) : Micro Rgba :=
  let x := n % screenWidth
  let y := n / screenWidth
  (memRead (Config.cellAddress (d.register .screenBase) (x / glyphWidth) (y / glyphHeight)) s).bind fun w t =>
  let cell := Config.cellFields w
  (memRead (Config.glyphAddress (d.register .fontBase) cell.character (y % glyphHeight)) t).bind
    fun rowBits u =>
  let index := paletteIndex cell rowBits (x % glyphWidth) (y % glyphHeight)
  (memRead (Config.paletteAddress (d.register .paletteBase) index) u).bind fun entry v =>
  .ok (expandColour (Config.paletteColour entry)) v

/-- Device `dev` in its new state. -/
def setDevice (dev : Nat) (d : Device) (s : State) : State :=
  s.setDevices (s.devices.set dev d)

/-- R234: the last `todo` pixels, one after the other, each stored in the buffer; then the dirty flag is
cleared, if `clears` (R267). A fault leaves the pixels stored so far (R216). -/
def renderPixels (dev : Nat) (clears : Bool) : Nat → Display → State → Micro Unit
  | 0, d, s => .ok () (setDevice dev (.display { d with dirty := d.dirty && !clears }) s)
  | todo + 1, d, s =>
    (renderPixel d (pixelCount - (todo + 1)) s).bind fun c t =>
    let e := { d with pixels := d.pixels.setIfInBounds (pixelCount - (todo + 1)) c }
    renderPixels dev clears todo e (setDevice dev (.display e) t)

/-- R234: the "opaque red fallback color". -/
def fallbackRed : Rgba := ⟨0xFF, 0, 0, 0xFF⟩

/-- R234: the buffer filled with the fallback colour. -/
def fallbackFill (clears : Bool) (d : Display) : Display :=
  { d with
    pixels := Vector.replicate pixelCount fallbackRed
    dirty := d.dirty && !(clears && Config.fallbackClearsDirty) }

/-- R234: a dirty Display re-renders and a clean one does nothing; one without a CPU/memory reference
fills its buffer with the fallback colour, and whether also when it is clean is free (log entry 32).
`clears`: a completed rendering clears the dirty flag. -/
def render (dev : Nat) (clears : Bool) (d : Display) (s : State) : Micro Unit :=
  if d.attached then
    if d.dirty then renderPixels dev clears pixelCount d s else .ok () s
  else if d.dirty || Config.fallbackWhenClean then
    .ok () (setDevice dev (.display (fallbackFill clears d)) s)
  else .ok () s

/-! ### Keyboard and Clock -/

/-- R235: the interrupt of a new key-down, if a message is configured: raised at once, or left to the
next update (91_not_in_source.md N18). DESIGN CHOICE, log entry 33: an interrupt left to the update
carries the message configured at the key-down, whatever is configured by then. -/
def keyInterrupt (k : Keyboard) : Keyboard × List DevAction :=
  match k.message with
  | none => (k, [])
  | some m =>
    if Config.keyboardDefers then ({ k with pending := k.pending ++ [m] }, [])
    else (k, [.interrupt m.toNat])

/-- R235: a key enters the FIFO; what happens when it is full is free (N16). -/
def pushKey (fifo : List Word) (code : Word) : List Word :=
  if fifo.length ≤ Config.keyboardSpare then fifo ++ [code] else Config.keyboardOverflow fifo code

/-- R235: what the held keys and a new key-down are told apart by: the key itself or its fixed code, so
that two keys of one code are two held keys or one. Which is free (log entry 33). -/
def heldKey (key : Nat) (code : Word) : Nat := if Config.heldByCode then code.toNat else key

/-- R235: the key-down of a recognised key: a new one enters the held keys and its code the FIFO, and the
interrupt is raised; a repeat raises none. -/
def keyDown (k : Keyboard) (key : Nat) (code : Word) : Keyboard × List DevAction :=
  if k.held.contains (heldKey key code) then ({ k with fifo := Config.keyboardRepeat k.fifo code }, [])
  else keyInterrupt { k with held := k.held ++ [heldKey key code], fifo := pushKey k.fifo code }

/-- R235: the key-up of a recognised key: it is held no longer. -/
def keyUp (k : Keyboard) (key : Nat) (code : Word) : Keyboard :=
  { k with held := k.held.filter (· != heldKey key code) }

/-- R235: the Keyboard. A key is translated to its fixed code; a key it does not recognise does nothing.
DESIGN CHOICE, log entry 33: a key-down and a key-up do what R235 says and nothing else, and its update
raises the interrupts left to it and does nothing else, so none of the three makes a memory access, which
R59 would allow. Whatever else the Keyboard is told, a write to one of its registers for
instance, is left open (91_not_in_source.md N16) and free. -/
def keyboardReact (k : Keyboard) (sig : Signal) : Keyboard × List DevAction :=
  match sig with
  | .event (.keyDown key) =>
    match Config.keyCode key with
    | none => (k, [])
    | some code => keyDown k key code
  | .event (.keyUp key) =>
    match Config.keyCode key with
    | none => (k, [])
    | some code => (keyUp k key code, [])
  | .update _ => ({ k with pending := [] }, k.pending.map fun m => .interrupt m.toNat)
  | .event (.other _) | .written _ _ _ | .data _ _ => Config.keyboardReact k sig

/-- R236: how many interrupts `n` more ticks raise: one every configured number of ticks, when
enabled. -/
def clockInterrupts (c : Clock) (n : Nat) : Nat :=
  if c.enabled && c.period != 0 then (c.ticks + n) / c.period - c.ticks / c.period else 0

/-- R236: the Clock. The ticks since the last update are the outside input of the update. DESIGN CHOICE,
log entry 34: its update counts the ticks, raises its interrupts and does nothing else, so it makes no
memory access. Whatever else the Clock is told, a write to one of its registers for instance, is left
open (91_not_in_source.md N17) and free. -/
def clockReact (c : Clock) (sig : Signal) : Clock × List DevAction :=
  match sig with
  | .update n =>
    ({ c with ticks := c.ticks + n },
     List.replicate (clockInterrupts c n) (.interrupt c.message.toNat))
  | .written _ _ _ | .data _ _ | .event _ => Config.clockReact c sig

/-- R232: the transition of a device: the device in its new state, its id kept (R231), and what it does, in
order. -/
def react (d : Device) (sig : Signal) : Device × List DevAction :=
  match d with
  | .display x => (.display (displayReact x sig), [])
  | .keyboard k => let r := keyboardReact k sig; (.keyboard r.1, r.2)
  | .clock c => let r := clockReact c sig; (.clock r.1, r.2)
  | .other id data => let r := Config.otherReact id data sig; (.other id r.1, r.2)

/-- A device is signalled: its state changes, and what it does now stands before `rest`, what it was
doing already. -/
def signal (dev : Nat) (sig : Signal) (rest : List DevAction) (s : State) : State :=
  match s.devices[dev]? with
  | none => s
  | some d =>
    let r := react d sig
    (setDevice dev r.1 s).setAgents (.acts dev (r.2 ++ rest) :: s.agents)

/-- R230: the `update()` of a device, with the update's outside input: the Display renders and a
rendering clears its dirty flag (R234), any other device is signalled. -/
def updateDevice (dev : Nat) (input : Nat) (s : State) : Micro Unit :=
  match s.devices[dev]? with
  | none => .ok () s
  | some (.display x) => render dev true x s
  | some (.keyboard _) | some (.clock _) | some (.other _ _) =>
    .ok () (signal dev (.update input) [] s)

end Sys2Proof.Machine
end

