-- ==== Sys2Proof/Machine/Flags.lean ====
section
/-! DEFINITION. What the computing instructions compute: the result Word and the EX Word of every pair
of operand values (rules R9, R166 to R169). -/

namespace Sys2Proof.Machine

/-- R9: the signed reading of a Word. -/
def signed (v : Word) : Int := if v.toNat ≤ 0x7FFF then (v.toNat : Int) else (v.toNat : Int) - 0x10000

/-- R166: the sum and the unsigned carry. -/
def addPair (va vb : Word) : Word × Word :=
  let sum := va.toNat + vb.toNat
  (BitVec.ofNat 16 sum, if sum > 0xFFFF then 1 else 0)

/-- R167: the difference and the unsigned borrow. -/
def subPair (va vb : Word) : Word × Word :=
  let diff := (va.toNat : Int) - (vb.toNat : Int)
  (BitVec.ofInt 16 diff, if diff < 0 then 0xFFFF else 0)

/-- R168: the low and the high Word of the unsigned product. -/
def mulPair (va vb : Word) : Word × Word :=
  let prod := va.toNat * vb.toNat
  (BitVec.ofNat 16 prod, BitVec.ofNat 16 (prod / 0x10000))

/-- R169: the low and the high Word of the 32-bit encoding of the signed product. -/
def mliPair (va vb : Word) : Word × Word :=
  let p32 := BitVec.ofInt 32 (signed va * signed vb)
  (p32.extractLsb' 0 16, p32.extractLsb' 16 16)

end Sys2Proof.Machine
end

