-- ==== Sys2Proof/Machine/Operands.lean ====
section
/-! DEFINITION. Operand resolution, read access and write access (rules R125 to R140). -/

namespace Sys2Proof.Machine

/-- R125: an operand descriptor. `lit` keeps the operand code for the info value of IllegalWrite
(R210). `spCell` exists only under the alternative of decision D7: the cell at SP plus `off`, SP taken
at the access. -/
inductive Desc where
  | reg (r : Reg)
  | cell (addr : Word)
  | spCell (off : Word)
  | stack
  | sp
  | pc
  | ex
  | lit (code : BitVec 6) (v : Word)
deriving DecidableEq, Repr

/-- R133, R134: the descriptor of the cell at SP plus `off`: its address is fixed now (the spec's
decision D7) or left to the access. -/
def spRelative (off : Word) (s : State) : Desc :=
  match s.params.order.addressTime with
  | .atResolve => .cell (s.sp + off)
  | .atAccess => .spCell off

/-- R125: `Resolve(p)`. -/
def resolve (o : Operand) (s : State) : Micro Desc :=
  match o with
  | .reg r => .ok (.reg r) s
  | .regInd r => .ok (.cell (s.reg r)) s
  | .regNext r => (nextWord s).bind fun nw t => .ok (.cell (t.reg r + nw)) t
  | .stack => .ok .stack s
  | .peek => .ok (spRelative 0 s) s
  | .spNext => (nextWord s).bind fun nw t => .ok (spRelative nw t) t
  | .sp => .ok .sp s
  | .pc => .ok .pc s
  | .ex => .ok .ex s
  | .nextInd => (nextWord s).bind fun nw t => .ok (.cell nw) t
  | .nextLit => (nextWord s).bind fun nw t => .ok (.lit (encodeOperand o) nw) t
  | .lit v => .ok (.lit (encodeOperand o) v) s

/-- R126: `Read(d)`, the source's `getValue`. -/
def readDesc (d : Desc) (s : State) : Micro Word :=
  match d with
  | .reg r => .ok (s.reg r) s
  | .cell addr => memRead addr.toNat s
  | .spCell off => memRead (s.sp + off).toNat s
  | .stack => (memRead s.sp.toNat s).bind fun v t => .ok v (t.setSp (t.sp + 1))
  | .sp => .ok s.sp s
  | .pc => .ok s.pc s
  | .ex => .ok s.ex s
  | .lit _ v => .ok v s

/-- R127: `Write(d, v)`, the source's `setValue`. -/
def writeDesc (d : Desc) (v : Word) (s : State) : Micro Unit :=
  match d with
  | .reg r => .ok () (s.setReg r v)
  | .cell addr => memWrite addr.toNat v s
  | .spCell off => memWrite (s.sp + off).toNat v s
  | .stack => let t := s.setSp (s.sp - 1); memWrite t.sp.toNat v t
  | .sp => .ok () (s.setSp v)
  | .pc => .ok () (s.setPc v)
  | .ex => .ok () (s.setEx v)
  | .lit code _ => .raised (.illegalWrite code) s

end Sys2Proof.Machine
end

