-- ==== Sys2Proof/Machine/Arithmetic.lean ====
section
/-! DEFINITION. ADD, SUB, MUL and MLI (rules R165 to R169). -/

namespace Sys2Proof.Machine

/-- R141 steps 5 and 6: the two read accesses, a before b by the spec's decision D8. -/
def readPair (dA dB : Desc) (s : State) : Micro (Word × Word) :=
  match s.params.order.readOrder with
  | .aThenB =>
    (readDesc dA s).bind fun va t => (readDesc dB t).bind fun vb u => .ok (va, vb) u
  | .bThenA =>
    (readDesc dB s).bind fun vb t => (readDesc dA t).bind fun va u => .ok (va, vb) u

/-- R125: the descriptor the result is written through. It is the one resolved before the body; only
the alternative of decision D6 resolves an operand with an extra Word a second time. -/
def target (a : Operand) (dA : Desc) (s : State) : Micro Desc :=
  match s.params.order.extraWords with
  | .once => .ok dA s
  | .again => if a.needsWord then resolve a s else .ok dA s

/-- R141 step 8: EX takes its Word. `s` is the state before the write of the result and `t` the one
after it: if the write called an observer (R43), EX waits beneath it; otherwise it changes at once. -/
def exAfter (v : Word) (s t : State) : State :=
  match t.agents.take (t.agents.length - s.agents.length) with
  | [] => t.setEx v
  | f :: fs => t.setAgents (f :: fs ++ .exUpdate v :: s.agents)

/-- R141 steps 7 and 8: the result is written, then EX, by the spec's decision D8. -/
def putPair (d : Desc) (r : Word × Word) (s : State) : Micro Unit :=
  match s.params.order.exOrder with
  | .afterResult => (writeDesc d r.1 s).bind fun _ t => .ok () (exAfter r.2 s t)
  | .beforeResult => writeDesc d r.1 (s.setEx r.2)

/-- R165: the common shape of the computing instructions, with the pair (result, ex) that `f` gives. -/
def compute (f : Word → Word → Word × Word) (a b : Operand) (s : State) : Micro Unit :=
  (resolve a s).bind fun dA s1 =>
  (resolve b s1).bind fun dB s2 =>
  (readPair dA dB s2).bind fun v s3 =>
  (target a dA s3).bind fun d s4 =>
  putPair d (f v.1 v.2) s4

/-- R166: ADD a, b. -/
def execAdd (a b : Operand) (s : State) : Host.Outcome State Fault Refusal :=
  conclude (compute addPair a b s)

/-- R167: SUB a, b. -/
def execSub (a b : Operand) (s : State) : Host.Outcome State Fault Refusal :=
  conclude (compute subPair a b s)

/-- R168: MUL a, b. -/
def execMul (a b : Operand) (s : State) : Host.Outcome State Fault Refusal :=
  conclude (compute mulPair a b s)

/-- R169: MLI a, b. -/
def execMli (a b : Operand) (s : State) : Host.Outcome State Fault Refusal :=
  conclude (compute mliPair a b s)

end Sys2Proof.Machine
end

