-- ==== Sys2Proof/Machine/DataMove.lean ====
section
/-! DEFINITION. SET (rule R160). -/

namespace Sys2Proof.Machine

/-- R160, steps 3, 4, 6 and 7 of R141: operand a is never read. -/
def move (a b : Operand) (s : State) : Micro Unit :=
  (resolve a s).bind fun dA s1 =>
  (resolve b s1).bind fun dB s2 =>
  (readDesc dB s2).bind fun v s3 =>
  writeDesc dA v s3

/-- R160: SET a, b. -/
def execSet (a b : Operand) (s : State) : Host.Outcome State Fault Refusal := conclude (move a b s)

end Sys2Proof.Machine
end

