-- ==== Sys2Proof/Machine/NoSemantics.lean ====
section
/-! DEFINITION. The opcode values without semantics: opcode 0 (rule R180) and the declared opcodes DIV to
SHL (rules R181 to R191). Each raises UnknownOpcode before an operand is resolved (R124, D9, D11; log
entries 11 and 13): PC stands past the instruction Word and nothing else has changed. -/

namespace Sys2Proof.Machine

/-- R124: `raise UnknownOpcode(opcode)` at step 2 of the cycle. -/
def raiseUnknownOpcode (op : BitVec 4) (s : State) : Host.Outcome State Fault Refusal :=
  conclude (.raised (.unknownOpcode op) s)

/-- R180: opcode 0. -/
def execOpcode0 (_a _b : Operand) (s : State) : Host.Outcome State Fault Refusal := raiseUnknownOpcode 0x0 s

/-- R182: DIV. -/
def execDiv (_a _b : Operand) (s : State) : Host.Outcome State Fault Refusal := raiseUnknownOpcode 0x6 s

/-- R183: DVI. -/
def execDvi (_a _b : Operand) (s : State) : Host.Outcome State Fault Refusal := raiseUnknownOpcode 0x7 s

/-- R184: MOD. -/
def execMod (_a _b : Operand) (s : State) : Host.Outcome State Fault Refusal := raiseUnknownOpcode 0x8 s

/-- R185: MDI. -/
def execMdi (_a _b : Operand) (s : State) : Host.Outcome State Fault Refusal := raiseUnknownOpcode 0x9 s

/-- R186: AND. -/
def execAnd (_a _b : Operand) (s : State) : Host.Outcome State Fault Refusal := raiseUnknownOpcode 0xA s

/-- R187: BOR. -/
def execBor (_a _b : Operand) (s : State) : Host.Outcome State Fault Refusal := raiseUnknownOpcode 0xB s

/-- R188: XOR. -/
def execXor (_a _b : Operand) (s : State) : Host.Outcome State Fault Refusal := raiseUnknownOpcode 0xC s

/-- R189: SHR. -/
def execShr (_a _b : Operand) (s : State) : Host.Outcome State Fault Refusal := raiseUnknownOpcode 0xD s

/-- R190: ASR. -/
def execAsr (_a _b : Operand) (s : State) : Host.Outcome State Fault Refusal := raiseUnknownOpcode 0xE s

/-- R191: SHL. -/
def execShl (_a _b : Operand) (s : State) : Host.Outcome State Fault Refusal := raiseUnknownOpcode 0xF s

end Sys2Proof.Machine
end

