-- ==== Sys2Proof/Machine/Dispatch.lean ====
section
/-! DEFINITION. The meaning of each instruction, run after its Word was fetched (rules R120, R141 from
step 2 on). -/

namespace Sys2Proof.Machine

def exec (i : Instr) (s : State) : Host.Outcome State Fault Refusal :=
  match i with
  | .opcode0 a b => Sys2Proof.Machine.execOpcode0 a b s
  | .set a b => Sys2Proof.Machine.execSet a b s
  | .add a b => Sys2Proof.Machine.execAdd a b s
  | .sub a b => Sys2Proof.Machine.execSub a b s
  | .mul a b => Sys2Proof.Machine.execMul a b s
  | .mli a b => Sys2Proof.Machine.execMli a b s
  | .div a b => Sys2Proof.Machine.execDiv a b s
  | .dvi a b => Sys2Proof.Machine.execDvi a b s
  | .mod a b => Sys2Proof.Machine.execMod a b s
  | .mdi a b => Sys2Proof.Machine.execMdi a b s
  | .and a b => Sys2Proof.Machine.execAnd a b s
  | .bor a b => Sys2Proof.Machine.execBor a b s
  | .xor a b => Sys2Proof.Machine.execXor a b s
  | .shr a b => Sys2Proof.Machine.execShr a b s
  | .asr a b => Sys2Proof.Machine.execAsr a b s
  | .shl a b => Sys2Proof.Machine.execShl a b s

end Sys2Proof.Machine
end

