-- ==== Sys2Proof/Machine/Cycle.lean ====
section
/-! DEFINITION. What moves next: the moves of an open activation (rules R43, R46, R222, R230), the CPU
cycle (R120), and the course of `exec` and `run` (R121, R266). -/

namespace Sys2Proof.Machine

/-- One action of a device, with the rest of its reaction waiting (R46). Values and messages are
reduced to 16 bits (R43, D16). -/
def deviceMove (dev : Nat) (act : DevAction) (rest : List DevAction) (s : State) : Micro Unit :=
  match act with
  | .read addr => (memRead addr s).bind fun w t => .ok () (signal dev (.data addr w) rest t)
  | .write addr v =>
    memWrite addr (BitVec.ofNat 16 v) (s.setAgents (.acts dev rest :: s.agents))
  | .interrupt msg => interrupt (BitVec.ofNat 16 msg) (s.setAgents (.acts dev rest :: s.agents))

/-- The next move of an activation that was taken off the stack. -/
def agentMove (f : Frame) (s : State) : Micro Unit :=
  match f with
  | .observe h addr v => .ok () (signal h.dev (.written h.port addr v) [] s)
  | .update dev =>
    updateDevice dev (Config.deviceInput s.draws) (s.setDraws (s.draws + 1))
  | .acts _ [] => .ok () s
  | .acts dev (act :: rest) => deviceMove dev act rest s
  | .pushA msg => entryPushA msg s
  | .jump msg => entryJump msg s
  | .exUpdate v => .ok () (s.setEx v)

/-- R120: one cycle. The fetch advances PC (R123); the decoded instruction runs from there. -/
def cycle (s : State) : Host.Outcome State Fault Refusal :=
  match nextWord s with
  | .ok w t => exec (decode w) t
  | .raised f t => .next (t.latch f)

/-- R121, R230, R266: the end of `exec`. In a `run` every device is then updated once, in registration
order; the host has the turn after that. -/
def endOfExec (poll : Bool) (s : State) : State :=
  (s.setPhase .host).setAgents (if poll then s.bus.map fun e => .update e.2 else [])

/-- The move of a machine with no open activation: one cycle, counted off if `exec` or `run` has the
turn (R121); on the host's turn a step stands for `exec(1)` (R268), log entry 29. -/
def turn (s : State) : Host.Outcome State Fault Refusal :=
  match s.phase with
  | .host => cycle s
  | .cycles 0 poll => .next (endOfExec poll s)
  | .cycles (n + 1) poll => cycle (s.setPhase (.cycles n poll))

/-- R33, R216, R270: with no activation open and the fault latch set the machine makes no move and
answers the fault. -/
def cpuMove (s : State) : Host.Outcome State Fault Refusal :=
  match s.fault with
  | some f => .fault f
  | none => turn s

/-- One move: the innermost open activation, or the CPU. A fault closes every activation (R215), so one
that is open while a fault is latched is the host's own doing (a `write` or an event, R268), and it
runs: the latch stops the CPU and the device poll only (R33). -/
def move1 (s : State) : Host.Outcome State Fault Refusal :=
  match s.agents with
  | [] => cpuMove s
  | f :: fs => conclude (agentMove f (s.setAgents fs))

/-- The memory with an instruction of `nbits` bits stored at PC: its first Word at PC, a later Word at
the address NextWord takes next (R73, R123). Bits above `nbits` are 0. -/
def placeAt (pc : Word) (nbits w : Nat) (m : Memory) : Memory :=
  let v := w % 2 ^ nbits
  ((m.write pc.toNat (BitVec.ofNat 16 v)).write (pc + 1).toNat (BitVec.ofNat 16 (v / 2 ^ 16))).write
    (pc + 2).toNat (BitVec.ofNat 16 (v / 2 ^ 32))

end Sys2Proof.Machine
end

