-- ==== Sys2Proof/Machine/Step.lean ====
section
/-! DEFINITION. One step of the machine, and where it fetches its next instruction. -/

namespace Sys2Proof.Machine

/-- One step: the innermost open activation moves, or the CPU; the CPU answers a latched fault. -/
def step (s : State) : Host.Outcome State Fault Refusal := move1 s

/-- The state whose next step runs the instruction of bits `w`: it stands at PC, no fault is latched,
no activation is open, and the turn lets a cycle run. It stands for the host's load of a program (log
entry 35). -/
def State.withFetchWord (s : State) (nbits w : Nat) : State :=
  { s with mem := placeAt s.pc nbits w s.mem, fault := none, agents := [], phase := .host }

end Sys2Proof.Machine
end

