-- ==== Sys2Proof/Machine/Assembler.lean ====
section
/-! DEFINITION. The assembler `loadAssembly` calls (rules R90 to R97), a design reference of the spec.
Source text is a list of characters. -/

namespace Sys2Proof.Machine

/-! ## Text -/

/-- White space within a line. -/
def isBlank (c : Char) : Bool := c = ' ' || c = '\t' || c = '\r'

/-- The text without white space at either end. -/
def trim (t : List Char) : List Char := (((t.dropWhile isBlank).reverse).dropWhile isBlank).reverse

/-- R91: the lines of the text. -/
def splitLines : List Char → List (List Char)
  | [] => [[]]
  | c :: t =>
    match splitLines t with
    | [] => [[c]]
    | l :: ls => if c = '\n' then [] :: l :: ls else (c :: l) :: ls

/-- R91: comments removed, lines trimmed, blank lines dropped. -/
def normalize (text : List Char) : List (List Char) :=
  ((splitLines text).map fun l => trim (l.takeWhile (· != ';'))).filter (· != [])

/-! ## Values -/

/-- The digits by their value, 0 to 15. -/
def digitChars : List Char := "0123456789ABCDEF".toList

/-- The digits above 9 in lower case, from the value 10. -/
def lowerDigitChars : List Char := "abcdef".toList

/-- R96: the value of a digit of base `base`. -/
def digitValue (base : Nat) (c : Char) : Option Nat :=
  let v := (digitChars.idxOf? c).or ((lowerDigitChars.idxOf? c).map (· + 10))
  v.filter (· < base)

/-- R96: the number a text of at least one digit spells in base `base`. -/
def number (base : Nat) (t : List Char) : Option Nat :=
  if t = [] then none
  else (t.mapM (digitValue base)).map (List.foldl (fun n d => n * base + d) 0)

/-- R91, R96: `0x...`, `0b...` or all digits. -/
def literal : List Char → Option Nat
  | '0' :: 'x' :: t => number 16 t
  | '0' :: 'b' :: t => number 2 t
  | t => number 10 t

/-- One emitted Word: a number, or a label to be filled in (R93). -/
inductive Emitted where
  | word (w : Word)
  | ref (label : List Char)
deriving DecidableEq, Repr

/-- R96, C4: the label a reference names: one leading colon is removed. -/
def labelName : List Char → List Char
  | ':' :: t => t
  | t => t

/-- R96: `value(s)`; a number is taken mod 65536, anything else is a label reference. -/
def value (t : List Char) : Emitted :=
  match literal t with
  | some n => .word (BitVec.ofNat 16 n)
  | none => .ref (labelName t)

/-! ## Operands -/

/-- R83: the general registers' names in the order of their numbers. -/
def regNames : List Char := "ABCXYZIJ".toList

/-- R83: the number of the general register a text names. -/
def regName : List Char → Option Nat
  | [c] => regNames.idxOf? c
  | _ => none

/-- R83: a special register's name and base code. -/
def specialName : List Char → Option Nat
  | ['S', 'P'] => some 0x1B
  | ['P', 'C'] => some 0x1C
  | ['E', 'X'] => some 0x1D
  | _ => none

/-- The inside of a bracketed text. -/
def bracketed : List Char → Option (List Char)
  | '[' :: t =>
    match t.reverse with
    | ']' :: u => some (trim u.reverse)
    | _ => none
  | _ => none

/-- R95: operand parsing: the 6-bit code and at most one extra Word. A bracketed special register gets
the code 0x08 + its base code, which the CPU reads as an inline literal (C3). -/
def parseOperand (t : List Char) : BitVec 6 × Option Emitted :=
  match regName t, specialName t, bracketed t with
  | some r, _, _ => (BitVec.ofNat 6 r, none)
  | none, some c, _ => (BitVec.ofNat 6 c, none)
  | none, none, some u =>
    match regName u, specialName u with
    | some r, _ => (BitVec.ofNat 6 (0x08 + r), none)
    | none, some c => (BitVec.ofNat 6 (0x08 + c), none)
    | none, none => (0x1E, some (value u))
  | none, none, none => (0x1F, some (value t))

/-- R93, D26 (c): an operand that is absent has code 0 and no extra Word. -/
def operandOf : Option (List Char) → BitVec 6 × Option Emitted
  | none => (0, none)
  | some t => parseOperand t

/-! ## Lines -/

/-- A normalised line: a label definition or an instruction with up to two operand texts (R91). -/
inductive Line where
  | label (name : List Char)
  | instr (mnemonic : List Char) (a b : Option (List Char))
deriving DecidableEq, Repr

/-- The operand texts of an instruction line: the part before the first comma and the part after it. -/
def splitOperands (t : List Char) : Option (List Char) × Option (List Char) :=
  if trim t = [] then (none, none)
  else
    match t.dropWhile (· != ',') with
    | [] => (some (trim t), none)
    | _ :: b => (some (trim (t.takeWhile (· != ','))), some (trim b))

/-- R91: a line that begins with a colon defines a label; any other is an instruction. -/
def parseLine : List Char → Line
  | ':' :: name => .label name
  | t =>
    let ops := splitOperands (t.dropWhile (fun c => !isBlank c))
    .instr (t.takeWhile (fun c => !isBlank c)) ops.1 ops.2

/-- R79: the fixed opcode table, mnemonic to code, all 27 entries. -/
def opcodeTable : List (String × Nat) :=
  [("SET", 0x01), ("ADD", 0x02), ("SUB", 0x03), ("MUL", 0x04), ("MLI", 0x05), ("DIV", 0x06),
   ("DVI", 0x07), ("MOD", 0x08), ("MDI", 0x09), ("AND", 0x0A), ("BOR", 0x0B), ("XOR", 0x0C),
   ("SHR", 0x0D), ("ASR", 0x0E), ("SHL", 0x0F), ("IFB", 0x10), ("IFC", 0x11), ("IFE", 0x12),
   ("IFN", 0x13), ("IFG", 0x14), ("IFA", 0x15), ("IFL", 0x16), ("IFU", 0x17), ("ADX", 0x1A),
   ("SBX", 0x1B), ("STI", 0x1E), ("STD", 0x1F)]

/-- R93, R97, R80: the opcode of a mnemonic. A code above 0x0F has no encoding (D26 (g)). -/
def mnemonicCode (m : List Char) : Except AsmError (BitVec 4) :=
  match opcodeTable.find? (fun e => e.1.toList == m) with
  | none => .error (.unknownMnemonic m)
  | some e => if e.2 ≤ 0x0F then .ok (BitVec.ofNat 4 e.2) else .error (.noEncoding m)

/-- R76, R92: the Words an operand adds to its instruction. -/
def extraSize (t : Option (List Char)) : Nat :=
  match (operandOf t).2 with
  | none => 0
  | some _ => 1

/-- R92, C2: the size of a line: exactly what pass 2 emits for it. -/
def lineSize : Line → Nat
  | .label _ => 0
  | .instr _ a b => 1 + extraSize a + extraSize b

/-- R92: pass 1, the label table; a label is bound to the current address. A second definition of a
label is refused (D26 (f)). -/
def pass1 : Nat → List (List Char × Nat) → List Line → Except AsmError (List (List Char × Nat))
  | _, labels, [] => .ok labels
  | addr, labels, .label n :: ls =>
    if (labels.lookup n).isSome then .error (.duplicateLabel n)
    else pass1 addr (labels ++ [(n, addr)]) ls
  | addr, labels, .instr m a b :: ls => pass1 (addr + lineSize (.instr m a b)) labels ls

/-- R93: what an instruction line emits: the instruction Word, a's extra Word, b's extra Word. -/
def emitLine : Line → Except AsmError (List Emitted)
  | .label _ => .ok []
  | .instr m a b =>
    match mnemonicCode m with
    | .error e => .error e
    | .ok op =>
      .ok (.word (packWord op (operandOf a).1 (operandOf b).1) ::
        ((operandOf a).2.toList ++ (operandOf b).2.toList))

/-- R93: pass 2, in the order of the lines. -/
def pass2 : List Line → Except AsmError (List Emitted)
  | [] => .ok []
  | l :: ls =>
    match emitLine l with
    | .error e => .error e
    | .ok ws =>
      match pass2 ls with
      | .error e => .error e
      | .ok rest => .ok (ws ++ rest)

/-- R94: label backfill. -/
def backfill (labels : List (List Char × Nat)) : List Emitted → Except AsmError (List Word)
  | [] => .ok []
  | e :: es =>
    let w : Except AsmError Word :=
      match e with
      | .word w => .ok w
      | .ref n =>
        match labels.lookup n with
        | none => .error (.undefinedLabel n)
        | some addr => .ok (BitVec.ofNat 16 addr)
    match w with
    | .error x => .error x
    | .ok w =>
      match backfill labels es with
      | .error x => .error x
      | .ok ws => .ok (w :: ws)

/-- R90: `assemble(sourceText) -> sequence of Word`. -/
def assemble (text : List Char) : Except AsmError (List Word) :=
  let lines := (normalize text).map parseLine
  match pass1 0 [] lines with
  | .error e => .error e
  | .ok labels =>
    match pass2 lines with
    | .error e => .error e
    | .ok es => backfill labels es

end Sys2Proof.Machine
end

