-- ==== Sys2Proof/Machine/HostOps.lean ====
section
/-! DEFINITION. What the host can do to the machine, between two runs (rules R228, R229, R260 to R268). -/

namespace Sys2Proof.Machine

/-- R268: the registers the host can write; writing IA is the only way it changes. -/
inductive HostReg where
  | reg (r : Reg)
  | pc
  | sp
  | ex
  | ia
deriving DecidableEq, Repr

/-- R268: the host's operations. Values are unbounded integers, reduced to a Word. -/
inductive HostOp where
  /-- R228: `registerDevice(device)` of a new object. -/
  | registerDevice (d : Device)
  /-- R228: `registerDevice(device)` of an object registered before, given by its place in
  `State.devices` (log entry 30). -/
  | registerAgain (dev : Nat)
  /-- R45: `watch(addr, callback)`, called by a device's `connect()`. -/
  | watch (addr : Nat) (h : Handler)
  /-- R261: `loadAssembly(sourceText)`, the reset. -/
  | loadAssembly (text : List Char)
  /-- R266: `run(n)`. -/
  | run (n : Nat)
  /-- R121: `exec(n)` without the device poll. -/
  | exec (n : Nat)
  /-- R268: write of a register. -/
  | writeReg (r : HostReg) (v : Nat)
  /-- R43: `MemorySystem.write(addr, v)`. -/
  | write (addr v : Nat)
  /-- R44: `load(offset, words)`. -/
  | load (offset : Nat) (words : List Nat)
  /-- R221 (c): an outside event for a device. -/
  | event (dev : Nat) (e : DevEvent)
  /-- R267: `getDisplayPixels()`; the buffer it returns is `displayPixels` of the state after it. -/
  | getDisplayPixels
  /-- R232, D21: an interrupt that the host injects. DEDUCED, log entry 37: R268's table has no such
  operation, and it needs no device. -/
  | interrupt (msg : Nat)
  /-- R268: read of a memory Word; of one that does not exist, a fault (R41). -/
  | read (addr : Nat)
deriving DecidableEq, Repr

/-- R228: the registry with `id` standing for device `dev`: a registered id keeps its place (D20), a
new one comes last. -/
def busInsert (id : HardwareId) (dev : Nat) : List (HardwareId × Nat) → List (HardwareId × Nat)
  | [] => [(id, dev)]
  | (k, d) :: t => if k = id then (k, dev) :: t else (k, d) :: busInsert id dev t

/-- R229: `getDevice(hardwareId)`: absent if the id is not registered. -/
def getDevice (id : HardwareId) (s : State) : Option Nat := s.bus.lookup id

/-- R267: the Display that `getDisplayPixels()` finds, with its place among the devices. DEDUCED from R229
and R238 (a hardware id is used for `getDevice` only), log entry 38: it is the device that the bus holds
under the Display's id; without one, or if that device is no Display, the Display is unavailable. -/
def busDisplay (s : State) : Option (Nat × Display) :=
  match getDevice displayId s with
  | none => none
  | some n =>
    match s.devices[n]? with
    | some (.display x) => some (n, x)
    | some (.keyboard _) | some (.clock _) | some (.other _ _) | none => none

/-- R267: the buffer `getDisplayPixels()` returns: the Display's, blank without a Display. -/
def displayPixels (s : State) : Pixels :=
  match busDisplay s with
  | none => Config.blankPixels
  | some (_, x) => x.pixels

/-- R267: the Display of the bus renders on demand. Whether that clears its dirty flag is free (log entry
38). -/
def renderOnDemand (s : State) : Micro Unit :=
  match busDisplay s with
  | none => .ok () s
  | some (n, x) => render n Config.onDemandClearsDirty x s

/-- R268: the host's read of a register. -/
def readHostReg (r : HostReg) (s : State) : Word :=
  match r with
  | .reg r => s.reg r
  | .pc => s.pc
  | .sp => s.sp
  | .ex => s.ex
  | .ia => s.ia

/-- R268: the host's write of a register. -/
def writeHostReg (r : HostReg) (v : Word) (s : State) : State :=
  match r with
  | .reg r => s.setReg r v
  | .pc => s.setPc v
  | .sp => s.setSp v
  | .ex => s.setEx v
  | .ia => s.setIa v

/-- R44: `load(offset, words)`: the check comes first, all or nothing, no observers (D13). -/
def load (offset : Nat) (ws : List Word) (s : State) : Micro Unit :=
  if offset + ws.length > s.params.memSize then .raised (.addressing (offset + ws.length - 1)) s
  else .ok () (s.setMem (s.mem.copy offset ws))

/-- R261: assemble, load at address 0, reset the CPU, in that order. A program that does not fit raises
AddressingFault (R44, R33). -/
def loadAssembly (text : List Char) (s : State) : Host.Outcome State Fault Refusal :=
  match assemble text with
  | .error e => .refused (.assemblyFailed e)
  | .ok ws => conclude ((load 0 ws s).bind fun _ t => .ok () t.resetCpu)

/-- R266, R121: a run of `n` cycles begins; while a fault is latched the same fault is returned and
nothing happens (D12). -/
def startCycles (n : Nat) (poll : Bool) (s : State) : Host.Outcome State Fault Refusal :=
  match s.fault with
  | some f => .fault f
  | none => .next (s.setPhase (.cycles n poll))

/-- R228: the id stands for device `dev`, "keyed by its hardwareId". -/
def putOnBus (id : HardwareId) (dev : Nat) (s : State) : State := s.setBus (busInsert id dev s.bus)

/-- R228: a new device joins the devices and its id the bus. DESIGN CHOICE, log entry 30: it is a new
object also where it equals one that was registered: observers of the earlier one keep referring to the
earlier one. -/
def registerDevice (d : Device) (s : State) : State :=
  putOnBus d.id s.devices.length (s.setDevices (s.devices ++ [d]))

/-- A host operation on the host's turn. A fault it raises sets the latch, as any does (R33, log entry
36). -/
def hostMove (op : HostOp) (s : State) : Host.Outcome State Fault Refusal :=
  match op with
  | .registerDevice d => .next (registerDevice d s)
  | .registerAgain dev =>
    match s.devices[dev]? with
    | some d => .next (putOnBus d.id dev s)
    | none => .refused (.noSuchDevice dev)
  | .watch addr h =>
    if h.dev < s.devices.length then .next (s.setWatch (insertCell addr h s.watch))
    else .refused (.noSuchDevice h.dev)
  | .loadAssembly text => loadAssembly text s
  | .run n => startCycles n true s
  | .exec n => startCycles n false s
  | .writeReg r v => .next (writeHostReg r (BitVec.ofNat 16 v) s)
  | .write addr v => conclude (memWrite addr (BitVec.ofNat 16 v) s)
  | .load offset ws => conclude (load offset (ws.map (BitVec.ofNat 16)) s)
  | .event dev e =>
    if dev < s.devices.length then .next (signal dev (.event e) [] s)
    else .refused (.noSuchDevice dev)
  | .getDisplayPixels => conclude (renderOnDemand s)
  | .interrupt msg => conclude (interrupt (BitVec.ofNat 16 msg) s)
  | .read addr => conclude ((memRead addr s).bind fun _ t => .ok () t)

/-- R268, D23: the host acts only between runs. -/
def hostStep (op : HostOp) (s : State) : Host.Outcome State Fault Refusal :=
  if s.agents = [] ∧ s.phase = .host then hostMove op s else .refused .hostDuringRun

end Sys2Proof.Machine
end

