-- ==== Sys2Proof/Safety.lean ====
section
/-! DEFINITION. The invariant of the machine and what counts as a safe state. -/

namespace Sys2Proof.Machine

/-- R41: every listed cell lies inside memory. -/
abbrev Memory.inside (m : Memory) (size : Nat) : Prop := ∀ p ∈ m, p.1 < size

/-- The devices an activation refers to exist. -/
def Frame.known (n : Nat) : Frame → Bool
  | .observe h _ _ => h.dev < n
  | .update dev | .acts dev _ => dev < n
  | .pushA _ | .jump _ | .exUpdate _ => true

/-- What holds of every state of a machine: legal parameters (R6), memory in canonical form and inside
its size (R28, R41), one observer per address (R30), one device per id (R31), the device under an id having
that id (R228, R238), references to existing devices, and no run going on after a fault (R33, R215). -/
structure State.Inv (s : State) : Prop where
  params : s.params.legal
  memWf : s.mem.wf
  memInside : s.mem.inside s.params.memSize
  watchSorted : s.watch.Pairwise (fun p q => p.1 < q.1)
  watchKnown : ∀ p ∈ s.watch, p.2.dev < s.devices.length
  busIds : (s.bus.map Prod.fst).Nodup
  busKnown : ∀ p ∈ s.bus, (s.devices[p.2]?).map Device.id = some p.1
  agentsKnown : ∀ f ∈ s.agents, f.known s.devices.length = true
  stopped : s.fault ≠ none → s.phase = .host

/-- A state a micro-operation ends in, completed or not, has the property. -/
def Micro.All {α : Type} (P : State → Prop) : Micro α → Prop
  | .ok _ t => P t
  | .raised _ t => P t

/-- What no instruction, interrupt entry or device can change: IA (R26), the observers (R30), the bus
(R31) and the parameters (R6). -/
def State.sameSystem (s t : State) : Prop :=
  t.ia = s.ia ∧ t.watch = s.watch ∧ t.bus = s.bus ∧ t.params = s.params

/-- The state after a completed `MemWrite` at `x` (R43): the cell, and the activation of its observer
if it has one. -/
def State.stored (s : State) (x : Nat) (v : Word) : State :=
  (s.setMem (s.mem.write x v)).setAgents (observers x v s ++ s.agents)

/-- R127: the address a write access through a descriptor stores to, if it stores to memory. -/
def storeAddr (d : Desc) (s : State) : Option Nat :=
  match d with
  | .cell addr => some addr.toNat
  | .spCell off => some (s.sp + off).toNat
  | .stack => some (s.sp - 1).toNat
  | .reg _ | .sp | .pc | .ex | .lit _ _ => none

/-! ## The effect of an instruction in closed form

With the spec's orders, and every access inside memory, the effect of an instruction is a function of the
state before it (rules R125 to R127, R141). The state here is the one after the fetch of the instruction
Word. With all 65536 Words every access is inside memory. -/

/-- R76: what resolving an operand adds to PC. -/
def extra (o : Operand) : Word := if o.needsWord then 1 else 0

/-- R125: the effective address of a memory operand whose extra Word is `nw`. -/
def effAddr (o : Operand) (nw : Word) (s : State) : Option Word :=
  match o with
  | .regInd r => some (s.reg r)
  | .regNext r => some (s.reg r + nw)
  | .peek => some s.sp
  | .spNext => some (s.sp + nw)
  | .nextInd => some nw
  | .reg _ | .stack | .sp | .pc | .ex | .nextLit | .lit _ => none

/-- R126: the value a read access gives when PC is `pc` and SP is `sp`. -/
def readValue (o : Operand) (nw pc sp : Word) (s : State) : Word :=
  match o with
  | .reg r => s.reg r
  | .regInd r => s.mem.read (s.reg r).toNat
  | .regNext r => s.mem.read (s.reg r + nw).toNat
  | .stack => s.mem.read sp.toNat
  | .peek => s.mem.read s.sp.toNat
  | .spNext => s.mem.read (s.sp + nw).toNat
  | .sp => sp
  | .pc => pc
  | .ex => s.ex
  | .nextInd => s.mem.read nw.toNat
  | .nextLit => nw
  | .lit v => v

/-- R126: SP after a read access made when it was `sp`: a pop adds 1. -/
def spAfterRead (o : Operand) (sp : Word) : Word := if o = .stack then sp + 1 else sp

/-- R127: the state after the write access of `v` to operand a, made in `t`; the effective address
comes from `s`, the state before the instruction's reads. -/
def putValue (o : Operand) (nw v : Word) (s t : State) : State :=
  match o with
  | .reg r => t.setReg r v
  | .stack => (t.setSp (t.sp - 1)).stored (t.sp - 1).toNat v
  | .sp => t.setSp v
  | .pc => t.setPc v
  | .ex => t.setEx v
  | .regInd _ | .regNext _ | .peek | .spNext | .nextInd =>
    match effAddr o nw s with
    | some x => t.stored x.toNat v
    | none => t
  | .nextLit | .lit _ => t

/-- R73, R123: a's extra Word, if it takes one, is the Word at PC. -/
def wordA (s : State) : Word := s.mem.read s.pc.toNat

/-- R73, R123: b's extra Word, if it takes one, is the next Word after a's. -/
def wordB (a : Operand) (s : State) : Word := s.mem.read (s.pc + extra a).toNat

/-- R23: PC once both operands are resolved: the address of the Word after the instruction. -/
def pcAfter (a b : Operand) (s : State) : Word := s.pc + extra a + extra b

/-- R160: the effect of SET a, b. -/
def setEffect (a b : Operand) (s : State) : State :=
  putValue a (wordA s) (readValue b (wordB a s) (pcAfter a b s) s.sp s) s
    ((s.setPc (pcAfter a b s)).setSp (spAfterRead b s.sp))

/-- R165: the first source of a computing instruction. -/
def sourceA (a b : Operand) (s : State) : Word :=
  readValue a (wordA s) (pcAfter a b s) s.sp s

/-- R165: the second source: a pop of a has moved SP before it is read. -/
def sourceB (a b : Operand) (s : State) : Word :=
  readValue b (wordB a s) (pcAfter a b s) (spAfterRead a s.sp) s

/-- R165: the state after a computing instruction's reads. -/
def afterReads (a b : Operand) (s : State) : State :=
  (s.setPc (pcAfter a b s)).setSp (spAfterRead b (spAfterRead a s.sp))

/-- R165: the effect of a computing instruction that puts `result` in a and then `ex` in EX (after the
observer, if the result was stored to a watched cell). -/
def computeEffect (a b : Operand) (result ex : Word) (s : State) : State :=
  exAfter ex (afterReads a b s) (putValue a (wordA s) result s (afterReads a b s))

/-- R126: the address a read access made when SP is `sp` reads, if it reads memory. -/
def readAddr (o : Operand) (nw sp : Word) (s : State) : Option Word :=
  if o = .stack then some sp else effAddr o nw s

/-- R127: the address a write access made when SP is `sp` stores to, if it stores to memory. -/
def writeAddr (o : Operand) (nw sp : Word) (s : State) : Option Word :=
  if o = .stack then some (sp - 1) else effAddr o nw s

/-- R127: SP after a write access made when it was `sp`: a push subtracts 1, also if its store faults. -/
def spAfterWrite (o : Operand) (sp : Word) : Word := if o = .stack then sp - 1 else sp

/-- R41: an address, if there is one, is inside memory. -/
def State.inside (s : State) : Option Word → Bool
  | none => true
  | some x => x.toNat < s.params.memSize

/-- R123: the extra Words of an instruction are inside memory. -/
abbrev wordsInside (a b : Operand) (s : State) : Prop :=
  (a.needsWord = true → s.pc.toNat < s.params.memSize) ∧
  (b.needsWord = true → (s.pc + extra a).toNat < s.params.memSize)

/-- SET a, b takes and reads only Words inside memory. -/
abbrev setReadsInside (a b : Operand) (s : State) : Prop :=
  wordsInside a b s ∧ s.inside (readAddr b (wordB a s) s.sp s) = true

/-- SET a, b takes, reads and stores to only Words inside memory. -/
abbrev setInside (a b : Operand) (s : State) : Prop :=
  setReadsInside a b s ∧ s.inside (writeAddr a (wordA s) (spAfterRead b s.sp) s) = true

/-- A computing instruction takes and reads only Words inside memory. Its store then is inside too: it
goes where a, or a pop of b, was read. -/
abbrev computeInside (a b : Operand) (s : State) : Prop :=
  wordsInside a b s ∧ s.inside (readAddr a (wordA s) s.sp s) = true ∧
  s.inside (readAddr b (wordB a s) (spAfterRead a s.sp) s) = true

/-- The orders rules R125 and R141 give (the spec's decisions D6, D7, D8). -/
abbrev State.specOrder (s : State) : Prop := s.params.order = Order.spec

/-- R41: all 65536 addresses exist. -/
abbrev State.fullMemory (s : State) : Prop := s.params.memSize = 65536

/-- The CPU is about to run a cycle: no fault is latched, no activation is open, and `exec` has cycles
left or the host single-steps. -/
def State.atCycle (s : State) : Prop :=
  s.fault = none ∧ s.agents = [] ∧ ∀ poll, s.phase ≠ .cycles 0 poll

/-- R121: the state in which the cycle runs: a counted cycle is counted off. -/
def State.counted (s : State) : State :=
  match s.phase with
  | .cycles (n + 1) poll => s.setPhase (.cycles n poll)
  | .host | .cycles 0 _ => s

end Sys2Proof.Machine
end

