-- ==== Sys2Proof/Certificates/Slice0/Obligations.lean ====
section
/-! DEFINITION. The statements for the provers. `exec i s` is the instruction after the fetch of its Word:
`s.pc` is the address of the Word after it. Where a statement rests on a decision of the spec
(92_eei_decisions.md) or of the model, its docstring names it. -/

open Sys2Proof Sys2Proof.Machine

/-! ## Encoding -/

/-- R71, R72, R75: decoding the Word of a well-formed instruction gives the instruction back, with both
operands at every value they admit. -/
def Obligations.DecodeEncodeRoundTrip : Prop :=
  ∀ i : Instr, i.wf = true → decode (encode i) = i

/-- R71, R75, R82: every Word decodes to a well-formed instruction whose Word it is. -/
def Obligations.EveryWordIsTheWordOfItsInstruction : Prop :=
  ∀ w : Word, (decode w).wf = true ∧ encode (decode w) = w

/-- R81: the class of a Word, from its fields. -/
def Obligations.WordClassFromFields : Prop :=
  ∀ w : Word,
    ((decode w).wordClass = .illegalOpcode ↔
      (opcodeField w).toNat = 0 ∨ 6 ≤ (opcodeField w).toNat) ∧
    ((decode w).wordClass = .illegalDestination ↔
      1 ≤ (opcodeField w).toNat ∧ (opcodeField w).toNat ≤ 5 ∧ 0x1F ≤ (fieldA w).toNat) ∧
    ((decode w).wordClass = .legal ↔
      1 ≤ (opcodeField w).toNat ∧ (opcodeField w).toNat ≤ 5 ∧ (fieldA w).toNat ≤ 0x1E)

/-- R84: Words of the spec's table of worked encodings, one for each implemented opcode and one that
faults. -/
def Obligations.WorkedEncodingsDecode : Prop :=
  decode 0x7C01 = .set (.reg .a) .nextLit ∧ decode 0x0402 = .add (.reg .a) (.reg .b) ∧
  decode 0x75C3 = .sub .pc .ex ∧ decode 0x0404 = .mul (.reg .a) (.reg .b) ∧
  decode 0x0405 = .mli (.reg .a) (.reg .b) ∧ decode 0x0406 = .div (.reg .a) (.reg .b) ∧
  decode 0x4111 = .set (.regNext .b) (.regNext .a) ∧ decode 0x61C1 = .set .pc .stack

/-! ## The cycle and the course of a run -/

/-- R120, R123: when the CPU is about to run a cycle and PC is inside memory, the step is the decoded
instruction run with PC past its Word (and the cycle counted off, the model's phase, log entry 29). -/
def Obligations.StepRunsTheDecodedInstruction : Prop :=
  ∀ s : State, s.atCycle → s.pc.toNat < s.params.memSize →
    step s = exec (decode (s.mem.read s.pc.toNat)) (s.counted.setPc (s.pc + 1))

/-- R123, R211: a fetch outside memory latches AddressingFault with PC not advanced (the latch: D12, log
entry 14). -/
def Obligations.FetchOutsideMemoryLatches : Prop :=
  ∀ s : State, s.atCycle → s.params.memSize ≤ s.pc.toNat →
    step s = .next (s.latch (.addressing s.pc.toNat))

/-- R33, R216 (D12, log entry 14): while a fault is latched the CPU makes no move, and `run` and `exec`
return the same fault. -/
def Obligations.LatchedFaultStopsTheCpu : Prop :=
  ∀ (s : State) (f : Fault) (n : Nat), s.fault = some f → s.agents = [] →
    step s = .fault f ∧
    (s.phase = .host → hostStep (.run n) s = .fault f ∧ hostStep (.exec n) s = .fault f)

/-- R269, U7: a step never refuses, and it stops only at a latched fault with no activation open. That an
activation open under a latched fault still runs is the model's choice (log entry 14; activations: log
entry 28). -/
def Obligations.StepStopsOnlyAtALatchedFault : Prop :=
  ∀ (s : State), (∀ f, step s = .fault f ↔ s.fault = some f ∧ s.agents = []) ∧
    ∀ r, step s ≠ .refused r

/-- R121: `exec(n)` and `run(n)` begin with `n` cycles to go, and a cycle that no fault ends leaves one
fewer (the model's phase, log entry 29). -/
def Obligations.CyclesAreCountedOff : Prop :=
  (∀ (s : State) (n : Nat), s.fault = none → s.agents = [] → s.phase = .host →
    hostStep (.run n) s = .next (s.setPhase (.cycles n true)) ∧
    hostStep (.exec n) s = .next (s.setPhase (.cycles n false))) ∧
  (∀ (s t : State) (n : Nat) (poll : Bool), s.fault = none → s.agents = [] →
    s.phase = .cycles (n + 1) poll → step s = .next t → t.fault = none → t.phase = .cycles n poll)

/-- R230, R266: after the last cycle of a `run` the update of every device of the bus is due, in
registration order, and nothing else has changed; after the last cycle of an `exec` none is. -/
def Obligations.EndOfRunPollsEveryDevice : Prop :=
  ∀ s : State, s.fault = none → s.agents = [] →
    (s.phase = .cycles 0 true → step s =
      .next { s with phase := .host, agents := s.bus.map fun e => Frame.update e.2 }) ∧
    (s.phase = .cycles 0 false → step s = .next { s with phase := .host })

/-- R47, R226, R230 (activations: log entry 28): activations nest: if the innermost one's move raises no
fault, those beneath it wait unchanged under what it opened; if it raises one, which is an AddressingFault
of an address outside memory, that fault is latched and unwinds them all (R211, R215; log entry 14). -/
def Obligations.ActivationsNest : Prop :=
  ∀ (s t : State) (f : Frame) (rest : List Frame), s.agents = f :: rest → step s = .next t →
    (∃ u x, agentMove f (s.setAgents rest) = .raised (.addressing x) u ∧ s.params.memSize ≤ x ∧
      t = u.latch (.addressing x)) ∨
    (agentMove f (s.setAgents rest) = .ok () t ∧ ∃ opened, t.agents = opened ++ rest)

/-! ## Opcodes without semantics -/

/-- R124, R180, R181 (D9, D11, log entries 11 and 13): each of the eleven instructions without semantics
raises UnknownOpcode with its opcode value, before any operand is touched. -/
def Obligations.OpcodesWithoutSemanticsLatchUnknownOpcode : Prop :=
  ∀ (a b : Operand) (s : State) (i : Instr) (n : BitVec 4),
    (i, n) ∈ [(Instr.opcode0 a b, (0x0 : BitVec 4)), (.div a b, 0x6), (.dvi a b, 0x7),
      (.mod a b, 0x8), (.mdi a b, 0x9), (.and a b, 0xA), (.bor a b, 0xB), (.xor a b, 0xC),
      (.shr a b, 0xD), (.asr a b, 0xE), (.shl a b, 0xF)] →
    exec i s = .next { s with fault := some (.unknownOpcode n), agents := [], phase := .host }

/-- R180: a Word with opcode nibble 0x0, whatever its `a` and `b`: UnknownOpcode(0), PC past the Word,
nothing else changed. The agents are [] before as well; that the fault ends the run is R215. -/
def Obligations.OpcodeZeroFaultsPastItsWord : Prop :=
  ∀ s : State, s.atCycle → s.pc.toNat < s.params.memSize →
    opcodeField (s.mem.read s.pc.toNat) = 0 →
    step s = .next { s with pc := s.pc + 1, fault := some (.unknownOpcode 0), phase := .host }

/-- R181 to R191 (D9, D11, log entries 11 and 13): a Word with opcode 0x6 to 0xF faults in the same
way. -/
def Obligations.DeclaredOpcodesFaultPastTheirWord : Prop :=
  ∀ s : State, s.atCycle → s.pc.toNat < s.params.memSize →
    6 ≤ (opcodeField (s.mem.read s.pc.toNat)).toNat →
    step s = .next { s with
      pc := s.pc + 1,
      fault := some (.unknownOpcode (opcodeField (s.mem.read s.pc.toNat))),
      phase := .host }

/-! ## SET -/

/-- R126, R128 to R140, R160: SET into a register, from every operand form. Holds for every order the
source allows (R143). -/
def Obligations.SetReadsEverySource : Prop :=
  ∀ (s : State) (r q : Reg) (v : Word),
    exec (.set (.reg r) (.reg q)) s = .next (s.setReg r (s.reg q)) ∧
    ((s.reg q).toNat < s.params.memSize →
      exec (.set (.reg r) (.regInd q)) s = .next (s.setReg r (s.mem.read (s.reg q).toNat))) ∧
    (s.pc.toNat < s.params.memSize → (s.reg q + wordA s).toNat < s.params.memSize →
      exec (.set (.reg r) (.regNext q)) s =
        .next ((s.setPc (s.pc + 1)).setReg r (s.mem.read (s.reg q + wordA s).toNat))) ∧
    (s.sp.toNat < s.params.memSize →
      exec (.set (.reg r) .stack) s =
        .next ((s.setSp (s.sp + 1)).setReg r (s.mem.read s.sp.toNat))) ∧
    (s.sp.toNat < s.params.memSize →
      exec (.set (.reg r) .peek) s = .next (s.setReg r (s.mem.read s.sp.toNat))) ∧
    (s.pc.toNat < s.params.memSize → (s.sp + wordA s).toNat < s.params.memSize →
      exec (.set (.reg r) .spNext) s =
        .next ((s.setPc (s.pc + 1)).setReg r (s.mem.read (s.sp + wordA s).toNat))) ∧
    exec (.set (.reg r) .sp) s = .next (s.setReg r s.sp) ∧
    exec (.set (.reg r) .pc) s = .next (s.setReg r s.pc) ∧
    exec (.set (.reg r) .ex) s = .next (s.setReg r s.ex) ∧
    (s.pc.toNat < s.params.memSize → (wordA s).toNat < s.params.memSize →
      exec (.set (.reg r) .nextInd) s =
        .next ((s.setPc (s.pc + 1)).setReg r (s.mem.read (wordA s).toNat))) ∧
    (s.pc.toNat < s.params.memSize →
      exec (.set (.reg r) .nextLit) s = .next ((s.setPc (s.pc + 1)).setReg r (wordA s))) ∧
    (v.toNat < 32 → exec (.set (.reg r) (.lit v)) s = .next (s.setReg r v))

/-- R127, R128 to R140, R160: SET from a register, into every operand form that can be written.
`State.stored` is the store and the activation of the cell's observer (R43). -/
def Obligations.SetWritesEveryDestination : Prop :=
  ∀ (s : State) (r q : Reg),
    exec (.set (.reg r) (.reg q)) s = .next (s.setReg r (s.reg q)) ∧
    ((s.reg r).toNat < s.params.memSize →
      exec (.set (.regInd r) (.reg q)) s = .next (s.stored (s.reg r).toNat (s.reg q))) ∧
    (s.pc.toNat < s.params.memSize → (s.reg r + wordA s).toNat < s.params.memSize →
      exec (.set (.regNext r) (.reg q)) s =
        .next ((s.setPc (s.pc + 1)).stored (s.reg r + wordA s).toNat (s.reg q))) ∧
    ((s.sp - 1).toNat < s.params.memSize →
      exec (.set .stack (.reg q)) s =
        .next ((s.setSp (s.sp - 1)).stored (s.sp - 1).toNat (s.reg q))) ∧
    (s.sp.toNat < s.params.memSize →
      exec (.set .peek (.reg q)) s = .next (s.stored s.sp.toNat (s.reg q))) ∧
    (s.pc.toNat < s.params.memSize → (s.sp + wordA s).toNat < s.params.memSize →
      exec (.set .spNext (.reg q)) s =
        .next ((s.setPc (s.pc + 1)).stored (s.sp + wordA s).toNat (s.reg q))) ∧
    exec (.set .sp (.reg q)) s = .next (s.setSp (s.reg q)) ∧
    exec (.set .pc (.reg q)) s = .next (s.setPc (s.reg q)) ∧
    exec (.set .ex (.reg q)) s = .next (s.setEx (s.reg q)) ∧
    (s.pc.toNat < s.params.memSize → (wordA s).toNat < s.params.memSize →
      exec (.set .nextInd (.reg q)) s =
        .next ((s.setPc (s.pc + 1)).stored (wordA s).toNat (s.reg q)))

/-- R125 to R127, R141, R160 (spec's decision D7, log entry 9, for PEEK or [SP+n] with POP): SET completes
for every operand b and every operand a that can be written, with exactly this effect, where every Word
it takes, reads and stores to is inside memory (with all 65536 Words, everywhere). -/
def Obligations.SetCompletesWithItsEffect : Prop :=
  ∀ (a b : Operand) (s : State), setInside a b s → s.specOrder → a.isLiteral = false →
    exec (.set a b) s = .next (setEffect a b s)

/-- R126, R131, R139, R211, R217: the first extra Word or source outside memory latches AddressingFault
with its address, whatever the destination: a's extra Word, b's, SET's source, and for ADD, SUB, MUL and
MLI first a and then b (D8, log entry 10; for b also D7, log entry 9). Nothing is written; a faulting
extra-Word fetch leaves PC and a faulting pop leaves SP, and what was done before it stays done. -/
def Obligations.SourceOutsideMemoryLatches : Prop :=
  ∀ (a b : Operand) (s : State) (i : Instr) (x : Word),
    (i ∈ [Instr.set a b, .add a b, .sub a b, .mul a b, .mli a b] →
      (a.needsWord = true → s.params.memSize ≤ s.pc.toNat →
        exec i s = .next (s.latch (.addressing s.pc.toNat))) ∧
      ((a.needsWord = true → s.pc.toNat < s.params.memSize) → b.needsWord = true →
        s.params.memSize ≤ (s.pc + extra a).toNat →
        exec i s = .next ((s.setPc (s.pc + extra a)).latch (.addressing (s.pc + extra a).toNat)))) ∧
    (wordsInside a b s → readAddr b (wordB a s) s.sp s = some x → s.params.memSize ≤ x.toNat →
      exec (.set a b) s = .next ((s.setPc (pcAfter a b s)).latch (.addressing x.toNat))) ∧
    (i ∈ [Instr.add a b, .sub a b, .mul a b, .mli a b] → s.specOrder → wordsInside a b s →
      s.params.memSize ≤ x.toNat →
      (readAddr a (wordA s) s.sp s = some x →
        exec i s = .next ((s.setPc (pcAfter a b s)).latch (.addressing x.toNat))) ∧
      (s.inside (readAddr a (wordA s) s.sp s) = true →
        readAddr b (wordB a s) (spAfterRead a s.sp) s = some x →
        exec i s = .next (((s.setPc (pcAfter a b s)).setSp (spAfterRead a s.sp)).latch
          (.addressing x.toNat))))

/-- R123, R127, R132, R211 (D7, log entry 9, for PEEK or [SP+n] with POP): SET with a destination outside
memory, in any of the six memory forms, latches AddressingFault with its address after the reads, and
stores nothing; a faulting push leaves SP decremented; if a's own extra Word is outside memory, that
fetch faults with PC not advanced. (A memory destination of ADD, SUB, MUL or MLI is read first:
SourceOutsideMemoryLatches.) -/
def Obligations.DestinationOutsideMemoryLatches : Prop :=
  ∀ (a b : Operand) (s : State) (x : Word),
    (a.needsWord = true → s.params.memSize ≤ s.pc.toNat →
      exec (.set a b) s = .next (s.latch (.addressing s.pc.toNat))) ∧
    (s.specOrder → setReadsInside a b s →
      writeAddr a (wordA s) (spAfterRead b s.sp) s = some x → s.params.memSize ≤ x.toNat →
      exec (.set a b) s = .next (((s.setPc (pcAfter a b s)).setSp
        (spAfterWrite a (spAfterRead b s.sp))).latch (.addressing x.toNat)))

/-- R127, R139, R140, R213: where every Word it takes and reads is inside memory, each of the five
implemented instructions with a literal destination raises IllegalWrite with a's operand code (D15, log
entry 17), after its extra Words were consumed, once (D6, log entry 8), and a pop of b has moved SP (D10,
log entry 12), and leaves EX (D8, log entry 10), the other registers and memory as they were. -/
def Obligations.LiteralDestinationLatchesIllegalWrite : Prop :=
  ∀ (a b : Operand) (s : State) (i : Instr), setReadsInside a b s → s.specOrder →
    a.isLiteral = true → i ∈ [Instr.set a b, .add a b, .sub a b, .mul a b, .mli a b] →
    exec i s = .next (((s.setPc (pcAfter a b s)).setSp (spAfterRead b s.sp)).latch
      (.illegalWrite (encodeOperand a)))

/-! ## ADD, SUB, MUL, MLI -/

/-- R165, R166 (order: D6, D7, D8, log entries 8 to 10): ADD completes for every operand pair with a
writable a whose accesses are inside memory (all are, with 65536 Words): a takes the sum mod 65536, then
EX takes 1 if the sum is above 0xFFFF, else 0. -/
def Obligations.AddCompletesWithSumAndCarry : Prop :=
  ∀ (a b : Operand) (s : State), computeInside a b s → s.specOrder → a.isLiteral = false →
    exec (.add a b) s = .next (computeEffect a b (sourceA a b s + sourceB a b s)
      (if (sourceA a b s).toNat + (sourceB a b s).toNat > 0xFFFF then 1 else 0) s)

/-- R165, R167 (order: D6, D7, D8, log entries 8 to 10): SUB completes for every operand pair with a
writable a whose accesses are inside memory (all are, with 65536 Words): a takes the difference mod
65536, then EX takes 0xFFFF if a < b unsigned, else 0. -/
def Obligations.SubCompletesWithDifferenceAndBorrow : Prop :=
  ∀ (a b : Operand) (s : State), computeInside a b s → s.specOrder → a.isLiteral = false →
    exec (.sub a b) s = .next (computeEffect a b (sourceA a b s - sourceB a b s)
      (if (sourceA a b s).toNat < (sourceB a b s).toNat then 0xFFFF else 0) s)

/-- R165, R168 (order: D6, D7, D8, log entries 8 to 10): MUL completes for every operand pair with a
writable a whose accesses are inside memory (all are, with 65536 Words): a takes the low Word of the
unsigned product, then EX its high Word. -/
def Obligations.MulCompletesWithUnsignedProduct : Prop :=
  ∀ (a b : Operand) (s : State), computeInside a b s → s.specOrder → a.isLiteral = false →
    exec (.mul a b) s = .next (computeEffect a b (sourceA a b s * sourceB a b s)
      (((sourceA a b s).setWidth 32 * (sourceB a b s).setWidth 32).extractLsb' 16 16) s)

/-- R165, R169, R170 (c) (order: D6, D7, D8, log entries 8 to 10): MLI completes for every operand pair
with a writable a whose accesses are inside memory (all are, with 65536 Words): a takes the low Word of
the signed product, which is MUL's, then EX the high Word of the 32-bit product of the sign-extended
operands. -/
def Obligations.MliCompletesWithSignedProduct : Prop :=
  ∀ (a b : Operand) (s : State), computeInside a b s → s.specOrder → a.isLiteral = false →
    exec (.mli a b) s = .next (computeEffect a b (sourceA a b s * sourceB a b s)
      (((sourceA a b s).signExtend 32 * (sourceB a b s).signExtend 32).extractLsb' 16 16) s)

/-- R141 step 8, R221 (order: D6, D7, D8, log entries 8 to 10; waiting: log entry 28): if ADD, SUB, MUL or
MLI stores its result to a watched cell, by whichever memory form, the observer is called with it while
EX still holds the old Word; once nothing is open above it, the waiting update gives EX its Word. -/
def Obligations.ExIsUpdatedAfterTheObserver : Prop :=
  (∀ (a b : Operand) (s : State) (h : Handler) (x : Word) (i : Instr) (r : Word × Word),
    computeInside a b s → s.specOrder →
    writeAddr a (wordA s) (afterReads a b s).sp s = some x → lookupCell x.toNat s.watch = some h →
    (i, r) ∈ [(Instr.add a b, addPair (sourceA a b s) (sourceB a b s)),
      (.sub a b, subPair (sourceA a b s) (sourceB a b s)),
      (.mul a b, mulPair (sourceA a b s) (sourceB a b s)),
      (.mli a b, mliPair (sourceA a b s) (sourceB a b s))] →
    ∃ t, exec i s = .next t ∧ t.ex = s.ex ∧ t.mem.read x.toNat = r.1 ∧
      t.agents = .observe h x.toNat r.1 :: .exUpdate r.2 :: s.agents) ∧
  (∀ (s : State) (v : Word) (rest : List Frame), s.agents = .exUpdate v :: rest →
    step s = .next { s with ex := v, agents := rest })

/-- R166 to R169: result and EX together hold the exact result: sum and carry, difference and borrow
(EX = 0xFFFF is -1), unsigned product, signed product. -/
def Obligations.ResultAndExHoldTheExactResult : Prop :=
  ∀ va vb : Word,
    va.toNat + vb.toNat = 0x10000 * (addPair va vb).2.toNat + (addPair va vb).1.toNat ∧
    (va.toNat : Int) - vb.toNat = 0x10000 * (subPair va vb).2.toInt + (subPair va vb).1.toNat ∧
    va.toNat * vb.toNat = 0x10000 * (mulPair va vb).2.toNat + (mulPair va vb).1.toNat ∧
    va.toInt * vb.toInt = 0x10000 * (mliPair va vb).2.toInt + (mliPair va vb).1.toNat

/-- R171: the values ADD, SUB, MUL and MLI put in EX. -/
def Obligations.ExTakesOnlyTheListedValues : Prop :=
  ∀ va vb : Word,
    ((addPair va vb).2 = 0 ∨ (addPair va vb).2 = 1) ∧
    ((subPair va vb).2 = 0 ∨ (subPair va vb).2 = 0xFFFF) ∧
    (mulPair va vb).2.toNat ≤ 0xFFFE ∧
    ((mliPair va vb).2.toNat ≤ 0x4000 ∨ 0xC000 ≤ (mliPair va vb).2.toNat)

/-- R142: `SUB PC, EX` goes on at the next Word when EX = 0 and skips one Word when EX = 0xFFFF, and EX
is 0xFFFF again whenever the next address is below 0xFFFF (R167 (d)). Holds under every order. -/
def Obligations.SubPcExSkipsOnBorrow : Prop :=
  ∀ s : State,
    (s.ex = 0 → exec (.sub .pc .ex) s = .next s) ∧
    (s.ex = 0xFFFF → exec (.sub .pc .ex) s =
      .next ((s.setPc (s.pc + 1)).setEx (if s.pc = 0xFFFF then 0 else 0xFFFF)))

/-! ## Frames -/

/-- R25, R36, R37: what SET, ADD, SUB, MUL and MLI leave unchanged, for every operand form, memory size
and order: every general register but the destination, SP unless it is the destination or a stack
operand, EX unless SET names it or the instruction computes, IA, observers, bus, devices, parameters. -/
def Obligations.ImplementedInstructionsRegisterFrame : Prop :=
  ∀ (a b : Operand) (i : Instr) (s t : State),
    i ∈ [Instr.set a b, .add a b, .sub a b, .mul a b, .mli a b] → exec i s = .next t →
    (∀ r, a ≠ .reg r → t.reg r = s.reg r) ∧
    (a ≠ .sp → a ≠ .stack → b ≠ .stack → t.sp = s.sp) ∧
    (i = .set a b → a ≠ .ex → t.ex = s.ex) ∧
    s.sameSystem t ∧ t.devices = s.devices ∧ t.draws = s.draws ∧
    (s.fault = none → t.fault = none →
      t.phase = s.phase ∧ ∃ opened, t.agents = opened ++ s.agents)

/-- R43, R60, R127: SET leaves every cell unchanged but the one its write access stores to. -/
def Obligations.SetMemoryFrame : Prop :=
  ∀ (a b : Operand) (dA dB : Desc) (v : Word) (s s1 s2 s3 t : State),
    resolve a s = .ok dA s1 → resolve b s1 = .ok dB s2 → readDesc dB s2 = .ok v s3 →
    exec (.set a b) s = .next t →
    ∀ x, storeAddr dA s3 ≠ some x → t.mem.read x = s.mem.read x

/-- R43, R60, R127: ADD, SUB, MUL and MLI leave every cell unchanged but the one their write access
stores to. -/
def Obligations.ComputeMemoryFrame : Prop :=
  ∀ (a b : Operand) (i : Instr) (dA dB d : Desc) (v : Word × Word) (s s1 s2 s3 s4 t : State),
    i ∈ [Instr.add a b, .sub a b, .mul a b, .mli a b] →
    resolve a s = .ok dA s1 → resolve b s1 = .ok dB s2 → readPair dA dB s2 = .ok v s3 →
    target a dA s3 = .ok d s4 → exec i s = .next t →
    ∀ x, storeAddr d s4 ≠ some x → t.mem.read x = s.mem.read x

/-- R60, R141, R216: the write of an instruction is its last memory access, so an instruction that
latches a fault has stored nothing. -/
def Obligations.FaultingInstructionStoresNothing : Prop :=
  ∀ (i : Instr) (s t : State), s.fault = none → exec i s = .next t → t.fault ≠ none → t.mem = s.mem

/-- R210 to R213, R217: the fault an instruction can latch (with the spec's info value: D15, log entry 17):
UnknownOpcode exactly when it has no semantics (D9, D11, log entries 11 and 13); IllegalWrite only for a
literal destination, with its operand code; AddressingFault only with an address outside memory. A fault
closes every activation and gives the host the turn (R215; log entry 14). -/
def Obligations.FaultsAnInstructionCanLatch : Prop :=
  ∀ (i : Instr) (s t : State), s.fault = none → exec i s = .next t →
    (∀ n, t.fault = some (.unknownOpcode n) ↔ i.implemented = false ∧ n = opcodeValue i) ∧
    (∀ c, t.fault = some (.illegalWrite c) →
      i.operandA.isLiteral = true ∧ c = encodeOperand i.operandA) ∧
    (∀ x, t.fault = some (.addressing x) → s.params.memSize ≤ x) ∧
    (t.fault ≠ none → t.agents = [] ∧ t.phase = .host)

/-- R37, R127: a completed write access gives its destination the value and changes no other register and
no other cell, except that a push also moves SP, by -1. -/
def Obligations.WriteAccessChangesOneThing : Prop :=
  ∀ (d : Desc) (v : Word) (s t : State), writeDesc d v s = .ok () t →
    (∀ r, if d = .reg r then t.reg r = v else t.reg r = s.reg r) ∧
    (if d = .sp then t.sp = v else if d = .stack then t.sp = s.sp - 1 else t.sp = s.sp) ∧
    (if d = .pc then t.pc = v else t.pc = s.pc) ∧
    (if d = .ex then t.ex = v else t.ex = s.ex) ∧
    t.ia = s.ia ∧
    (∀ x, if storeAddr d s = some x then t.mem.read x = v else t.mem.read x = s.mem.read x)

/-- R61, R131, R132: a push and then a pop give the pushed Word back and leave SP where it was, with SP
wrapping at both ends of the address space. -/
def Obligations.PopUndoesPush : Prop :=
  ∀ (s : State) (r q : Reg), s.fullMemory →
    ∃ t u, exec (.set .stack (.reg r)) s = .next t ∧ exec (.set (.reg q) .stack) t = .next u ∧
      u.reg q = s.reg r ∧ u.sp = s.sp ∧ u.mem.read (s.sp - 1).toNat = s.reg r

/-! ## Memory and observers -/

/-- R42: `MemRead(addr)`. -/
def Obligations.MemReadIsBoundsCheckedAndPure : Prop :=
  ∀ (s : State) (x : Nat),
    (s.params.memSize ≤ x → memRead x s = .raised (.addressing x) s) ∧
    (x < s.params.memSize → memRead x s = .ok (s.mem.read x) s)

/-- R43: `MemWrite(addr, v)`: out of range it stores nothing and notifies nobody; in range it stores the
low 16 bits, changes nothing else, and the observer of the address, if there is one, is called next,
once, with the stored value. A write of the host in range is this write (R268). -/
def Obligations.MemWriteStoresThenNotifies : Prop :=
  ∀ (s : State) (x v : Nat),
    (s.params.memSize ≤ x →
      memWrite x (BitVec.ofNat 16 v) s = .raised (.addressing x) s) ∧
    (x < s.params.memSize → ∃ m,
      let t := { s with
        mem := m,
        agents := (match lookupCell x s.watch with
          | some h => [Frame.observe h x (BitVec.ofNat 16 v)]
          | none => []) ++ s.agents }
      memWrite x (BitVec.ofNat 16 v) s = .ok () t ∧
      (s.agents = [] → s.phase = .host → hostStep (.write x v) s = .next t) ∧
      (m.read x).toNat = v % 0x10000 ∧ ∀ y, y ≠ x → m.read y = s.mem.read y)

/-- R41: the bounds: the address `MEM_SIZE` fails and `MEM_SIZE` - 1 succeeds, for reads and writes; with
all 65536 Words no address the CPU computes is out of range. An access of the host out of range latches
the fault as any other does (R33; log entry 36). -/
def Obligations.BoundsOfMemory : Prop :=
  (∀ (s : State) (v : Word), s.params.legal →
    memRead s.params.memSize s = .raised (.addressing s.params.memSize) s ∧
    memWrite s.params.memSize v s = .raised (.addressing s.params.memSize) s ∧
    (∃ w, memRead (s.params.memSize - 1) s = .ok w s) ∧
    ∃ t, memWrite (s.params.memSize - 1) v s = .ok () t) ∧
  (∀ (s : State) (x v : Word), s.fullMemory →
    (∃ w, memRead x.toNat s = .ok w s) ∧ ∃ t, memWrite x.toNat v s = .ok () t) ∧
  (∀ (s : State) (x v : Nat), s.agents = [] → s.phase = .host → s.params.memSize ≤ x →
    hostStep (.write x v) s = .next (s.latch (.addressing x)) ∧
    hostStep (.read x) s = .next (s.latch (.addressing x))) ∧
  (∀ (s : State) (x : Nat), s.agents = [] → s.phase = .host → x < s.params.memSize →
    hostStep (.read x) s = .next s)

/-- R45: `watch(addr, callback)` registers or replaces the single observer of the address, whatever
`MEM_SIZE`, and changes nothing else; no host operation and no step removes an observer; an observer
outside memory is never called by a write. -/
def Obligations.WatchReplacesAndNothingRemoves : Prop :=
  (∀ (s : State) (x : Nat) (h : Handler), s.agents = [] → s.phase = .host →
    h.dev < s.devices.length → ∃ w, hostStep (.watch x h) s = .next (s.setWatch w) ∧
      lookupCell x w = some h ∧ ∀ y, y ≠ x → lookupCell y w = lookupCell y s.watch) ∧
  (∀ (s t : State) (op : HostOp) (x : Nat), hostStep op s = .next t →
    (lookupCell x s.watch).isSome → (lookupCell x t.watch).isSome) ∧
  (∀ (s t : State) (x : Nat), step s = .next t → lookupCell x t.watch = lookupCell x s.watch) ∧
  (∀ (s : State) (x : Nat) (v : Word), s.params.memSize ≤ x →
    memWrite x v s = .raised (.addressing x) s)

/-- R43, R46, R230, R232, R268 (activations: log entry 28): a device is told of a write by an observer, of
its update (not a Display, which renders) with a free input (D22, log entry 24), and by the host of an
event. Its state changes, and what it does is due next: a read tells it the Word (R42), a write is a
`MemWrite` of the low 16 bits (R43), an interrupt is the entry with the low 16 bits of the message (R222;
D16, log entry 18); the rest of what it does waits beneath, and after the last action what it interrupted
goes on. A read or a write outside memory latches AddressingFault (R211). -/
def Obligations.ObserverIsItsDeviceToldOfTheWrite : Prop :=
  (∀ (s : State) (h : Handler) (x : Nat) (v : Word) (rest : List Frame) (d : Device),
    s.agents = .observe h x v :: rest → s.devices[h.dev]? = some d →
    step s = .next { s with
      devices := s.devices.set h.dev (react d (.written h.port x v)).1,
      agents := .acts h.dev (react d (.written h.port x v)).2 :: rest }) ∧
  (∀ (s : State) (dev : Nat) (rest : List Frame) (d : Device),
    s.agents = .update dev :: rest → s.devices[dev]? = some d → (∀ x, d ≠ .display x) →
    step s = .next { s with
      draws := s.draws + 1,
      devices := s.devices.set dev (react d (.update (Config.deviceInput s.draws))).1,
      agents := .acts dev (react d (.update (Config.deviceInput s.draws))).2 :: rest }) ∧
  (∀ (s : State) (dev : Nat) (e : DevEvent) (d : Device), s.agents = [] → s.phase = .host →
    s.devices[dev]? = some d →
    hostStep (.event dev e) s = .next { s with
      devices := s.devices.set dev (react d (.event e)).1,
      agents := [.acts dev (react d (.event e)).2] }) ∧
  (∀ (s : State) (dev x : Nat) (todo : List DevAction) (rest : List Frame),
    s.agents = .acts dev (.read x :: todo) :: rest →
    (s.params.memSize ≤ x → step s = .next (s.latch (.addressing x))) ∧
    ∀ d, x < s.params.memSize → s.devices[dev]? = some d →
      step s = .next { s with
        devices := s.devices.set dev (react d (.data x (s.mem.read x))).1,
        agents := .acts dev ((react d (.data x (s.mem.read x))).2 ++ todo) :: rest }) ∧
  (∀ (s : State) (dev x v : Nat) (todo : List DevAction) (rest : List Frame),
    s.agents = .acts dev (.write x v :: todo) :: rest →
    (s.params.memSize ≤ x → step s = .next (s.latch (.addressing x))) ∧
    (x < s.params.memSize →
      step s = .next ((s.setAgents (.acts dev todo :: rest)).stored x (BitVec.ofNat 16 v)))) ∧
  (∀ (s : State) (dev msg : Nat) (todo : List DevAction) (rest : List Frame),
    s.agents = .acts dev (.interrupt msg :: todo) :: rest →
    step s = conclude (interrupt (BitVec.ofNat 16 msg) (s.setAgents (.acts dev todo :: rest)))) ∧
  (∀ (s : State) (dev : Nat) (rest : List Frame),
    s.agents = .acts dev [] :: rest → step s = .next (s.setAgents rest))

/-! ## Interrupts -/

/-- R223: with IA = 0 `interrupt(msg)` does nothing at all. -/
def Obligations.InterruptDisabledDoesNothing : Prop :=
  ∀ (s : State) (msg : Word), s.ia = 0 → interrupt msg s = .ok () s

/-- R222: interrupt entry with no observer on the two stack Words: PC and A are pushed in this order, PC
takes IA, A takes the message, SP is 2 lower; B to J, EX, IA, every other cell and everything else keep
their values. An interrupt the host injects is this entry, with the low 16 bits of the message (R232,
D21; log entries 18 and 37). -/
def Obligations.InterruptEntryPushesPcThenA : Prop :=
  (∀ (s : State) (msg : Word), s.ia ≠ 0 →
    (s.sp - 1).toNat < s.params.memSize → (s.sp - 2).toNat < s.params.memSize →
    lookupCell (s.sp - 1).toNat s.watch = none → lookupCell (s.sp - 2).toNat s.watch = none →
    ∃ m, interrupt msg s = .ok () ({ s with
        regs := s.regs.set .a msg, pc := s.ia, sp := s.sp - 2, mem := m } : State) ∧
      m.read (s.sp - 1).toNat = s.pc ∧ m.read (s.sp - 2).toNat = s.reg .a ∧
      ∀ x, x ≠ (s.sp - 1).toNat → x ≠ (s.sp - 2).toNat → m.read x = s.mem.read x) ∧
  (∀ (s : State) (msg : Nat), s.agents = [] → s.phase = .host →
    hostStep (.interrupt msg) s = conclude (interrupt (BitVec.ofNat 16 msg) s))

/-- R222, R226 (D17, log entry 19; waiting: log entry 28): if the push of PC calls an observer, it runs
before the entry goes on: the push of A waits beneath it, and PC and A are not yet changed; if the push
of A does, the jump waits. When its turn comes, a waiting push of A pushes A and jumps, or jumps after
the observer it called, or faults; a waiting jump sets PC to IA and A to the message. -/
def Obligations.InterruptEntryWaitsForAnObserver : Prop :=
  (∀ (s : State) (msg : Word) (h : Handler), s.ia ≠ 0 → (s.sp - 1).toNat < s.params.memSize →
    (lookupCell (s.sp - 1).toNat s.watch = some h →
      ∃ t, interrupt msg s = .ok () t ∧ t.pc = s.pc ∧ t.regs = s.regs ∧ t.sp = s.sp - 1 ∧
        t.mem.read (s.sp - 1).toNat = s.pc ∧
        t.agents = .observe h (s.sp - 1).toNat s.pc :: .pushA msg :: s.agents) ∧
    (lookupCell (s.sp - 1).toNat s.watch = none → (s.sp - 2).toNat < s.params.memSize →
      lookupCell (s.sp - 2).toNat s.watch = some h →
      ∃ t, interrupt msg s = .ok () t ∧ t.pc = s.pc ∧ t.regs = s.regs ∧ t.sp = s.sp - 2 ∧
        t.mem.read (s.sp - 1).toNat = s.pc ∧ t.mem.read (s.sp - 2).toNat = s.reg .a ∧
        t.agents = .observe h (s.sp - 2).toNat (s.reg .a) :: .jump msg :: s.agents)) ∧
  (∀ (s : State) (msg : Word) (rest : List Frame), s.agents = .pushA msg :: rest →
    (s.params.memSize ≤ (s.sp - 1).toNat →
      step s = .next ((s.setSp (s.sp - 1)).latch (.addressing (s.sp - 1).toNat))) ∧
    ((s.sp - 1).toNat < s.params.memSize → ∃ m : Memory,
      m.read (s.sp - 1).toNat = s.reg .a ∧
      (∀ x, x ≠ (s.sp - 1).toNat → m.read x = s.mem.read x) ∧
      (lookupCell (s.sp - 1).toNat s.watch = none → step s = .next { s with
        regs := s.regs.set .a msg, pc := s.ia, sp := s.sp - 1, mem := m, agents := rest }) ∧
      ∀ h, lookupCell (s.sp - 1).toNat s.watch = some h → step s = .next { s with
        sp := s.sp - 1, mem := m,
        agents := .observe h (s.sp - 1).toNat (s.reg .a) :: .jump msg :: rest })) ∧
  (∀ (s : State) (msg : Word) (rest : List Frame), s.agents = .jump msg :: rest →
    step s = .next { s with regs := s.regs.set .a msg, pc := s.ia, agents := rest })

/-- R245: a push of interrupt entry outside memory raises AddressingFault with SP decremented and PC and
A unchanged; when the second push faults the stack holds the PC Word. -/
def Obligations.InterruptEntryFaults : Prop :=
  ∀ (s : State) (msg : Word), s.ia ≠ 0 →
    (s.params.memSize ≤ (s.sp - 1).toNat →
      interrupt msg s = .raised (.addressing (s.sp - 1).toNat) (s.setSp (s.sp - 1))) ∧
    ((s.sp - 1).toNat < s.params.memSize → s.params.memSize ≤ (s.sp - 2).toNat →
      lookupCell (s.sp - 1).toNat s.watch = none →
      ∃ t, interrupt msg s = .raised (.addressing (s.sp - 2).toNat) t ∧ t.pc = s.pc ∧
        t.regs = s.regs ∧ t.sp = s.sp - 2 ∧ t.mem.read (s.sp - 1).toNat = s.pc)

/-- R225 (D18, log entry 20): `SET A, POP` and then `SET PC, POP`, run on the state interrupt entry
leaves, restore A, PC and SP and change no other register. -/
def Obligations.ReturnSequenceUndoesEntry : Prop :=
  ∀ (s t : State) (msg : Word), s.fullMemory → s.ia ≠ 0 →
    lookupCell (s.sp - 1).toNat s.watch = none → lookupCell (s.sp - 2).toNat s.watch = none →
    interrupt msg s = .ok () t →
    ∃ u v, exec (.set (.reg .a) .stack) t = .next u ∧ exec (.set .pc .stack) u = .next v ∧
      v.regs = s.regs ∧ v.pc = s.pc ∧ v.sp = s.sp ∧ v.ex = s.ex ∧ v.ia = s.ia

/-! ## The whole machine -/

/-- R6, R28, R30, R31, R33, R41: a step from a state in good order gives a state in good order: memory in
canonical form and inside its size, one observer per address, one device per id, which has that id,
references to existing devices, no run going on after a fault. -/
def Obligations.StepKeepsTheInvariant : Prop :=
  ∀ s t : State, s.Inv → step s = .next t → t.Inv

/-- R35: the machine after construction with the default parameters is in good order. -/
def Obligations.ResetIsInGoodOrder : Prop := State.reset.Inv

/-- R228, R260 to R268: a host operation on a state in good order leaves one. -/
def Obligations.HostOperationKeepsTheInvariant : Prop :=
  ∀ (s t : State) (op : HostOp), s.Inv → hostStep op s = .next t → t.Inv

/-- R26, R30, R31, R224 (that only the host writes IA is the spec's decision D5, log entry 7; that only the
host's `watch` and `registerDevice` change the observers and the bus: log entry 32): no step changes IA,
the observers, the bus or the parameters, so no program can enable, mask or redirect interrupts. Nor does
one change the hardware id of a device (R231). -/
def Obligations.NoStepChangesIaObserversOrBus : Prop :=
  ∀ s t : State, step s = .next t →
    s.sameSystem t ∧ t.devices.map Device.id = s.devices.map Device.id

/-- R26, R268 (D5, log entry 7): between runs the host writes any register and nothing else changes; it
writes IA so, or gives it its reset value (0 by D3, log entry 4) by `loadAssembly`; no other host
operation changes IA. -/
def Obligations.OnlyTheHostWritesIa : Prop :=
  (∀ (s t : State) (op : HostOp), hostStep op s = .next t →
    t.ia = s.ia ∨ (∃ v, op = .writeReg .ia v ∧ t = s.setIa (BitVec.ofNat 16 v)) ∨
      ∃ text, op = .loadAssembly text ∧ t.ia = s.params.reset.ia) ∧
  (∀ (s : State) (v : Nat), s.agents = [] → s.phase = .host →
    (∀ r, hostStep (.writeReg (.reg r) v) s = .next (s.setReg r (BitVec.ofNat 16 v))) ∧
    hostStep (.writeReg .pc v) s = .next { s with pc := BitVec.ofNat 16 v } ∧
    hostStep (.writeReg .sp v) s = .next { s with sp := BitVec.ofNat 16 v } ∧
    hostStep (.writeReg .ex v) s = .next { s with ex := BitVec.ofNat 16 v } ∧
    hostStep (.writeReg .ia v) s = .next { s with ia := BitVec.ofNat 16 v })

/-! ## Reset, loading, devices, assembler -/

/-- R35, R260 (D2, D3, D4, D21, log entries 2 to 5 and 23): the reset values; memory reads 0 everywhere. -/
def Obligations.ResetValues : Prop :=
  (∀ r, State.reset.reg r = 0) ∧ State.reset.pc = 0 ∧ State.reset.sp = 0xFFFF ∧
  State.reset.ex = 0 ∧ State.reset.ia = 0 ∧ (∀ x, State.reset.mem.read x = 0) ∧
  State.reset.watch = [] ∧ State.reset.bus = [] ∧ State.reset.fault = none ∧
  State.reset.params.memSize = 65536

/-- R44 (D13, log entry 15): `load` checks first; out of capacity it copies nothing; else it copies every
Word and nothing else changes, no observer is called. The host's `load` reduces its values to Words; one
that does not fit latches the fault (R33; log entry 36). -/
def Obligations.LoadCopiesAllOrNothing : Prop :=
  ∀ (s : State) (offset : Nat),
    (∀ ws : List Word,
      (s.params.memSize < offset + ws.length →
        load offset ws s = .raised (.addressing (offset + ws.length - 1)) s) ∧
      (offset + ws.length ≤ s.params.memSize →
        ∃ m, load offset ws s = .ok () (s.setMem m) ∧
          (∀ k w, ws[k]? = some w → m.read (offset + k) = w) ∧
          ∀ x, x < offset ∨ offset + ws.length ≤ x → m.read x = s.mem.read x)) ∧
    (∀ ns : List Nat, s.agents = [] → s.phase = .host →
      (s.params.memSize < offset + ns.length →
        hostStep (.load offset ns) s = .next (s.latch (.addressing (offset + ns.length - 1)))) ∧
      (offset + ns.length ≤ s.params.memSize →
        ∃ m, hostStep (.load offset ns) s = .next (s.setMem m) ∧
          ∀ k n, ns[k]? = some n → (m.read (offset + k)).toNat = n % 0x10000))

/-- R261 to R263 (D2, D3, D4, log entries 3, 4, 6): `loadAssembly` of a text that assembles to a program
that fits puts it at address 0 and resets the CPU, whatever fault was latched; with the spec's reset
values every register but SP is then 0; memory beyond the program, observers, bus and devices stay. A
program that does not fit latches AddressingFault (R33; log entry 36) and resets nothing. A text that
does not assemble changes nothing. -/
def Obligations.LoadAssemblyLoadsThenResets : Prop :=
  ∀ (s : State) (text : List Char), s.agents = [] → s.phase = .host →
    (∀ ws, assemble text = .ok ws → ws.length ≤ s.params.memSize →
      ∃ m t, hostStep (.loadAssembly text) s = .next t ∧
        t = { s with
          regs := s.params.reset.regs, pc := s.params.reset.pc, sp := s.params.reset.sp,
          ex := s.params.reset.ex, ia := s.params.reset.ia, fault := none, mem := m } ∧
        (s.params.reset = ResetRegs.spec s.params.reset.sp →
          (∀ r, t.reg r = 0) ∧ t.pc = 0 ∧ t.ex = 0 ∧ t.ia = 0) ∧
        (∀ k w, ws[k]? = some w → m.read k = w) ∧
        ∀ x, ws.length ≤ x → m.read x = s.mem.read x) ∧
    (∀ ws, assemble text = .ok ws → s.params.memSize < ws.length →
      hostStep (.loadAssembly text) s = .next (s.latch (.addressing (ws.length - 1)))) ∧
    (∀ e, assemble text = .error e →
      hostStep (.loadAssembly text) s = .refused (.assemblyFailed e))

/-- R268 (D23, log entry 25): the host has no move during a run. -/
def Obligations.HostHasNoMoveDuringARun : Prop :=
  ∀ (s : State) (op : HostOp), s.agents ≠ [] ∨ s.phase ≠ .host →
    hostStep op s = .refused .hostDuringRun

/-- R228, R229 (place of a replaced device: D20, log entry 22; that a device is a new object unless it is
registered again by its place: log entry 30): after `registerDevice` its id finds the device, every other
id finds what it found before, and the order of the ids is the old one, with a new id last. A device
registered again is found by its id and nothing but the bus changes. R238: a Display, a Keyboard and a Clock
have the ids of the rule. -/
def Obligations.RegisterDeviceReplacesById : Prop :=
  (∀ (x : Display) (k : Keyboard) (c : Clock), (Device.display x).id = 0x7349f615 ∧
    (Device.keyboard k).id = 0x30cf7406 ∧ (Device.clock c).id = 0x12d0b402) ∧
  ∀ (s : State) (d : Device), s.agents = [] → s.phase = .host →
    (∃ t, hostStep (.registerDevice d) s = .next t ∧
      getDevice d.id t = some s.devices.length ∧ t.devices = s.devices ++ [d] ∧
      (∀ k, k ≠ d.id → getDevice k t = getDevice k s) ∧
      t.bus.map Prod.fst =
        (if d.id ∈ s.bus.map Prod.fst then s.bus.map Prod.fst
         else s.bus.map Prod.fst ++ [d.id]) ∧
      t.regs = s.regs ∧ t.mem = s.mem ∧ t.watch = s.watch) ∧
    ∀ dev, s.devices[dev]? = some d →
      ∃ t, hostStep (.registerAgain dev) s = .next t ∧
        getDevice d.id t = some dev ∧ (∀ k, k ≠ d.id → getDevice k t = getDevice k s) ∧
        t.bus.map Prod.fst =
          (if d.id ∈ s.bus.map Prod.fst then s.bus.map Prod.fst
           else s.bus.map Prod.fst ++ [d.id]) ∧
        t = s.setBus t.bus

/-- R233, R234, R267, R59: each offset 0 to 3 of a Display is that of exactly one of its four registers. A
write to one of them gives that register the value and leaves the other three; the Display is then dirty
if and only if it was, or the register changed, or the write was inside the mapped window (that a write of
the same value elsewhere does not make it dirty is the model's choice, log entry 32); the Display does
nothing to the machine. Rendering: a clean Display does nothing; a dirty one renders every pixel and is
clean if the rendering clears the flag, or a read outside memory raises AddressingFault and it stays
dirty; one without a CPU/memory reference, if dirty, fills its buffer with opaque red. It changes no
register of the Display and nothing of the machine but the Display. Its update renders it and clears the
flag; `getDisplayPixels()` of the host renders the Display that the bus holds under its id (R238; log entry
38) and returns the buffer, or a blank one without a Display. (Order of the registers, geometry, formats,
addresses, and what the fallback does to a clean Display are free, log entry 32, and so is whether
`getDisplayPixels()` clears the flag, log entry 38.) -/
def Obligations.DisplayRegistersAndDirtyFlag : Prop :=
  (∀ k : Fin 4, ∃ r : DisplayReg, r.offset = k ∧ ∀ q : DisplayReg, q.offset = k → q = r) ∧
  (∀ (x : Display) (r q : DisplayReg) (addr : Nat) (v : Word),
    (∃ y, react (.display x) (.written (.register r.offset) addr v) = (.display y, []) ∧
      y.register r = v ∧ (q ≠ r → y.register q = x.register q) ∧ y.pixels = x.pixels ∧
      (y.dirty = true ↔ x.dirty = true ∨ x.register r ≠ v ∨ inScreen x addr = true)) ∧
    (∃ y, react (.display x) (.written .window addr v) = (.display y, []) ∧
      y.regs = x.regs ∧ y.pixels = x.pixels ∧
      (y.dirty = true ↔ x.dirty = true ∨ inScreen x addr = true))) ∧
  (∀ (s : State) (dev : Nat) (clears : Bool) (x : Display),
    let left : Display → State := fun y => { s with devices := s.devices.set dev (.display y) }
    (x.attached = true → x.dirty = false → render dev clears x s = .ok () s) ∧
    (x.attached = true → x.dirty = true →
      (∃ y : Display, y.regs = x.regs ∧ y.dirty = !clears ∧
        (∀ n (h : n < pixelCount), renderPixel x n s = .ok y.pixels[n] s) ∧
        render dev clears x s = .ok () (left y)) ∨
      (∃ (n a : Nat) (u : State), n < pixelCount ∧ s.params.memSize ≤ a ∧
        renderPixel x n s = .raised (.addressing a) s ∧
        render dev clears x s = .raised (.addressing a) u ∧
        (u = s ∨ ∃ y : Display, y.regs = x.regs ∧ y.dirty = true ∧ u = left y))) ∧
    (x.attached = false →
      (x.dirty = false ∧ render dev clears x s = .ok () s) ∨
      ∃ y : Display, y.regs = x.regs ∧ (x.dirty = false → y.dirty = false) ∧
        (∀ n (h : n < pixelCount), y.pixels[n] = ⟨0xFF, 0, 0, 0xFF⟩) ∧
        render dev clears x s = .ok () (left y))) ∧
  (∀ (s : State) (dev : Nat) (rest : List Frame) (x : Display),
    s.agents = .update dev :: rest → s.devices[dev]? = some (.display x) →
    step s = conclude (render dev true x { s with agents := rest, draws := s.draws + 1 })) ∧
  (∀ s : State, s.agents = [] → s.phase = .host →
    ((∀ dev x, getDevice 0x7349f615 s = some dev → s.devices[dev]? ≠ some (.display x)) →
      hostStep .getDisplayPixels s = .next s ∧ displayPixels s = Config.blankPixels) ∧
    ∀ (dev : Nat) (x : Display), getDevice 0x7349f615 s = some dev →
      s.devices[dev]? = some (.display x) →
      hostStep .getDisplayPixels s =
        conclude (render dev Config.onDemandClearsDirty x s) ∧
      ∀ t, render dev Config.onDemandClearsDirty x s = .ok () t →
        ∃ y, t.devices[dev]? = some (.display y) ∧ displayPixels t = y.pixels)

/-- R235, R230: a key that is recognised acts with its fixed code, any other does nothing. A new key-down
enters the held keys and, if it has room, its code the FIFO once; with no message configured it raises
nothing; a repeat raises no interrupt and leaves the held keys; a key-up releases exactly its key. The
Keyboard's update raises every deferred interrupt in order and forgets it (the codes, the FIFO's room,
whether keys of one code are one held key, and whether the interrupt is deferred are free. Three things are
the model's choice, log entry 33: that a key-down and a key-up do nothing else, so that they make no memory
access, which R59 would allow; that a deferred interrupt carries the message configured at the key-down;
and that the update does nothing else.) -/
def Obligations.KeyboardHeldKeysAndFifo : Prop :=
  (∀ (k : Keyboard) (key : Nat) (code : Word),
    (if h : (Config.keyCode key).isSome then
      react (.keyboard k) (.event (.keyDown key)) =
        (.keyboard (keyDown k key ((Config.keyCode key).get h)).1,
          (keyDown k key ((Config.keyCode key).get h)).2) ∧
      react (.keyboard k) (.event (.keyUp key)) =
        (.keyboard (keyUp k key ((Config.keyCode key).get h)), [])
    else
      react (.keyboard k) (.event (.keyDown key)) = (.keyboard k, []) ∧
      react (.keyboard k) (.event (.keyUp key)) = (.keyboard k, [])) ∧
    (heldKey key code ∉ k.held → ∃ y acts, keyDown k key code = (y, acts) ∧
      y.held = k.held ++ [heldKey key code] ∧
      (k.fifo.length ≤ Config.keyboardSpare → y.fifo = k.fifo ++ [code]) ∧
      (k.message = none → acts = [] ∧ y.pending = k.pending) ∧
      ∀ msg, k.message = some msg →
        (acts = [.interrupt msg.toNat] ∧ y.pending = k.pending) ∨
        (acts = [] ∧ y.pending = k.pending ++ [msg])) ∧
    (heldKey key code ∈ k.held → ∃ y, keyDown k key code = (y, []) ∧ y.held = k.held) ∧
    ((keyUp k key code).fifo = k.fifo ∧
      ∀ j, j ∈ (keyUp k key code).held ↔ j ∈ k.held ∧ j ≠ heldKey key code)) ∧
  (∀ (s : State) (dev : Nat) (rest : List Frame) (k : Keyboard),
    s.agents = .update dev :: rest → s.devices[dev]? = some (.keyboard k) →
    step s = .next { s with
      draws := s.draws + 1,
      devices := s.devices.set dev (.keyboard { k with pending := [] }),
      agents := .acts dev (k.pending.map fun m => .interrupt m.toNat) :: rest })

/-- R236, R230 (the tick count is a free input, D22, log entry 24; one interrupt each time the counter
passes a multiple of the period, none for a period of 0, and nothing else is the model's reading, log entry
34): at its update a Clock takes a fresh tick count and advances its counter by it; disabled, it raises
nothing; enabled, an interrupt with its message for each multiple of its period passed. -/
def Obligations.ClockTicksAndInterrupts : Prop :=
  ∀ (s : State) (dev : Nat) (rest : List Frame) (c : Clock),
    s.agents = .update dev :: rest → s.devices[dev]? = some (.clock c) →
    ∃ acts : List DevAction,
      step s = .next { s with
        draws := s.draws + 1,
        devices := s.devices.set dev
          (.clock { c with ticks := c.ticks + Config.deviceInput s.draws }),
        agents := .acts dev acts :: rest } ∧
      (c.enabled = false ∨ c.period = 0 → acts = []) ∧
      (c.enabled = true → c.period ≠ 0 →
        acts.length = ((List.range (Config.deviceInput s.draws)).filter fun k =>
          (c.ticks + k + 1) % c.period == 0).length) ∧
      ∀ act ∈ acts, act = .interrupt c.message.toNat

/-- R92 to R94 (C2, D26 (a), (f), log entry 27): pass 1 counts exactly the Words pass 2 emits: the output
of a text is as long as the sum of its lines' sizes, and the address pass 1 gives a label is the number of
Words pass 2 emits for the lines before it. -/
def Obligations.AssemblerSizesAgreeWithEmission : Prop :=
  (∀ (text : List Char) (ws : List Word), assemble text = .ok ws →
    ws.length = ((normalize text).map fun l => lineSize (parseLine l)).sum) ∧
  (∀ (before after : List Line) (name : List Char) (labels : List (List Char × Nat))
    (es : List Emitted), pass1 0 [] (before ++ .label name :: after) = .ok labels →
    pass2 before = .ok es → labels.lookup name = some es.length)

/-- R76, R93, R95: the Word an instruction line emits decodes to an instruction with the mnemonic's
opcode that takes exactly the extra Words the line emits. -/
def Obligations.AssembledInstructionTakesItsWords : Prop :=
  ∀ (m : List Char) (a b : Option (List Char)) (op : BitVec 4) (es : List Emitted),
    mnemonicCode m = .ok op → emitLine (.instr m a b) = .ok es →
    ∃ w rest, es = .word w :: rest ∧ opcodeValue (decode w) = op ∧
      (decode w).length = es.length
end

