-- ==== Sys2Proof/Laws/Memory.lean ====
section
/-! SUPPORT. The laws of cells by address and of memory: read after write, and the canonical form is
kept. -/

namespace Sys2Proof.Machine

section
variable {α : Type}

theorem lookup_insert_same (a : Nat) (v : α) (l : List (Nat × α)) :
    lookupCell a (insertCell a v l) = some v := by
  induction l with
  | nil => simp [insertCell, lookupCell]
  | cons e t ih =>
    obtain ⟨k, w⟩ := e
    simp only [insertCell]
    split
    · simp [lookupCell]
    · split
      · simp [lookupCell]
      · rename_i h1 h2
        simp [lookupCell, ih, show k ≠ a by omega]

theorem lookup_insert_ne (a x : Nat) (v : α) (l : List (Nat × α)) (h : x ≠ a) :
    lookupCell x (insertCell a v l) = lookupCell x l := by
  have h' : a ≠ x := fun e => h e.symm
  induction l with
  | nil => simp [insertCell, lookupCell, h']
  | cons e t ih =>
    obtain ⟨k, w⟩ := e
    simp only [insertCell]
    split
    · simp [lookupCell, h']
    · split
      · rename_i h1 h2
        subst h2
        simp [lookupCell, h']
      · simp [lookupCell, ih]

theorem lookup_erase_same (a : Nat) (l : List (Nat × α)) :
    lookupCell a (eraseCell a l) = none := by
  induction l with
  | nil => rfl
  | cons e t ih =>
    obtain ⟨k, w⟩ := e
    simp only [eraseCell]
    split
    · exact ih
    · rename_i h
      simp [lookupCell, h, ih]

theorem lookup_erase_ne (a x : Nat) (l : List (Nat × α)) (h : x ≠ a) :
    lookupCell x (eraseCell a l) = lookupCell x l := by
  induction l with
  | nil => rfl
  | cons e t ih =>
    obtain ⟨k, w⟩ := e
    simp only [eraseCell]
    split
    · rename_i hk
      subst hk
      simp [lookupCell, ih, show k ≠ x from fun e => h e.symm]
    · simp [lookupCell, ih]

theorem mem_insert {a : Nat} {v : α} {l : List (Nat × α)} {p : Nat × α}
    (h : p ∈ insertCell a v l) : p = (a, v) ∨ p ∈ l := by
  induction l with
  | nil => exact .inl (by simpa [insertCell] using h)
  | cons e t ih =>
    obtain ⟨k, w⟩ := e
    simp only [insertCell] at h
    split at h
    · exact List.mem_cons.1 h
    · split at h
      · rcases List.mem_cons.1 h with rfl | h
        · exact .inl rfl
        · exact .inr (List.mem_cons_of_mem _ h)
      · rcases List.mem_cons.1 h with rfl | h
        · exact .inr List.mem_cons_self
        · exact (ih h).imp id (List.mem_cons_of_mem _)

theorem mem_erase {a : Nat} {l : List (Nat × α)} {p : Nat × α} (h : p ∈ eraseCell a l) : p ∈ l := by
  induction l with
  | nil => simp [eraseCell] at h
  | cons e t ih =>
    obtain ⟨k, w⟩ := e
    simp only [eraseCell] at h
    split at h
    · exact List.mem_cons_of_mem _ (ih h)
    · rcases List.mem_cons.1 h with rfl | h
      · exact List.mem_cons_self
      · exact List.mem_cons_of_mem _ (ih h)

theorem insert_sorted (a : Nat) (v : α) {l : List (Nat × α)}
    (h : l.Pairwise (fun p q => p.1 < q.1)) :
    (insertCell a v l).Pairwise (fun p q => p.1 < q.1) := by
  induction l with
  | nil => simp [insertCell]
  | cons e t ih =>
    obtain ⟨k, w⟩ := e
    obtain ⟨hk, ht⟩ := List.pairwise_cons.1 h
    simp only [insertCell]
    split
    · rename_i hak
      refine List.pairwise_cons.2 ⟨fun p hp => ?_, h⟩
      rcases List.mem_cons.1 hp with rfl | hp
      · exact hak
      · exact Nat.lt_trans hak (hk p hp)
    · split
      · rename_i _ hak
        subst hak
        exact List.pairwise_cons.2 ⟨hk, ht⟩
      · refine List.pairwise_cons.2 ⟨fun p hp => ?_, ih ht⟩
        rcases mem_insert hp with rfl | hp
        · show k < a
          omega
        · exact hk p hp

theorem erase_sorted (a : Nat) {l : List (Nat × α)} (h : l.Pairwise (fun p q => p.1 < q.1)) :
    (eraseCell a l).Pairwise (fun p q => p.1 < q.1) := by
  induction l with
  | nil => simp [eraseCell]
  | cons e t ih =>
    obtain ⟨k, w⟩ := e
    obtain ⟨hk, ht⟩ := List.pairwise_cons.1 h
    simp only [eraseCell]
    split
    · exact ih ht
    · exact List.pairwise_cons.2 ⟨fun p hp => hk p (mem_erase hp), ih ht⟩

end

@[simp] theorem Memory.read_write_same (m : Memory) (a : Nat) (v : Word) :
    (m.write a v).read a = v := by
  unfold Memory.write Memory.read
  split
  · rename_i h
    simp [lookup_erase_same, h]
  · simp [lookup_insert_same]

theorem Memory.read_write_ne (m : Memory) (a x : Nat) (v : Word) (h : x ≠ a) :
    (m.write a v).read x = m.read x := by
  unfold Memory.write Memory.read
  split
  · rw [lookup_erase_ne _ _ _ h]
  · rw [lookup_insert_ne _ _ _ _ h]

theorem Memory.write_wf {m : Memory} (h : m.wf) (a : Nat) (v : Word) : (m.write a v).wf := by
  unfold Memory.write
  split
  · exact ⟨erase_sorted a h.1, fun p hp => h.2 p (mem_erase hp)⟩
  · rename_i hv
    refine ⟨insert_sorted a v h.1, fun p hp => ?_⟩
    rcases mem_insert hp with rfl | hp
    · exact hv
    · exact h.2 p hp

theorem Memory.write_inside {m : Memory} {n : Nat} (h : m.inside n) {a : Nat} (ha : a < n)
    (v : Word) : (m.write a v).inside n := by
  unfold Memory.write
  split
  · exact fun p hp => h p (mem_erase hp)
  · intro p hp
    rcases mem_insert hp with rfl | hp
    · exact ha
    · exact h p hp

theorem Memory.copy_wf (ws : List Word) {m : Memory} (h : m.wf) (a : Nat) : (m.copy a ws).wf := by
  induction ws generalizing m a with
  | nil => exact h
  | cons w ws ih => exact ih (Memory.write_wf h a w) (a + 1)

theorem Memory.copy_inside (ws : List Word) {m : Memory} {n a : Nat} (h : m.inside n)
    (ha : a + ws.length ≤ n) : (m.copy a ws).inside n := by
  induction ws generalizing m a with
  | nil => exact h
  | cons w ws ih =>
    simp only [List.length_cons] at ha
    exact ih (Memory.write_inside h (by omega) w) (by omega)

theorem mem_of_lookup {α : Type} {a : Nat} {v : α} {l : List (Nat × α)}
    (h : lookupCell a l = some v) : (a, v) ∈ l := by
  induction l with
  | nil => cases h
  | cons e t ih =>
    obtain ⟨k, x⟩ := e
    simp only [lookupCell] at h
    split at h
    · cases h
      subst_vars
      exact List.mem_cons_self
    · exact List.mem_cons_of_mem _ (ih h)

/-- R44: a cell outside the copied range keeps its Word. -/
theorem Memory.read_copy_outside (ws : List Word) (m : Memory) {a x : Nat}
    (h : x < a ∨ a + ws.length ≤ x) : (m.copy a ws).read x = m.read x := by
  induction ws generalizing m a with
  | nil => rfl
  | cons w ws ih =>
    simp only [List.length_cons] at h
    rw [Memory.copy, ih _ (by omega), Memory.read_write_ne _ _ _ _ (by omega)]

/-- R44: the cells of the range hold the copied Words. -/
theorem Memory.read_copy (ws : List Word) (m : Memory) (a : Nat) {k : Nat} {w : Word}
    (h : ws[k]? = some w) : (m.copy a ws).read (a + k) = w := by
  induction ws generalizing m a k with
  | nil => simp at h
  | cons v ws ih =>
    cases k with
    | zero =>
      rw [Memory.copy, Memory.read_copy_outside _ _ (by omega)]
      simpa using h
    | succ k =>
      rw [Memory.copy, show a + (k + 1) = a + 1 + k by omega]
      exact ih _ _ (by simpa using h)

theorem reset_mem_wf : State.reset.mem.wf := by decide

end Sys2Proof.Machine
end

