-- ==== Sys2Proof/Laws/State.lean ====
section
/-! SUPPORT. The small lemmas of the state's updates: one per field and update, so that no proof unfolds
a record update. The proofs are `(rfl)`, in parentheses, so that simp takes the lemmas as rewriting
rules and never as reductions, which it could not use in the side conditions of other lemmas. -/

namespace Sys2Proof.Machine

@[simp] theorem Regs.get_set_same (g : Regs) (r : Reg) (v : Word) : (g.set r v).get r = v := by
  cases r <;> rfl

theorem Regs.get_set_ne (g : Regs) (r q : Reg) (v : Word) (h : q ≠ r) :
    (g.set r v).get q = g.get q := by
  cases r <;> cases q <;> first | rfl | exact absurd rfl h

@[simp] theorem Regs.set_get (g : Regs) (r : Reg) : g.set r (g.get r) = g := by
  cases r <;> rfl

section
variable (s : State)

@[simp] theorem State.reg_setReg_same (r : Reg) (v : Word) : (s.setReg r v).reg r = v :=
  Regs.get_set_same _ _ _

theorem State.reg_setReg_ne (r q : Reg) (v : Word) (h : q ≠ r) :
    (s.setReg r v).reg q = s.reg q := Regs.get_set_ne _ _ _ _ h

@[simp] theorem State.setReg_pc (r : Reg) (v : Word) : (s.setReg r v).pc = s.pc := (rfl)
@[simp] theorem State.setReg_sp (r : Reg) (v : Word) : (s.setReg r v).sp = s.sp := (rfl)
@[simp] theorem State.setReg_ex (r : Reg) (v : Word) : (s.setReg r v).ex = s.ex := (rfl)
@[simp] theorem State.setReg_ia (r : Reg) (v : Word) : (s.setReg r v).ia = s.ia := (rfl)
@[simp] theorem State.setReg_mem (r : Reg) (v : Word) : (s.setReg r v).mem = s.mem := (rfl)
@[simp] theorem State.setReg_watch (r : Reg) (v : Word) : (s.setReg r v).watch = s.watch := (rfl)
@[simp] theorem State.setReg_devices (r : Reg) (v : Word) : (s.setReg r v).devices = s.devices := (rfl)
@[simp] theorem State.setReg_bus (r : Reg) (v : Word) : (s.setReg r v).bus = s.bus := (rfl)
@[simp] theorem State.setReg_fault (r : Reg) (v : Word) : (s.setReg r v).fault = s.fault := (rfl)
@[simp] theorem State.setReg_agents (r : Reg) (v : Word) : (s.setReg r v).agents = s.agents := (rfl)
@[simp] theorem State.setReg_phase (r : Reg) (v : Word) : (s.setReg r v).phase = s.phase := (rfl)
@[simp] theorem State.setReg_draws (r : Reg) (v : Word) : (s.setReg r v).draws = s.draws := (rfl)
@[simp] theorem State.setReg_params (r : Reg) (v : Word) : (s.setReg r v).params = s.params := (rfl)

@[simp] theorem State.reg_setPc (r : Reg) (v : Word) : (s.setPc v).reg r = s.reg r := (rfl)
@[simp] theorem State.setPc_regs (v : Word) : (s.setPc v).regs = s.regs := (rfl)
@[simp] theorem State.setPc_pc (v : Word) : (s.setPc v).pc = v := (rfl)
@[simp] theorem State.setPc_sp (v : Word) : (s.setPc v).sp = s.sp := (rfl)
@[simp] theorem State.setPc_ex (v : Word) : (s.setPc v).ex = s.ex := (rfl)
@[simp] theorem State.setPc_ia (v : Word) : (s.setPc v).ia = s.ia := (rfl)
@[simp] theorem State.setPc_mem (v : Word) : (s.setPc v).mem = s.mem := (rfl)
@[simp] theorem State.setPc_watch (v : Word) : (s.setPc v).watch = s.watch := (rfl)
@[simp] theorem State.setPc_devices (v : Word) : (s.setPc v).devices = s.devices := (rfl)
@[simp] theorem State.setPc_bus (v : Word) : (s.setPc v).bus = s.bus := (rfl)
@[simp] theorem State.setPc_fault (v : Word) : (s.setPc v).fault = s.fault := (rfl)
@[simp] theorem State.setPc_agents (v : Word) : (s.setPc v).agents = s.agents := (rfl)
@[simp] theorem State.setPc_phase (v : Word) : (s.setPc v).phase = s.phase := (rfl)
@[simp] theorem State.setPc_draws (v : Word) : (s.setPc v).draws = s.draws := (rfl)
@[simp] theorem State.setPc_params (v : Word) : (s.setPc v).params = s.params := (rfl)

@[simp] theorem State.reg_setSp (r : Reg) (v : Word) : (s.setSp v).reg r = s.reg r := (rfl)
@[simp] theorem State.setSp_regs (v : Word) : (s.setSp v).regs = s.regs := (rfl)
@[simp] theorem State.setSp_pc (v : Word) : (s.setSp v).pc = s.pc := (rfl)
@[simp] theorem State.setSp_sp (v : Word) : (s.setSp v).sp = v := (rfl)
@[simp] theorem State.setSp_ex (v : Word) : (s.setSp v).ex = s.ex := (rfl)
@[simp] theorem State.setSp_ia (v : Word) : (s.setSp v).ia = s.ia := (rfl)
@[simp] theorem State.setSp_mem (v : Word) : (s.setSp v).mem = s.mem := (rfl)
@[simp] theorem State.setSp_watch (v : Word) : (s.setSp v).watch = s.watch := (rfl)
@[simp] theorem State.setSp_devices (v : Word) : (s.setSp v).devices = s.devices := (rfl)
@[simp] theorem State.setSp_bus (v : Word) : (s.setSp v).bus = s.bus := (rfl)
@[simp] theorem State.setSp_fault (v : Word) : (s.setSp v).fault = s.fault := (rfl)
@[simp] theorem State.setSp_agents (v : Word) : (s.setSp v).agents = s.agents := (rfl)
@[simp] theorem State.setSp_phase (v : Word) : (s.setSp v).phase = s.phase := (rfl)
@[simp] theorem State.setSp_draws (v : Word) : (s.setSp v).draws = s.draws := (rfl)
@[simp] theorem State.setSp_params (v : Word) : (s.setSp v).params = s.params := (rfl)

@[simp] theorem State.reg_setEx (r : Reg) (v : Word) : (s.setEx v).reg r = s.reg r := (rfl)
@[simp] theorem State.setEx_regs (v : Word) : (s.setEx v).regs = s.regs := (rfl)
@[simp] theorem State.setEx_pc (v : Word) : (s.setEx v).pc = s.pc := (rfl)
@[simp] theorem State.setEx_sp (v : Word) : (s.setEx v).sp = s.sp := (rfl)
@[simp] theorem State.setEx_ex (v : Word) : (s.setEx v).ex = v := (rfl)
@[simp] theorem State.setEx_ia (v : Word) : (s.setEx v).ia = s.ia := (rfl)
@[simp] theorem State.setEx_mem (v : Word) : (s.setEx v).mem = s.mem := (rfl)
@[simp] theorem State.setEx_watch (v : Word) : (s.setEx v).watch = s.watch := (rfl)
@[simp] theorem State.setEx_devices (v : Word) : (s.setEx v).devices = s.devices := (rfl)
@[simp] theorem State.setEx_bus (v : Word) : (s.setEx v).bus = s.bus := (rfl)
@[simp] theorem State.setEx_fault (v : Word) : (s.setEx v).fault = s.fault := (rfl)
@[simp] theorem State.setEx_agents (v : Word) : (s.setEx v).agents = s.agents := (rfl)
@[simp] theorem State.setEx_phase (v : Word) : (s.setEx v).phase = s.phase := (rfl)
@[simp] theorem State.setEx_draws (v : Word) : (s.setEx v).draws = s.draws := (rfl)
@[simp] theorem State.setEx_params (v : Word) : (s.setEx v).params = s.params := (rfl)

@[simp] theorem State.reg_setIa (r : Reg) (v : Word) : (s.setIa v).reg r = s.reg r := (rfl)
@[simp] theorem State.setIa_regs (v : Word) : (s.setIa v).regs = s.regs := (rfl)
@[simp] theorem State.setIa_pc (v : Word) : (s.setIa v).pc = s.pc := (rfl)
@[simp] theorem State.setIa_sp (v : Word) : (s.setIa v).sp = s.sp := (rfl)
@[simp] theorem State.setIa_ex (v : Word) : (s.setIa v).ex = s.ex := (rfl)
@[simp] theorem State.setIa_ia (v : Word) : (s.setIa v).ia = v := (rfl)
@[simp] theorem State.setIa_mem (v : Word) : (s.setIa v).mem = s.mem := (rfl)
@[simp] theorem State.setIa_watch (v : Word) : (s.setIa v).watch = s.watch := (rfl)
@[simp] theorem State.setIa_devices (v : Word) : (s.setIa v).devices = s.devices := (rfl)
@[simp] theorem State.setIa_bus (v : Word) : (s.setIa v).bus = s.bus := (rfl)
@[simp] theorem State.setIa_fault (v : Word) : (s.setIa v).fault = s.fault := (rfl)
@[simp] theorem State.setIa_agents (v : Word) : (s.setIa v).agents = s.agents := (rfl)
@[simp] theorem State.setIa_phase (v : Word) : (s.setIa v).phase = s.phase := (rfl)
@[simp] theorem State.setIa_draws (v : Word) : (s.setIa v).draws = s.draws := (rfl)
@[simp] theorem State.setIa_params (v : Word) : (s.setIa v).params = s.params := (rfl)

@[simp] theorem State.reg_setMem (r : Reg) (m : Memory) : (s.setMem m).reg r = s.reg r := (rfl)
@[simp] theorem State.setMem_regs (m : Memory) : (s.setMem m).regs = s.regs := (rfl)
@[simp] theorem State.setMem_pc (m : Memory) : (s.setMem m).pc = s.pc := (rfl)
@[simp] theorem State.setMem_sp (m : Memory) : (s.setMem m).sp = s.sp := (rfl)
@[simp] theorem State.setMem_ex (m : Memory) : (s.setMem m).ex = s.ex := (rfl)
@[simp] theorem State.setMem_ia (m : Memory) : (s.setMem m).ia = s.ia := (rfl)
@[simp] theorem State.setMem_mem (m : Memory) : (s.setMem m).mem = m := (rfl)
@[simp] theorem State.setMem_watch (m : Memory) : (s.setMem m).watch = s.watch := (rfl)
@[simp] theorem State.setMem_devices (m : Memory) : (s.setMem m).devices = s.devices := (rfl)
@[simp] theorem State.setMem_bus (m : Memory) : (s.setMem m).bus = s.bus := (rfl)
@[simp] theorem State.setMem_fault (m : Memory) : (s.setMem m).fault = s.fault := (rfl)
@[simp] theorem State.setMem_agents (m : Memory) : (s.setMem m).agents = s.agents := (rfl)
@[simp] theorem State.setMem_phase (m : Memory) : (s.setMem m).phase = s.phase := (rfl)
@[simp] theorem State.setMem_draws (m : Memory) : (s.setMem m).draws = s.draws := (rfl)
@[simp] theorem State.setMem_params (m : Memory) : (s.setMem m).params = s.params := (rfl)

@[simp] theorem State.reg_setWatch (r : Reg) (w : List (Nat × Handler)) : (s.setWatch w).reg r = s.reg r := (rfl)
@[simp] theorem State.setWatch_regs (w : List (Nat × Handler)) : (s.setWatch w).regs = s.regs := (rfl)
@[simp] theorem State.setWatch_pc (w : List (Nat × Handler)) : (s.setWatch w).pc = s.pc := (rfl)
@[simp] theorem State.setWatch_sp (w : List (Nat × Handler)) : (s.setWatch w).sp = s.sp := (rfl)
@[simp] theorem State.setWatch_ex (w : List (Nat × Handler)) : (s.setWatch w).ex = s.ex := (rfl)
@[simp] theorem State.setWatch_ia (w : List (Nat × Handler)) : (s.setWatch w).ia = s.ia := (rfl)
@[simp] theorem State.setWatch_mem (w : List (Nat × Handler)) : (s.setWatch w).mem = s.mem := (rfl)
@[simp] theorem State.setWatch_watch (w : List (Nat × Handler)) : (s.setWatch w).watch = w := (rfl)
@[simp] theorem State.setWatch_devices (w : List (Nat × Handler)) : (s.setWatch w).devices = s.devices := (rfl)
@[simp] theorem State.setWatch_bus (w : List (Nat × Handler)) : (s.setWatch w).bus = s.bus := (rfl)
@[simp] theorem State.setWatch_fault (w : List (Nat × Handler)) : (s.setWatch w).fault = s.fault := (rfl)
@[simp] theorem State.setWatch_agents (w : List (Nat × Handler)) : (s.setWatch w).agents = s.agents := (rfl)
@[simp] theorem State.setWatch_phase (w : List (Nat × Handler)) : (s.setWatch w).phase = s.phase := (rfl)
@[simp] theorem State.setWatch_draws (w : List (Nat × Handler)) : (s.setWatch w).draws = s.draws := (rfl)
@[simp] theorem State.setWatch_params (w : List (Nat × Handler)) : (s.setWatch w).params = s.params := (rfl)

@[simp] theorem State.reg_setDevices (r : Reg) (d : List Device) : (s.setDevices d).reg r = s.reg r := (rfl)
@[simp] theorem State.setDevices_regs (d : List Device) : (s.setDevices d).regs = s.regs := (rfl)
@[simp] theorem State.setDevices_pc (d : List Device) : (s.setDevices d).pc = s.pc := (rfl)
@[simp] theorem State.setDevices_sp (d : List Device) : (s.setDevices d).sp = s.sp := (rfl)
@[simp] theorem State.setDevices_ex (d : List Device) : (s.setDevices d).ex = s.ex := (rfl)
@[simp] theorem State.setDevices_ia (d : List Device) : (s.setDevices d).ia = s.ia := (rfl)
@[simp] theorem State.setDevices_mem (d : List Device) : (s.setDevices d).mem = s.mem := (rfl)
@[simp] theorem State.setDevices_watch (d : List Device) : (s.setDevices d).watch = s.watch := (rfl)
@[simp] theorem State.setDevices_devices (d : List Device) : (s.setDevices d).devices = d := (rfl)
@[simp] theorem State.setDevices_bus (d : List Device) : (s.setDevices d).bus = s.bus := (rfl)
@[simp] theorem State.setDevices_fault (d : List Device) : (s.setDevices d).fault = s.fault := (rfl)
@[simp] theorem State.setDevices_agents (d : List Device) : (s.setDevices d).agents = s.agents := (rfl)
@[simp] theorem State.setDevices_phase (d : List Device) : (s.setDevices d).phase = s.phase := (rfl)
@[simp] theorem State.setDevices_draws (d : List Device) : (s.setDevices d).draws = s.draws := (rfl)
@[simp] theorem State.setDevices_params (d : List Device) : (s.setDevices d).params = s.params := (rfl)

@[simp] theorem State.reg_setBus (r : Reg) (b : List (HardwareId × Nat)) : (s.setBus b).reg r = s.reg r := (rfl)
@[simp] theorem State.setBus_regs (b : List (HardwareId × Nat)) : (s.setBus b).regs = s.regs := (rfl)
@[simp] theorem State.setBus_pc (b : List (HardwareId × Nat)) : (s.setBus b).pc = s.pc := (rfl)
@[simp] theorem State.setBus_sp (b : List (HardwareId × Nat)) : (s.setBus b).sp = s.sp := (rfl)
@[simp] theorem State.setBus_ex (b : List (HardwareId × Nat)) : (s.setBus b).ex = s.ex := (rfl)
@[simp] theorem State.setBus_ia (b : List (HardwareId × Nat)) : (s.setBus b).ia = s.ia := (rfl)
@[simp] theorem State.setBus_mem (b : List (HardwareId × Nat)) : (s.setBus b).mem = s.mem := (rfl)
@[simp] theorem State.setBus_watch (b : List (HardwareId × Nat)) : (s.setBus b).watch = s.watch := (rfl)
@[simp] theorem State.setBus_devices (b : List (HardwareId × Nat)) : (s.setBus b).devices = s.devices := (rfl)
@[simp] theorem State.setBus_bus (b : List (HardwareId × Nat)) : (s.setBus b).bus = b := (rfl)
@[simp] theorem State.setBus_fault (b : List (HardwareId × Nat)) : (s.setBus b).fault = s.fault := (rfl)
@[simp] theorem State.setBus_agents (b : List (HardwareId × Nat)) : (s.setBus b).agents = s.agents := (rfl)
@[simp] theorem State.setBus_phase (b : List (HardwareId × Nat)) : (s.setBus b).phase = s.phase := (rfl)
@[simp] theorem State.setBus_draws (b : List (HardwareId × Nat)) : (s.setBus b).draws = s.draws := (rfl)
@[simp] theorem State.setBus_params (b : List (HardwareId × Nat)) : (s.setBus b).params = s.params := (rfl)

@[simp] theorem State.reg_setAgents (r : Reg) (fs : List Frame) : (s.setAgents fs).reg r = s.reg r := (rfl)
@[simp] theorem State.setAgents_regs (fs : List Frame) : (s.setAgents fs).regs = s.regs := (rfl)
@[simp] theorem State.setAgents_pc (fs : List Frame) : (s.setAgents fs).pc = s.pc := (rfl)
@[simp] theorem State.setAgents_sp (fs : List Frame) : (s.setAgents fs).sp = s.sp := (rfl)
@[simp] theorem State.setAgents_ex (fs : List Frame) : (s.setAgents fs).ex = s.ex := (rfl)
@[simp] theorem State.setAgents_ia (fs : List Frame) : (s.setAgents fs).ia = s.ia := (rfl)
@[simp] theorem State.setAgents_mem (fs : List Frame) : (s.setAgents fs).mem = s.mem := (rfl)
@[simp] theorem State.setAgents_watch (fs : List Frame) : (s.setAgents fs).watch = s.watch := (rfl)
@[simp] theorem State.setAgents_devices (fs : List Frame) : (s.setAgents fs).devices = s.devices := (rfl)
@[simp] theorem State.setAgents_bus (fs : List Frame) : (s.setAgents fs).bus = s.bus := (rfl)
@[simp] theorem State.setAgents_fault (fs : List Frame) : (s.setAgents fs).fault = s.fault := (rfl)
@[simp] theorem State.setAgents_agents (fs : List Frame) : (s.setAgents fs).agents = fs := (rfl)
@[simp] theorem State.setAgents_phase (fs : List Frame) : (s.setAgents fs).phase = s.phase := (rfl)
@[simp] theorem State.setAgents_draws (fs : List Frame) : (s.setAgents fs).draws = s.draws := (rfl)
@[simp] theorem State.setAgents_params (fs : List Frame) : (s.setAgents fs).params = s.params := (rfl)

@[simp] theorem State.reg_setPhase (r : Reg) (p : Phase) : (s.setPhase p).reg r = s.reg r := (rfl)
@[simp] theorem State.setPhase_regs (p : Phase) : (s.setPhase p).regs = s.regs := (rfl)
@[simp] theorem State.setPhase_pc (p : Phase) : (s.setPhase p).pc = s.pc := (rfl)
@[simp] theorem State.setPhase_sp (p : Phase) : (s.setPhase p).sp = s.sp := (rfl)
@[simp] theorem State.setPhase_ex (p : Phase) : (s.setPhase p).ex = s.ex := (rfl)
@[simp] theorem State.setPhase_ia (p : Phase) : (s.setPhase p).ia = s.ia := (rfl)
@[simp] theorem State.setPhase_mem (p : Phase) : (s.setPhase p).mem = s.mem := (rfl)
@[simp] theorem State.setPhase_watch (p : Phase) : (s.setPhase p).watch = s.watch := (rfl)
@[simp] theorem State.setPhase_devices (p : Phase) : (s.setPhase p).devices = s.devices := (rfl)
@[simp] theorem State.setPhase_bus (p : Phase) : (s.setPhase p).bus = s.bus := (rfl)
@[simp] theorem State.setPhase_fault (p : Phase) : (s.setPhase p).fault = s.fault := (rfl)
@[simp] theorem State.setPhase_agents (p : Phase) : (s.setPhase p).agents = s.agents := (rfl)
@[simp] theorem State.setPhase_phase (p : Phase) : (s.setPhase p).phase = p := (rfl)
@[simp] theorem State.setPhase_draws (p : Phase) : (s.setPhase p).draws = s.draws := (rfl)
@[simp] theorem State.setPhase_params (p : Phase) : (s.setPhase p).params = s.params := (rfl)

@[simp] theorem State.reg_setDraws (r : Reg) (n : Nat) : (s.setDraws n).reg r = s.reg r := (rfl)
@[simp] theorem State.setDraws_regs (n : Nat) : (s.setDraws n).regs = s.regs := (rfl)
@[simp] theorem State.setDraws_pc (n : Nat) : (s.setDraws n).pc = s.pc := (rfl)
@[simp] theorem State.setDraws_sp (n : Nat) : (s.setDraws n).sp = s.sp := (rfl)
@[simp] theorem State.setDraws_ex (n : Nat) : (s.setDraws n).ex = s.ex := (rfl)
@[simp] theorem State.setDraws_ia (n : Nat) : (s.setDraws n).ia = s.ia := (rfl)
@[simp] theorem State.setDraws_mem (n : Nat) : (s.setDraws n).mem = s.mem := (rfl)
@[simp] theorem State.setDraws_watch (n : Nat) : (s.setDraws n).watch = s.watch := (rfl)
@[simp] theorem State.setDraws_devices (n : Nat) : (s.setDraws n).devices = s.devices := (rfl)
@[simp] theorem State.setDraws_bus (n : Nat) : (s.setDraws n).bus = s.bus := (rfl)
@[simp] theorem State.setDraws_fault (n : Nat) : (s.setDraws n).fault = s.fault := (rfl)
@[simp] theorem State.setDraws_agents (n : Nat) : (s.setDraws n).agents = s.agents := (rfl)
@[simp] theorem State.setDraws_phase (n : Nat) : (s.setDraws n).phase = s.phase := (rfl)
@[simp] theorem State.setDraws_draws (n : Nat) : (s.setDraws n).draws = n := (rfl)
@[simp] theorem State.setDraws_params (n : Nat) : (s.setDraws n).params = s.params := (rfl)

@[simp] theorem State.reg_latch (r : Reg) (f : Fault) : (s.latch f).reg r = s.reg r := (rfl)
@[simp] theorem State.latch_regs (f : Fault) : (s.latch f).regs = s.regs := (rfl)
@[simp] theorem State.latch_pc (f : Fault) : (s.latch f).pc = s.pc := (rfl)
@[simp] theorem State.latch_sp (f : Fault) : (s.latch f).sp = s.sp := (rfl)
@[simp] theorem State.latch_ex (f : Fault) : (s.latch f).ex = s.ex := (rfl)
@[simp] theorem State.latch_ia (f : Fault) : (s.latch f).ia = s.ia := (rfl)
@[simp] theorem State.latch_mem (f : Fault) : (s.latch f).mem = s.mem := (rfl)
@[simp] theorem State.latch_watch (f : Fault) : (s.latch f).watch = s.watch := (rfl)
@[simp] theorem State.latch_devices (f : Fault) : (s.latch f).devices = s.devices := (rfl)
@[simp] theorem State.latch_bus (f : Fault) : (s.latch f).bus = s.bus := (rfl)
@[simp] theorem State.latch_fault (f : Fault) : (s.latch f).fault = some f := (rfl)
@[simp] theorem State.latch_agents (f : Fault) : (s.latch f).agents = [] := (rfl)
@[simp] theorem State.latch_phase (f : Fault) : (s.latch f).phase = .host := (rfl)
@[simp] theorem State.latch_draws (f : Fault) : (s.latch f).draws = s.draws := (rfl)
@[simp] theorem State.latch_params (f : Fault) : (s.latch f).params = s.params := (rfl)

@[simp] theorem State.resetCpu_regs : s.resetCpu.regs = s.params.reset.regs := (rfl)
@[simp] theorem State.resetCpu_pc : s.resetCpu.pc = s.params.reset.pc := (rfl)
@[simp] theorem State.resetCpu_sp : s.resetCpu.sp = s.params.reset.sp := (rfl)
@[simp] theorem State.resetCpu_ex : s.resetCpu.ex = s.params.reset.ex := (rfl)
@[simp] theorem State.resetCpu_ia : s.resetCpu.ia = s.params.reset.ia := (rfl)
@[simp] theorem State.resetCpu_mem : s.resetCpu.mem = s.mem := (rfl)
@[simp] theorem State.resetCpu_watch : s.resetCpu.watch = s.watch := (rfl)
@[simp] theorem State.resetCpu_devices : s.resetCpu.devices = s.devices := (rfl)
@[simp] theorem State.resetCpu_bus : s.resetCpu.bus = s.bus := (rfl)
@[simp] theorem State.resetCpu_fault : s.resetCpu.fault = none := (rfl)
@[simp] theorem State.resetCpu_agents : s.resetCpu.agents = [] := (rfl)
@[simp] theorem State.resetCpu_phase : s.resetCpu.phase = .host := (rfl)
@[simp] theorem State.resetCpu_draws : s.resetCpu.draws = s.draws := (rfl)
@[simp] theorem State.resetCpu_params : s.resetCpu.params = s.params := (rfl)

@[simp] theorem State.setPc_self : s.setPc s.pc = s := (rfl)
@[simp] theorem State.setSp_self : s.setSp s.sp = s := (rfl)
@[simp] theorem State.setEx_self : s.setEx s.ex = s := (rfl)
@[simp] theorem State.setIa_self : s.setIa s.ia = s := (rfl)
@[simp] theorem State.setMem_self : s.setMem s.mem = s := (rfl)
@[simp] theorem State.setWatch_self : s.setWatch s.watch = s := (rfl)
@[simp] theorem State.setDevices_self : s.setDevices s.devices = s := (rfl)
@[simp] theorem State.setBus_self : s.setBus s.bus = s := (rfl)
@[simp] theorem State.setAgents_self : s.setAgents s.agents = s := (rfl)
@[simp] theorem State.setPhase_self : s.setPhase s.phase = s := (rfl)
@[simp] theorem State.setDraws_self : s.setDraws s.draws = s := (rfl)

@[simp] theorem State.setPc_setPc (v w : Word) : (s.setPc v).setPc w = s.setPc w := (rfl)
@[simp] theorem State.setSp_setSp (v w : Word) : (s.setSp v).setSp w = s.setSp w := (rfl)
@[simp] theorem State.setEx_setEx (v w : Word) : (s.setEx v).setEx w = s.setEx w := (rfl)
@[simp] theorem State.setIa_setIa (v w : Word) : (s.setIa v).setIa w = s.setIa w := (rfl)
@[simp] theorem State.setMem_setMem (v w : Memory) : (s.setMem v).setMem w = s.setMem w := (rfl)
@[simp] theorem State.setWatch_setWatch (v w : List (Nat × Handler)) : (s.setWatch v).setWatch w = s.setWatch w := (rfl)
@[simp] theorem State.setDevices_setDevices (v w : List Device) : (s.setDevices v).setDevices w = s.setDevices w := (rfl)
@[simp] theorem State.setBus_setBus (v w : List (HardwareId × Nat)) : (s.setBus v).setBus w = s.setBus w := (rfl)
@[simp] theorem State.setAgents_setAgents (v w : List Frame) : (s.setAgents v).setAgents w = s.setAgents w := (rfl)
@[simp] theorem State.setPhase_setPhase (v w : Phase) : (s.setPhase v).setPhase w = s.setPhase w := (rfl)
@[simp] theorem State.setDraws_setDraws (v w : Nat) : (s.setDraws v).setDraws w = s.setDraws w := (rfl)

@[simp] theorem State.setReg_self (r : Reg) : s.setReg r (s.reg r) = s := by
  simp [State.setReg, State.reg]

end

end Sys2Proof.Machine
end

