-- ==== Sys2Proof/Laws/Ops.lean ====
section
/-! SUPPORT. What the shared operations of Machine/Ops.lean can do: once each. -/

namespace Sys2Proof.Machine

section
variable {α β : Type}

@[simp] theorem Micro.ok_bind (v : α) (s : State) (k : α → State → Micro β) :
    (Micro.ok v s).bind k = k v s := rfl

@[simp] theorem Micro.raised_bind (f : Fault) (s : State) (k : α → State → Micro β) :
    (Micro.raised f s).bind k = .raised f s := rfl

theorem Micro.bind_eq_ok {m : Micro α} {k : α → State → Micro β} {w : β} {t : State} :
    m.bind k = .ok w t ↔ ∃ v s, m = .ok v s ∧ k v s = .ok w t := by
  cases m with
  | ok v s =>
    refine ⟨fun h => ⟨v, s, rfl, h⟩, ?_⟩
    rintro ⟨v', s', h1, h2⟩
    cases h1
    exact h2
  | raised f s => simp

theorem Micro.All.bind {P : State → Prop} {m : Micro α} {k : α → State → Micro β}
    (hm : m.All P) (hk : ∀ v s, m = .ok v s → P s → (k v s).All P) : (m.bind k).All P := by
  cases m with
  | ok v s => exact hk v s rfl hm
  | raised f s => exact hm

end

@[simp] theorem conclude_ok (u : Unit) (s : State) : conclude (.ok u s) = .next s := (rfl)

@[simp] theorem conclude_raised (f : Fault) (s : State) :
    conclude (.raised f s) = .next (s.latch f) := rfl

/-- A cycle or move always ends in a next state. -/
theorem conclude_eq_next (m : Micro Unit) : ∃ t, conclude m = .next t := by
  cases m with
  | ok u s => exact ⟨s, rfl⟩
  | raised f s => exact ⟨s.latch f, rfl⟩

section
variable {s : State} {a : Nat} {v : Word}

@[simp] theorem observers_setMem (m : Memory) : observers a v (s.setMem m) = observers a v s := (rfl)
@[simp] theorem observers_setSp (w : Word) : observers a v (s.setSp w) = observers a v s := (rfl)
@[simp] theorem observers_setPc (w : Word) : observers a v (s.setPc w) = observers a v s := (rfl)
@[simp] theorem observers_setEx (w : Word) : observers a v (s.setEx w) = observers a v s := (rfl)
@[simp] theorem observers_setAgents (fs : List Frame) :
    observers a v (s.setAgents fs) = observers a v s := rfl

theorem observers_unwatched (h : lookupCell a s.watch = none) : observers a v s = [] := by
  simp [observers, h]

theorem observers_watched {hd : Handler} (h : lookupCell a s.watch = some hd) :
    observers a v s = [.observe hd a v] := by
  simp [observers, h]

theorem memRead_in (h : a < s.params.memSize) : memRead a s = .ok (s.mem.read a) s := by
  simp [memRead, h]

theorem memRead_out (h : ¬ a < s.params.memSize) : memRead a s = .raised (.addressing a) s := by
  simp [memRead, h]

theorem store_in (h : a < s.params.memSize) :
    store a v s = .ok () (s.setMem (s.mem.write a v)) := by
  simp [store, h]

theorem store_out (h : ¬ a < s.params.memSize) : store a v s = .raised (.addressing a) s := by
  simp [store, h]

theorem memWrite_in (h : a < s.params.memSize) : memWrite a v s = .ok () (s.stored a v) := by
  simp [memWrite, store_in h, State.stored]

theorem memWrite_out (h : ¬ a < s.params.memSize) : memWrite a v s = .raised (.addressing a) s := by
  simp [memWrite, store_out h]

theorem nextWord_in (h : s.pc.toNat < s.params.memSize) :
    nextWord s = .ok (s.mem.read s.pc.toNat) (s.setPc (s.pc + 1)) := by
  simp [nextWord, memRead_in h]

theorem nextWord_out (h : ¬ s.pc.toNat < s.params.memSize) :
    nextWord s = .raised (.addressing s.pc.toNat) s := by
  simp [nextWord, memRead_out h]

end

/-! ## Pushes and interrupt entry -/

section
variable {s : State} {v : Word} {rest : Frame} {now : State → Micro Unit}

/-- R245: a push outside memory leaves SP decremented. -/
theorem pushThen_out (h : ¬ (s.sp - 1).toNat < s.params.memSize) :
    pushThen v rest now s = .raised (.addressing (s.sp - 1).toNat) (s.setSp (s.sp - 1)) := by
  simp only [pushThen, State.setSp_sp]
  rw [store_out (s := s.setSp (s.sp - 1)) h]
  rfl

/-- R222: a push to a cell without an observer, and what follows at once. -/
theorem pushThen_unwatched (h : (s.sp - 1).toNat < s.params.memSize)
    (hw : lookupCell (s.sp - 1).toNat s.watch = none) :
    pushThen v rest now s = now ((s.setSp (s.sp - 1)).setMem (s.mem.write (s.sp - 1).toNat v)) := by
  simp only [pushThen, State.setSp_sp]
  rw [store_in (s := s.setSp (s.sp - 1)) h, Micro.ok_bind, observers_setMem, observers_setSp]
  rw [observers_unwatched (s := s) hw]
  rfl

/-- R226: a push to a cell with an observer: what follows waits beneath it. -/
theorem pushThen_watched (h : (s.sp - 1).toNat < s.params.memSize) {hd : Handler}
    (hw : lookupCell (s.sp - 1).toNat s.watch = some hd) :
    pushThen v rest now s = .ok ()
      (((s.setSp (s.sp - 1)).setMem (s.mem.write (s.sp - 1).toNat v)).setAgents
        (.observe hd (s.sp - 1).toNat v :: rest :: s.agents)) := by
  simp only [pushThen, State.setSp_sp]
  rw [store_in (s := s.setSp (s.sp - 1)) h, Micro.ok_bind, observers_setMem, observers_setSp]
  rw [observers_watched (s := s) hw]
  rfl

/-- R223. -/
theorem interrupt_disabled (msg : Word) (h : s.ia = 0) : interrupt msg s = .ok () s := by
  simp [interrupt, h]

/-- R222: with interrupts enabled the entry starts with the push of PC. -/
theorem interrupt_enabled (msg : Word) (h : s.ia ≠ 0) :
    interrupt msg s = pushThen s.pc (.pushA msg) (entryPushA msg) s := by
  unfold interrupt
  exact if_neg h

end

/-! ## What can be raised -/

section
variable {s t : State} {f : Fault}

theorem Micro.bind_eq_raised {α β : Type} {m : Micro α} {k : α → State → Micro β} :
    m.bind k = .raised f t ↔ m = .raised f t ∨ ∃ v u, m = .ok v u ∧ k v u = .raised f t := by
  cases m with
  | ok v u => simp
  | raised g u => simp

theorem memRead_ok {a : Nat} {w : Word} (h : memRead a s = .ok w t) : t = s := by
  unfold memRead at h
  split at h <;> cases h
  rfl

/-- R59, R211: the fault of a `MemRead`. -/
theorem memRead_raised {a : Nat} (h : memRead a s = .raised f t) :
    t = s ∧ ∃ x, f = .addressing x ∧ s.params.memSize ≤ x := by
  unfold memRead at h
  split at h <;> cases h
  exact ⟨rfl, a, rfl, by omega⟩

/-- R43, R211: the fault of a `MemWrite`. -/
theorem memWrite_raised {a : Nat} {v : Word} (h : memWrite a v s = .raised f t) :
    ∃ x, f = .addressing x ∧ s.params.memSize ≤ x := by
  by_cases ha : a < s.params.memSize
  · rw [memWrite_in ha] at h
    cases h
  · rw [memWrite_out ha] at h
    cases h
    exact ⟨a, rfl, by omega⟩

/-- R245: the fault of a push, or of what follows it at once. -/
theorem pushThen_raised {v : Word} {rest : Frame} {now : State → Micro Unit}
    (h : pushThen v rest now s = .raised f t)
    (hn : ∀ u, u.params = s.params → now u = .raised f t →
      ∃ x, f = .addressing x ∧ s.params.memSize ≤ x) :
    ∃ x, f = .addressing x ∧ s.params.memSize ≤ x := by
  by_cases hp : (s.sp - 1).toNat < s.params.memSize
  · cases hw : lookupCell (s.sp - 1).toNat s.watch with
    | none =>
      rw [pushThen_unwatched hp hw] at h
      exact hn ((s.setSp (s.sp - 1)).setMem _) rfl h
    | some hd =>
      rw [pushThen_watched hp hw] at h
      cases h
  · rw [pushThen_out hp] at h
    cases h
    exact ⟨_, rfl, by omega⟩

/-- R245: interrupt entry, from the push of A on. -/
theorem entryPushA_raised {msg : Word} (h : entryPushA msg s = .raised f t) :
    ∃ x, f = .addressing x ∧ s.params.memSize ≤ x :=
  pushThen_raised h fun _ _ h => by cases h

/-- R245: interrupt entry raises AddressingFault only. -/
theorem interrupt_raised {msg : Word} (h : interrupt msg s = .raised f t) :
    ∃ x, f = .addressing x ∧ s.params.memSize ≤ x := by
  unfold interrupt at h
  split at h
  · cases h
  · exact pushThen_raised h fun u hu h => hu ▸ entryPushA_raised h

end

section
variable (s : State) (x : Nat) (v : Word)

@[simp] theorem State.reg_stored (r : Reg) : (s.stored x v).reg r = s.reg r := (rfl)
@[simp] theorem State.stored_regs : (s.stored x v).regs = s.regs := (rfl)
@[simp] theorem State.stored_pc : (s.stored x v).pc = s.pc := (rfl)
@[simp] theorem State.stored_sp : (s.stored x v).sp = s.sp := (rfl)
@[simp] theorem State.stored_ex : (s.stored x v).ex = s.ex := (rfl)
@[simp] theorem State.stored_ia : (s.stored x v).ia = s.ia := (rfl)
@[simp] theorem State.stored_mem : (s.stored x v).mem = s.mem.write x v := (rfl)
@[simp] theorem State.stored_watch : (s.stored x v).watch = s.watch := (rfl)
@[simp] theorem State.stored_devices : (s.stored x v).devices = s.devices := (rfl)
@[simp] theorem State.stored_bus : (s.stored x v).bus = s.bus := (rfl)
@[simp] theorem State.stored_fault : (s.stored x v).fault = s.fault := (rfl)
@[simp] theorem State.stored_agents :
    (s.stored x v).agents = observers x v s ++ s.agents := (rfl)
@[simp] theorem State.stored_phase : (s.stored x v).phase = s.phase := (rfl)
@[simp] theorem State.stored_draws : (s.stored x v).draws = s.draws := (rfl)
@[simp] theorem State.stored_params : (s.stored x v).params = s.params := (rfl)

end

/-- What a property of states needs for every micro-operation of the machine to keep it. -/
structure Stable (P : State → Prop) : Prop where
  reg : ∀ s r v, P s → P (s.setReg r v)
  pc : ∀ s v, P s → P (s.setPc v)
  sp : ∀ s v, P s → P (s.setSp v)
  ex : ∀ s v, P s → P (s.setEx v)
  write : ∀ s a v, P s → a < s.params.memSize →
    P (s.setMem (s.mem.write a v))
  agents : ∀ s a v, P s → P (s.setAgents (observers a v s ++ s.agents))
  waits : ∀ s t fs f, P s → P t → t.agents = fs ++ s.agents → (∀ n, f.known n = true) →
    P (t.setAgents (fs ++ f :: s.agents))

section
variable {P : State → Prop} (hP : Stable P) {s : State} (h : P s)
include hP h

omit hP in
theorem memRead_keeps (a : Nat) : (memRead a s).All P := by
  unfold memRead
  split <;> exact h

theorem store_keeps (a : Nat) (v : Word) : (store a v s).All P := by
  unfold store
  split
  · exact hP.write s a v h ‹_›
  · exact h

theorem memWrite_keeps (a : Nat) (v : Word) : (memWrite a v s).All P := by
  by_cases ha : a < s.params.memSize
  · rw [memWrite_in ha]
    exact hP.agents _ a v (hP.write s a v h ha)
  · rw [memWrite_out ha]
    exact h

theorem nextWord_keeps : (nextWord s).All P :=
  (memRead_keeps h _).bind fun _ t _ ht => hP.pc t _ ht

theorem entryJump_keeps (msg : Word) : (entryJump msg s).All P :=
  hP.reg _ _ _ (hP.pc _ _ h)

theorem pushThen_keeps (v : Word) (rest : Frame) (now : State → Micro Unit)
    (hr : ∀ n, rest.known n = true)
    (hn : ∀ u, P u → (now u).All P) : (pushThen v rest now s).All P := by
  refine (store_keeps hP (hP.sp s _ h) _ _).bind fun _ u _ hu => ?_
  split
  · exact hn u hu
  · rename_i f fs hf
    have := hP.agents u (s.setSp (s.sp - 1)).sp.toNat v hu
    rw [hf] at this
    exact hP.waits u (u.setAgents (f :: fs ++ u.agents)) (f :: fs) rest hu this rfl hr

theorem entryPushA_keeps (msg : Word) : (entryPushA msg s).All P :=
  pushThen_keeps hP h _ _ _ (fun _ => rfl)
    fun _ hu => entryJump_keeps hP hu msg

theorem interrupt_keeps (msg : Word) : (interrupt msg s).All P := by
  unfold interrupt
  split
  · exact h
  · exact pushThen_keeps hP h _ _ _ (fun _ => rfl)
      fun _ hu => entryPushA_keeps hP hu msg

end

end Sys2Proof.Machine
end

