-- ==== Sys2Proof/Laws/Operands.lean ====
section
/-! SUPPORT. What resolution, read access and write access can do. -/

namespace Sys2Proof.Machine

/-- R125: resolution writes no state but PC, which it advances by the operand's extra Word. -/
theorem resolve_ok {o : Operand} {s t : State} {d : Desc} (h : resolve o s = .ok d t) :
    t = s.setPc (s.pc + extra o) := by
  have hw : ∀ (k : Word → State → Desc), (nextWord s).bind (fun nw u => .ok (k nw u) u) = .ok d t →
      t = s.setPc (s.pc + 1) := by
    intro k hk
    by_cases hp : s.pc.toNat < s.params.memSize
    · rw [nextWord_in hp] at hk
      cases hk
      rfl
    · rw [nextWord_out hp] at hk
      cases hk
  cases o <;> simp only [resolve] at h <;>
    first
      | exact hw _ h
      | (cases h; simp [extra, Operand.needsWord])

/-- R125: resolution faults only at the fetch of an extra Word, with PC not advanced (R123). -/
theorem resolve_raised {o : Operand} {s t : State} {f : Fault} (h : resolve o s = .raised f t) :
    o.needsWord = true ∧ ¬ s.pc.toNat < s.params.memSize ∧ f = .addressing s.pc.toNat ∧ t = s := by
  have hw : ∀ (k : Word → State → Desc),
      (nextWord s).bind (fun nw u => .ok (k nw u) u) = .raised f t →
      ¬ s.pc.toNat < s.params.memSize ∧ f = .addressing s.pc.toNat ∧ t = s := by
    intro k hk
    by_cases hp : s.pc.toNat < s.params.memSize
    · rw [nextWord_in hp] at hk
      cases hk
    · rw [nextWord_out hp] at hk
      cases hk
      exact ⟨hp, rfl, rfl⟩
  cases o <;> simp only [resolve] at h <;>
    first
      | exact ⟨rfl, hw _ h⟩
      | cases h

/-- R126: a read access changes nothing but SP, and that only in a pop. -/
theorem readDesc_ok {d : Desc} {s t : State} {v : Word} (h : readDesc d s = .ok v t) :
    t = s.setSp (if d = .stack then s.sp + 1 else s.sp) := by
  have hm : ∀ a, memRead a s = .ok v t → t = s := by
    intro a ha
    unfold memRead at ha
    split at ha <;> cases ha
    rfl
  cases d <;> simp only [readDesc] at h
  case stack =>
    obtain ⟨w, u, hu, h⟩ := Micro.bind_eq_ok.1 h
    unfold memRead at hu
    split at hu <;> cases hu
    cases h
    rfl
  case cell addr => rw [hm _ h]; simp
  case spCell off => rw [hm _ h]; simp
  all_goals cases h; simp

/-- R127: what a write access can do, by descriptor. -/
theorem writeDesc_ok {d : Desc} {v : Word} {s t : State} (h : writeDesc d v s = .ok () t) :
    (∃ r, d = .reg r ∧ t = s.setReg r v) ∨ (d = .sp ∧ t = s.setSp v) ∨
    (d = .pc ∧ t = s.setPc v) ∨ (d = .ex ∧ t = s.setEx v) ∨
    (∃ x, storeAddr d s = some x ∧
      t = (if d = .stack then s.setSp (s.sp - 1) else s).stored x v) := by
  have hm : ∀ a (u : State), memWrite a v u = .ok () t → t = u.stored a v := by
    intro a u ha
    by_cases hs : a < u.params.memSize
    · rw [memWrite_in hs] at ha
      cases ha
      rfl
    · rw [memWrite_out hs] at ha
      cases ha
  cases d <;> simp only [writeDesc] at h
  case reg r => cases h; exact .inl ⟨r, rfl, rfl⟩
  case sp => cases h; exact .inr (.inl ⟨rfl, rfl⟩)
  case pc => cases h; exact .inr (.inr (.inl ⟨rfl, rfl⟩))
  case ex => cases h; exact .inr (.inr (.inr (.inl ⟨rfl, rfl⟩)))
  case lit => cases h
  case cell addr => exact .inr (.inr (.inr (.inr ⟨_, rfl, hm _ _ h⟩)))
  case spCell off => exact .inr (.inr (.inr (.inr ⟨_, rfl, hm _ _ h⟩)))
  case stack => exact .inr (.inr (.inr (.inr ⟨_, rfl, hm _ _ h⟩)))

/-- R43: a write access opens activations above the ones that were open. -/
theorem writeDesc_agents {d : Desc} {v : Word} {s t : State} (h : writeDesc d v s = .ok () t) :
    ∃ opened, t.agents = opened ++ s.agents := by
  rcases writeDesc_ok h with ⟨r, -, rfl⟩ | ⟨-, rfl⟩ | ⟨-, rfl⟩ | ⟨-, rfl⟩ | ⟨x, -, rfl⟩
  · exact ⟨[], rfl⟩
  · exact ⟨[], rfl⟩
  · exact ⟨[], rfl⟩
  · exact ⟨[], rfl⟩
  · refine ⟨observers x v s, ?_⟩
    split <;> simp [observers]

/-- R125: a descriptor names a register only if its operand does. -/
theorem resolve_names {o : Operand} {s t : State} {d : Desc} (h : resolve o s = .ok d t) :
    (∀ r, d = .reg r → o = .reg r) ∧ (d = .stack → o = .stack) ∧ (d = .sp → o = .sp) ∧
      (d = .ex → o = .ex) ∧ (d = .pc → o = .pc) ∧
      ∀ c w, d = .lit c w → o.isLiteral = true ∧ c = encodeOperand o := by
  have hs : ∀ off (u : State), (∀ r, spRelative off u ≠ .reg r) ∧ spRelative off u ≠ .stack ∧
      spRelative off u ≠ .sp ∧ spRelative off u ≠ .ex ∧ spRelative off u ≠ .pc ∧
      ∀ c w, spRelative off u ≠ .lit c w := by
    intro off u
    unfold spRelative
    split <;> simp
  cases o <;> simp only [resolve] at h
  case regNext | nextInd | nextLit =>
    obtain ⟨x, u, -, h2⟩ := Micro.bind_eq_ok.1 h
    cases h2
    simp [Operand.isLiteral]
  case peek =>
    cases h
    simp [hs]
  case spNext =>
    obtain ⟨x, u, -, h2⟩ := Micro.bind_eq_ok.1 h
    cases h2
    simp [hs]
  all_goals
    cases h
    simp [Operand.isLiteral]

/-- R126: a read access that faults has changed nothing. -/
theorem readDesc_raised {d : Desc} {s t : State} {f : Fault} (h : readDesc d s = .raised f t) :
    t = s ∧ ∃ x, f = .addressing x ∧ s.params.memSize ≤ x := by
  have hm : ∀ a u, memRead a s = .raised f u →
      u = s ∧ ∃ x, f = .addressing x ∧ s.params.memSize ≤ x := by
    intro a u ha
    unfold memRead at ha
    split at ha <;> cases ha
    exact ⟨rfl, a, rfl, by omega⟩
  cases d <;> simp only [readDesc] at h
  case stack =>
    cases hr : memRead s.sp.toNat s with
    | ok w u => rw [hr] at h; cases h
    | raised g u =>
      rw [hr] at h
      cases h
      exact hm _ _ hr
  case cell addr => exact hm _ _ h
  case spCell off => exact hm _ _ h
  all_goals cases h

/-- R127, R132: a write access that faults has changed nothing but SP in a push. -/
theorem writeDesc_raised {d : Desc} {v : Word} {s t : State} {f : Fault}
    (h : writeDesc d v s = .raised f t) :
    (t = s ∨ d = .stack ∧ t = s.setSp (s.sp - 1)) ∧
      ((∃ x, f = .addressing x ∧ s.params.memSize ≤ x) ∨
        ∃ c w, d = .lit c w ∧ f = .illegalWrite c) := by
  have hm : ∀ a (u w : State), memWrite a v u = .raised f w →
      w = u ∧ ∃ x, f = .addressing x ∧ u.params.memSize ≤ x := by
    intro a u w ha
    by_cases hs : a < u.params.memSize
    · rw [memWrite_in hs] at ha
      cases ha
    · rw [memWrite_out hs] at ha
      cases ha
      exact ⟨rfl, a, rfl, by omega⟩
  cases d <;> simp only [writeDesc] at h
  case cell addr =>
    obtain ⟨rfl, x⟩ := hm _ _ _ h
    exact ⟨.inl rfl, .inl x⟩
  case spCell off =>
    obtain ⟨rfl, x⟩ := hm _ _ _ h
    exact ⟨.inl rfl, .inl x⟩
  case stack =>
    obtain ⟨rfl, x⟩ := hm _ _ _ h
    exact ⟨.inr ⟨rfl, rfl⟩, .inl x⟩
  case lit c w =>
    cases h
    exact ⟨.inl rfl, .inr ⟨c, w, rfl, rfl⟩⟩
  all_goals cases h

/-- R127: a write access, completed or not, leaves every cell but the one it stores to. -/
theorem writeDesc_mem {d : Desc} {v : Word} {s : State} :
    (writeDesc d v s).All fun t =>
      ∀ x, storeAddr d s ≠ some x → t.mem.read x = s.mem.read x := by
  cases h : writeDesc d v s with
  | ok u t =>
    intro x hx
    rcases writeDesc_ok h with ⟨r, rfl, rfl⟩ | ⟨rfl, rfl⟩ | ⟨rfl, rfl⟩ | ⟨rfl, rfl⟩ | ⟨y, hy, rfl⟩
    · rfl
    · rfl
    · rfl
    · rfl
    · have : x ≠ y := fun e => hx (by rw [hy, e])
      split <;> exact Memory.read_write_ne _ _ _ _ this
  | raised f t =>
    obtain ⟨rfl | ⟨-, rfl⟩, -⟩ := writeDesc_raised h <;> intro x hx <;> rfl

/-- R133, R134: while SP stays, it does not matter when the address is computed (R143). -/
theorem readDesc_spRelative {off : Word} {s t : State} (h : t.sp = s.sp) :
    readDesc (spRelative off s) t = memRead (s.sp + off).toNat t := by
  unfold spRelative
  split <;> simp [readDesc, h]

theorem writeDesc_spRelative {off v : Word} {s t : State} (h : t.sp = s.sp) :
    writeDesc (spRelative off s) v t = memWrite (s.sp + off).toNat v t := by
  unfold spRelative
  split <;> simp [writeDesc, h]

section
variable {P : State → Prop} (hP : Stable P) {s : State} (h : P s)
include hP h

theorem resolve_keeps (o : Operand) : (resolve o s).All P := by
  cases o <;> first | exact h | exact (nextWord_keeps hP h).bind fun _ t _ ht => ht

theorem readDesc_keeps (d : Desc) : (readDesc d s).All P := by
  cases d <;>
    first
      | exact h
      | exact memRead_keeps h _
      | exact (memRead_keeps h _).bind fun _ t _ ht => hP.sp t _ ht

theorem writeDesc_keeps (d : Desc) (v : Word) : (writeDesc d v s).All P := by
  cases d <;>
    first
      | exact h
      | exact hP.reg _ _ _ h
      | exact hP.sp _ _ h
      | exact hP.pc _ _ h
      | exact hP.ex _ _ h
      | exact memWrite_keeps hP h _ _
      | exact memWrite_keeps hP (hP.sp _ _ h) _ _

end

end Sys2Proof.Machine
end

