-- ==== Sys2Proof/Laws/Exec.lean ====
section
/-! SUPPORT. What the two shapes of an instruction body keep, and that every instruction ends in a next
state. -/

namespace Sys2Proof.Machine

section
variable {P : State → Prop} (hP : Stable P) {s : State} (h : P s)
include hP h

theorem move_keeps (a b : Operand) : (move a b s).All P :=
  (resolve_keeps hP h a).bind fun dA _ _ h1 =>
  (resolve_keeps hP h1 b).bind fun dB _ _ h2 =>
  (readDesc_keeps hP h2 dB).bind fun v _ _ h3 =>
  writeDesc_keeps hP h3 dA v

theorem readPair_keeps (dA dB : Desc) : (readPair dA dB s).All P := by
  unfold readPair
  split <;>
  · exact (readDesc_keeps hP h _).bind fun _ _ _ ht =>
      (readDesc_keeps hP ht _).bind fun _ _ _ hu => hu

theorem target_keeps (a : Operand) (dA : Desc) : (target a dA s).All P := by
  unfold target
  split
  · exact h
  · split
    · exact resolve_keeps hP h a
    · exact h

omit hP h in
/-- R141 step 8: EX changes at once, or waits beneath the observer the write called. -/
theorem exAfter_cases (v : Word) {t : State} {opened : List Frame}
    (ht : t.agents = opened ++ s.agents) :
    (opened = [] ∧ exAfter v s t = t.setEx v) ∨
      exAfter v s t = t.setAgents (opened ++ .exUpdate v :: s.agents) := by
  have hd : t.agents.take (t.agents.length - s.agents.length) = opened := by simp [ht]
  unfold exAfter
  rw [hd]
  cases opened with
  | nil => exact .inl ⟨rfl, rfl⟩
  | cons f fs => exact .inr rfl

omit hP h in
@[simp] theorem exAfter_unwatched (v : Word) {t : State} (ht : t.agents = s.agents) :
    exAfter v s t = t.setEx v := by
  simp [exAfter, ht]

theorem putPair_keeps (d : Desc) (r : Word × Word) : (putPair d r s).All P := by
  unfold putPair
  split
  · refine (writeDesc_keeps hP h d r.1).bind fun _ t hw ht => ?_
    obtain ⟨opened, ho⟩ := writeDesc_agents hw
    rcases exAfter_cases r.2 ho with ⟨-, he⟩ | he
    · rw [he]
      exact hP.ex _ _ ht
    · rw [he]
      exact hP.waits s t opened _ h ht ho fun _ => rfl
  · exact writeDesc_keeps hP (hP.ex s _ h) d r.1

theorem compute_keeps (f : Word → Word → Word × Word) (a b : Operand) :
    (compute f a b s).All P :=
  (resolve_keeps hP h a).bind fun dA _ _ h1 =>
  (resolve_keeps hP h1 b).bind fun dB _ _ h2 =>
  (readPair_keeps hP h2 dA dB).bind fun v _ _ h3 =>
  (target_keeps hP h3 a dA).bind fun d _ _ h4 =>
  putPair_keeps hP h4 d (f v.1 v.2)

end

/-- R141 steps 5 and 6: the two reads change nothing but SP, and that only by a pop. -/
theorem readPair_all {dA dB : Desc} {s : State} :
    (readPair dA dB s).All fun t =>
      ∃ sp, t = s.setSp sp ∧ (dA ≠ .stack → dB ≠ .stack → sp = s.sp) := by
  have key : ∀ (d1 d2 : Desc) (k : Word → Word → Word × Word),
      ((readDesc d1 s).bind fun x t => (readDesc d2 t).bind fun y u => .ok (k x y) u).All fun t =>
        ∃ sp, t = s.setSp sp ∧ (d1 ≠ .stack → d2 ≠ .stack → sp = s.sp) := by
    intro d1 d2 k
    cases h1 : readDesc d1 s with
    | raised f t =>
      obtain ⟨rfl, -⟩ := readDesc_raised h1
      exact ⟨_, rfl, fun _ _ => rfl⟩
    | ok x t =>
      have e1 := readDesc_ok h1
      rw [Micro.ok_bind]
      cases h2 : readDesc d2 t with
      | raised f u =>
        obtain ⟨rfl, -⟩ := readDesc_raised h2
        exact ⟨_, e1, fun h _ => by rw [if_neg h]⟩
      | ok y u =>
        have e2 := readDesc_ok h2
        subst e1 e2
        refine ⟨_, rfl, fun h h' => ?_⟩
        rw [if_neg h, if_neg h']
        rfl
  unfold readPair
  split
  · exact key dA dB fun x y => (x, y)
  · have := key dB dA fun x y => (y, x)
    revert this
    generalize ((readDesc dB s).bind fun x t =>
      (readDesc dA t).bind fun y u => Micro.ok (y, x) u) = m
    cases m <;>
    · rintro ⟨sp, e, h⟩
      exact ⟨sp, e, fun h1 h2 => h h2 h1⟩

/-- R125: the result is written through the first descriptor, or one resolved again (D6). -/
theorem target_ok {a : Operand} {dA d : Desc} {s t : State} (h : target a dA s = .ok d t) :
    (t = s ∧ d = dA) ∨ (resolve a s = .ok d t ∧ ∃ p, t = s.setPc p) := by
  unfold target at h
  split at h
  · cases h
    exact .inl ⟨rfl, rfl⟩
  · split at h
    · exact .inr ⟨h, _, resolve_ok h⟩
    · cases h
      exact .inl ⟨rfl, rfl⟩

/-- R127, R141: writing the result and EX leaves every cell but the one the write stores to. -/
theorem putPair_mem {d : Desc} {r : Word × Word} {s : State} :
    (putPair d r s).All fun t =>
      ∀ x, storeAddr d s ≠ some x → t.mem.read x = s.mem.read x := by
  unfold putPair
  split
  · have := writeDesc_mem (d := d) (v := r.1) (s := s)
    cases h : writeDesc d r.1 s with
    | ok u t =>
      rw [h] at this
      intro x hx
      obtain ⟨o, ho⟩ := writeDesc_agents h
      rcases exAfter_cases r.2 ho with ⟨-, e⟩ | e <;> rw [e] <;> exact this x hx
    | raised f t =>
      rw [h] at this
      exact this
  · exact writeDesc_mem (d := d) (v := r.1) (s := s.setEx r.2)

/-- Every instruction is the conclusion of a micro-operation that keeps every stable property. -/
theorem exec_cases (i : Instr) (s : State) :
    ∃ m : Micro Unit, exec i s = conclude m ∧ ∀ P, Stable P → P s → m.All P := by
  cases i with
  | set a b => exact ⟨_, rfl, fun P hP h => move_keeps hP h a b⟩
  | add a b => exact ⟨_, rfl, fun P hP h => compute_keeps hP h addPair a b⟩
  | sub a b => exact ⟨_, rfl, fun P hP h => compute_keeps hP h subPair a b⟩
  | mul a b => exact ⟨_, rfl, fun P hP h => compute_keeps hP h mulPair a b⟩
  | mli a b => exact ⟨_, rfl, fun P hP h => compute_keeps hP h mliPair a b⟩
  | _ => exact ⟨.raised (.unknownOpcode _) s, rfl, fun P _ h => h⟩

/-- R269: no instruction stops the model. -/
theorem exec_next (i : Instr) (s : State) : ∃ t, exec i s = .next t := by
  obtain ⟨m, hm, -⟩ := exec_cases i s
  rw [hm]
  exact conclude_eq_next m

end Sys2Proof.Machine
end

