-- ==== Sys2Proof/Laws/Flags.lean ====
section
/-! SUPPORT. The pairs the computing instructions compute, in the arithmetic of bit vectors. -/

namespace Sys2Proof.Machine

theorem signed_eq_toInt (v : Word) : signed v = v.toInt := by
  have := v.isLt
  simp only [signed, BitVec.toInt_eq_toNat_cond]
  split <;> split <;> omega

theorem addPair_eq (va vb : Word) :
    addPair va vb = (va + vb, if va.toNat + vb.toNat > 0xFFFF then 1 else 0) := by
  simp [addPair, BitVec.ofNat_add]

theorem subPair_eq (va vb : Word) :
    subPair va vb = (va - vb, if va.toNat < vb.toNat then 0xFFFF else 0) := by
  simp only [subPair, Prod.mk.injEq]
  constructor
  · apply BitVec.eq_of_toInt_eq
    simp [BitVec.toInt_sub, BitVec.toInt_ofInt]
    simp [BitVec.toInt_eq_toNat_bmod]
  · by_cases h : va.toNat < vb.toNat
    · rw [if_pos h, if_pos (by omega)]
    · rw [if_neg h, if_neg (by omega)]

theorem mul_lt (va vb : Word) : va.toNat * vb.toNat ≤ 65535 * 65535 := by
  have := va.isLt
  have := vb.isLt
  exact Nat.mul_le_mul (by omega) (by omega)

theorem mulPair_eq (va vb : Word) :
    mulPair va vb = (va * vb, (va.setWidth 32 * vb.setWidth 32).extractLsb' 16 16) := by
  have := mul_lt va vb
  simp only [mulPair, Prod.mk.injEq]
  constructor
  · apply BitVec.eq_of_toNat_eq
    simp
  · apply BitVec.eq_of_toNat_eq
    simp only [BitVec.toNat_ofNat, BitVec.extractLsb'_toNat, BitVec.toNat_mul, BitVec.toNat_setWidth,
      Nat.shiftRight_eq_div_pow]
    have := va.isLt
    have := vb.isLt
    rw [Nat.mod_eq_of_lt (a := va.toNat) (by omega), Nat.mod_eq_of_lt (a := vb.toNat) (by omega)]
    rw [Nat.mod_eq_of_lt (a := va.toNat * vb.toNat) (by omega)]

theorem mliPair_eq (va vb : Word) :
    mliPair va vb = (va * vb, (va.signExtend 32 * vb.signExtend 32).extractLsb' 16 16) := by
  have e : BitVec.ofInt 32 (signed va * signed vb) = va.signExtend 32 * vb.signExtend 32 := by
    rw [signed_eq_toInt, signed_eq_toInt, BitVec.ofInt_mul]
    rfl
  simp only [mliPair, e, Prod.mk.injEq, and_true]
  apply BitVec.eq_of_getLsbD_eq
  intro i hi
  have : (va.signExtend 32 * vb.signExtend 32).setWidth 16 = va * vb := by
    rw [BitVec.setWidth_mul _ _ (by omega)]
    congr 1 <;>
    · apply BitVec.eq_of_getLsbD_eq
      intro i hi
      simp [BitVec.getLsbD_signExtend, hi]
      omega
  rw [← this]
  simp [hi]

/-- The product of two signed Words: its range. -/
theorem signed_mul_bounds (va vb : Word) :
    -1073709056 ≤ va.toInt * vb.toInt ∧ va.toInt * vb.toInt ≤ 1073741824 := by
  have h1 := BitVec.toInt_lt (x := va)
  have h2 := BitVec.le_toInt (x := va)
  have h3 := BitVec.toInt_lt (x := vb)
  have h4 := BitVec.le_toInt (x := vb)
  norm_num at h1 h2 h3 h4
  constructor <;> nlinarith

end Sys2Proof.Machine
end

