-- ==== Sys2Proof/Laws/Accesses.lean ====
section
/-! SUPPORT. Accesses inside memory complete, with the effect of the closed form in Safety.lean; the first
one outside memory faults. -/

namespace Sys2Proof.Machine

/-- R41: an address is inside memory if every address there is lies below `MEM_SIZE`. -/
theorem inside_iff {s : State} {x : Option Word} :
    s.inside x = true ↔ ∀ y, x = some y → y.toNat < s.params.memSize := by
  cases x <;> simp [State.inside]

/-- R125: the descriptor of an operand whose extra Word is `nw`. -/
def descOf (o : Operand) (nw : Word) (s : State) : Desc :=
  match o with
  | .reg r => .reg r
  | .regInd r => .cell (s.reg r)
  | .regNext r => .cell (s.reg r + nw)
  | .stack => .stack
  | .peek => spRelative 0 s
  | .spNext => spRelative nw s
  | .sp => .sp
  | .pc => .pc
  | .ex => .ex
  | .nextInd => .cell nw
  | .nextLit => .lit (encodeOperand o) nw
  | .lit v => .lit (encodeOperand o) v

section
variable {s : State}

@[simp] theorem spRelative_setPc (off v : Word) : spRelative off (s.setPc v) = spRelative off s := (rfl)

/-- Resolving an operand does not change what another one's descriptor is made of. -/
@[simp] theorem descOf_setPc (o : Operand) (nw pc : Word) :
    descOf o nw (s.setPc pc) = descOf o nw s := by
  cases o <;> simp [descOf]

theorem resolve_in (o : Operand) (h : o.needsWord = true → s.pc.toNat < s.params.memSize) :
    resolve o s = .ok (descOf o (wordA s) s) (s.setPc (s.pc + extra o)) := by
  cases o <;> simp [Operand.needsWord] at h <;>
    simp [resolve, descOf, extra, Operand.needsWord, nextWord_in, wordA, h]

theorem resolve_out (o : Operand) (hw : o.needsWord = true)
    (h : s.params.memSize ≤ s.pc.toNat) : resolve o s = .raised (.addressing s.pc.toNat) s := by
  cases o <;> simp [Operand.needsWord] at hw <;>
    simp [resolve, nextWord_out (s := s) (by omega)]

/-- Both resolutions of an instruction. -/
theorem resolve_both (a b : Operand) (h : wordsInside a b s) {α : Type}
    (k : Desc → Desc → State → Micro α) :
    ((resolve a s).bind fun dA s1 => (resolve b s1).bind fun dB s2 => k dA dB s2) =
      k (descOf a (wordA s) s) (descOf b (wordB a s) s) (s.setPc (pcAfter a b s)) := by
  rw [resolve_in a h.1, Micro.ok_bind, resolve_in b h.2, Micro.ok_bind, descOf_setPc]
  rfl

/-- A memory operand is read and written at its effective address. D7 matters only where SP has moved
(R143). -/
theorem readDesc_effAddr {t : State} {o : Operand} {nw x : Word} (hx : effAddr o nw s = some x)
    (ho : s.params.order.addressTime = .atResolve ∨ t.sp = s.sp) :
    readDesc (descOf o nw s) t = memRead x.toNat t := by
  have hr : ∀ off, readDesc (spRelative off s) t = memRead (s.sp + off).toNat t := by
    intro off
    rcases ho with h | h
    · simp [spRelative, h, readDesc]
    · exact readDesc_spRelative h
  cases o <;> cases hx
  case peek => simpa [descOf] using hr 0
  case spNext => exact hr nw
  all_goals rfl

theorem writeDesc_effAddr {t : State} {o : Operand} {nw v x : Word} (hx : effAddr o nw s = some x)
    (ho : s.params.order.addressTime = .atResolve ∨ t.sp = s.sp) :
    writeDesc (descOf o nw s) v t = memWrite x.toNat v t := by
  have hr : ∀ off, writeDesc (spRelative off s) v t = memWrite (s.sp + off).toNat v t := by
    intro off
    rcases ho with h | h
    · simp [spRelative, h, writeDesc]
    · exact writeDesc_spRelative h
  cases o <;> cases hx
  case peek => simpa [descOf] using hr 0
  case spNext => exact hr nw
  all_goals rfl

theorem effAddr_ne_stack {o : Operand} {nw x : Word} (hx : effAddr o nw s = some x) : o ≠ .stack := by
  rintro rfl
  cases hx

theorem readValue_effAddr {o : Operand} {nw x : Word} (hx : effAddr o nw s = some x) (pc sp : Word) :
    readValue o nw pc sp s = s.mem.read x.toNat := by
  cases o <;> cases hx <;> rfl

theorem putValue_effAddr {t : State} {o : Operand} {nw v x : Word} (hx : effAddr o nw s = some x) :
    putValue o nw v s t = t.stored x.toNat v := by
  cases o <;> cases hx <;> rfl

/-- R126 in a state that differs from the resolving state `s` in PC and SP only. -/
theorem readDesc_in (o : Operand) (nw pc sp : Word) (hi : s.inside (readAddr o nw sp s) = true)
    (ho : s.params.order.addressTime = .atResolve ∨ sp = s.sp) :
    readDesc (descOf o nw s) ((s.setPc pc).setSp sp) =
      .ok (readValue o nw pc sp s) ((s.setPc pc).setSp (spAfterRead o sp)) := by
  cases he : effAddr o nw s with
  | some x =>
    have hn := effAddr_ne_stack he
    have hx : x.toNat < s.params.memSize := inside_iff.1 hi x (by simp [readAddr, hn, he])
    rw [readDesc_effAddr he ho, memRead_in (s := (s.setPc pc).setSp sp) hx, readValue_effAddr he]
    simp [spAfterRead, hn]
  | none =>
    cases o <;> simp [effAddr] at he
    case stack =>
      have hx : sp.toNat < s.params.memSize := inside_iff.1 hi sp (by simp [readAddr])
      simp [descOf, readDesc, memRead_in, hx, readValue, spAfterRead]
    all_goals rfl

theorem readDesc_out {x : Word} (o : Operand) (nw pc sp : Word)
    (hx : readAddr o nw sp s = some x) (hi : s.params.memSize ≤ x.toNat)
    (ho : s.params.order.addressTime = .atResolve ∨ sp = s.sp) :
    readDesc (descOf o nw s) ((s.setPc pc).setSp sp) =
      .raised (.addressing x.toNat) ((s.setPc pc).setSp sp) := by
  have hm : memRead x.toNat ((s.setPc pc).setSp sp) =
      .raised (.addressing x.toNat) ((s.setPc pc).setSp sp) :=
    memRead_out (Nat.not_lt.2 hi)
  by_cases hs : o = .stack
  · subst hs
    cases hx
    simp only [descOf, readDesc, State.setSp_sp, hm, Micro.raised_bind]
  · rw [readAddr, if_neg hs] at hx
    rw [readDesc_effAddr hx ho, hm]

/-- R127 in a state `t` whose parameters are those of the resolving state `s`. -/
theorem writeDesc_in {t : State} (ht : t.params = s.params) (o : Operand)
    (hl : o.isLiteral = false) (nw v : Word) (hi : s.inside (writeAddr o nw t.sp s) = true)
    (ho : s.params.order.addressTime = .atResolve ∨ t.sp = s.sp) :
    writeDesc (descOf o nw s) v t = .ok () (putValue o nw v s t) := by
  cases he : effAddr o nw s with
  | some x =>
    have hx : x.toNat < t.params.memSize := by
      rw [ht]
      exact inside_iff.1 hi x (by simp [writeAddr, effAddr_ne_stack he, he])
    rw [writeDesc_effAddr he ho, memWrite_in hx, putValue_effAddr he]
  | none =>
    cases o <;> simp [effAddr] at he <;> try rfl
    case stack =>
      have hx : (t.sp - 1).toNat < (t.setSp (t.sp - 1)).params.memSize := by
        rw [State.setSp_params, ht]
        exact inside_iff.1 hi _ (by simp [writeAddr])
      exact memWrite_in hx
    all_goals cases hl

/-- R127: a store outside memory; a push has moved SP. -/
theorem writeDesc_out {t : State} {x : Word} (ht : t.params = s.params) (o : Operand) (nw v : Word)
    (hx : writeAddr o nw t.sp s = some x) (hi : s.params.memSize ≤ x.toNat)
    (ho : s.params.order.addressTime = .atResolve ∨ t.sp = s.sp) :
    writeDesc (descOf o nw s) v t =
      .raised (.addressing x.toNat) (t.setSp (spAfterWrite o t.sp)) := by
  have hn : ∀ u : State, u.params = s.params →
      memWrite x.toNat v u = .raised (.addressing x.toNat) u :=
    fun u hu => memWrite_out (by rw [hu]; omega)
  by_cases hs : o = .stack
  · subst hs
    cases hx
    exact hn (t.setSp (t.sp - 1)) ht
  · rw [writeAddr, if_neg hs] at hx
    rw [writeDesc_effAddr hx ho, hn t ht, spAfterWrite, if_neg hs]
    rfl

theorem writeDesc_literal {t : State} (o : Operand) (hl : o.isLiteral = true) (nw v : Word) :
    writeDesc (descOf o nw s) v t = .raised (.illegalWrite (encodeOperand o)) t := by
  cases o <;> first | rfl | cases hl

/-! ## The two shapes of an instruction body -/

/-- R160: SET up to its write access, under every order. -/
theorem move_in (a b : Operand) (h : setReadsInside a b s) :
    move a b s =
      writeDesc (descOf a (wordA s) s) (readValue b (wordB a s) (pcAfter a b s) s.sp s)
        ((s.setPc (pcAfter a b s)).setSp (spAfterRead b s.sp)) := by
  unfold move
  rw [resolve_both a b h.1]
  have e : s.setPc (pcAfter a b s) = (s.setPc (pcAfter a b s)).setSp s.sp := rfl
  rw [e, readDesc_in b _ _ _ h.2 (.inr rfl)]
  rfl

theorem move_source_out {x : Word} (a b : Operand) (h : wordsInside a b s)
    (hx : readAddr b (wordB a s) s.sp s = some x) (hi : s.params.memSize ≤ x.toNat) :
    move a b s = .raised (.addressing x.toNat) (s.setPc (pcAfter a b s)) := by
  unfold move
  rw [resolve_both a b h]
  have e : s.setPc (pcAfter a b s) = (s.setPc (pcAfter a b s)).setSp s.sp := rfl
  rw [e, readDesc_out b _ _ _ hx hi (.inr rfl)]
  rfl

/-- R165: the reads of a computing instruction. -/
theorem compute_reads (ho : s.specOrder) (f : Word → Word → Word × Word) (a b : Operand)
    (h : wordsInside a b s) (ha : s.inside (readAddr a (wordA s) s.sp s) = true) :
    compute f a b s =
      (readDesc (descOf b (wordB a s) s)
        ((s.setPc (pcAfter a b s)).setSp (spAfterRead a s.sp))).bind fun vb t =>
          putPair (descOf a (wordA s) s) (f (sourceA a b s) vb) t := by
  have h1 : s.params.order.readOrder = .aThenB := by rw [ho]; rfl
  have h2 : s.params.order.extraWords = .once := by rw [ho]; rfl
  unfold compute
  rw [resolve_both a b h]
  have hA := readDesc_in (s := s) a (wordA s) (pcAfter a b s) s.sp ha (.inr rfl)
  change readDesc _ (s.setPc (pcAfter a b s)) = _ at hA
  unfold readPair
  simp only [State.setPc_params, h1, hA, Micro.ok_bind]
  cases hr : readDesc (descOf b (wordB a s) s)
      ((s.setPc (pcAfter a b s)).setSp (spAfterRead a s.sp)) with
  | raised f u => rfl
  | ok v u =>
    have hu : u.params = s.params := by rw [readDesc_ok hr]; rfl
    simp only [Micro.ok_bind, target, hu, h2]
    rfl

/-- R165: a computing instruction up to its write access. -/
theorem compute_in (ho : s.specOrder) (f : Word → Word → Word × Word) (a b : Operand)
    (h : computeInside a b s) :
    compute f a b s =
      putPair (descOf a (wordA s) s) (f (sourceA a b s) (sourceB a b s)) (afterReads a b s) := by
  have h1 : s.params.order.addressTime = .atResolve := by rw [ho]; rfl
  rw [compute_reads ho f a b h.1 h.2.1, readDesc_in b _ _ _ h.2.2 (.inl h1)]
  rfl

/-- The store of a computing instruction goes where it has read. -/
theorem computeInside_store (a b : Operand) (h : computeInside a b s) :
    s.inside (writeAddr a (wordA s) (afterReads a b s).sp s) = true := by
  obtain ⟨-, ha, hb⟩ := h
  by_cases e : a = .stack
  · subst e
    by_cases e' : b = .stack
    · subst e'
      simpa [writeAddr, readAddr, afterReads, spAfterRead] using hb
    · simpa [writeAddr, readAddr, afterReads, spAfterRead, e'] using ha
  · simpa [writeAddr, readAddr, e] using ha

/-! ## Every access of a machine of 65536 Words is inside memory -/

theorem toNat_lt_full (hm : s.fullMemory) (x : Word) : x.toNat < s.params.memSize := by
  rw [hm]
  exact x.isLt

theorem wordsInside_full (hm : s.fullMemory) (a b : Operand) : wordsInside a b s :=
  ⟨fun _ => toNat_lt_full hm _, fun _ => toNat_lt_full hm _⟩

theorem inside_full (hm : s.fullMemory) (x : Option Word) : s.inside x = true :=
  inside_iff.2 fun y _ => toNat_lt_full hm y

theorem setInside_full (hm : s.fullMemory) (a b : Operand) : setInside a b s :=
  ⟨⟨wordsInside_full hm a b, inside_full hm _⟩, inside_full hm _⟩

theorem computeInside_full (hm : s.fullMemory) (a b : Operand) : computeInside a b s :=
  ⟨wordsInside_full hm a b, inside_full hm _, inside_full hm _⟩

end

end Sys2Proof.Machine
end

