-- ==== Sys2Proof/Laws/Devices.lean ====
section
/-! SUPPORT. What a device's reaction and the Display's rendering can do. -/

namespace Sys2Proof.Machine

section
variable {s t u : State} {d e : Display} {n : Nat} {c : Rgba} {f : Fault}

/-! ## Hardware ids -/

/-- R231: a device keeps its hardware id. -/
@[simp] theorem react_id (x : Device) (sig : Signal) : (react x sig).1.id = x.id := by
  cases x <;> rfl

/-- A change of a device's state keeps every device's id. -/
theorem setDevice_ids {dev : Nat} {x y : Device} (h : s.devices[dev]? = some x) (hid : y.id = x.id) :
    (setDevice dev y s).devices.map Device.id = s.devices.map Device.id := by
  obtain ⟨hlt, rfl⟩ := List.getElem?_eq_some_iff.1 h
  apply List.ext_getElem
  · simp [setDevice]
  · intro n h1 h2
    simp only [setDevice, State.setDevices_devices, List.getElem_map, List.getElem_set]
    split
    · subst_vars
      exact hid
    · rfl

/-! ## The registers of the Display -/

/-- R233: the four registers stand at four offsets. -/
theorem DisplayReg.offset_inj {r q : DisplayReg} (h : r.offset = q.offset) : r = q := by
  have := Config.displayLayout.injective h
  cases r <;> cases q <;> first | rfl | cases this

/-- R233: each offset 0 to 3 is that of a register. -/
theorem DisplayReg.exists_offset (k : Fin 4) : ∃ r : DisplayReg, r.offset = k := by
  obtain ⟨i, rfl⟩ := Config.displayLayout.surjective k
  match i with
  | 0 => exact ⟨.screenBase, rfl⟩
  | 1 => exact ⟨.fontBase, rfl⟩
  | 2 => exact ⟨.paletteBase, rfl⟩
  | 3 => exact ⟨.borderColor, rfl⟩

/-- R233: a write to a register's offset. -/
theorem displayRegister_offset (x : Display) (r : DisplayReg) (v : Word) :
    displayRegister x r.offset v =
      { x with regs := x.regs.set r.offset v, dirty := x.dirty || x.register r != v } := by
  have h : x.regs[(r.offset : Nat)]? = some (x.register r) :=
    Vector.getElem?_eq_getElem r.offset.isLt
  have hs : x.regs.setIfInBounds r.offset v = x.regs.set r.offset v := by
    apply Vector.ext
    intro n hn
    rw [Vector.getElem_setIfInBounds, Vector.getElem_set]
  rw [displayRegister, h, ← hs]

/-! ## A pixel -/

/-- R234: rendering a pixel only reads memory. -/
theorem renderPixel_ok (h : renderPixel d n s = .ok c t) : t = s := by
  obtain ⟨w, u, h1, h⟩ := Micro.bind_eq_ok.1 h
  obtain ⟨r, v, h2, h⟩ := Micro.bind_eq_ok.1 h
  obtain ⟨p, x, h3, h⟩ := Micro.bind_eq_ok.1 h
  cases h
  rw [memRead_ok h3, memRead_ok h2, memRead_ok h1]

/-- R59, R211: rendering a pixel raises AddressingFault only. -/
theorem renderPixel_raised (h : renderPixel d n s = .raised f t) :
    t = s ∧ ∃ x, f = .addressing x ∧ s.params.memSize ≤ x := by
  rcases Micro.bind_eq_raised.1 h with h | ⟨w, u, h1, h⟩
  · exact memRead_raised h
  rw [memRead_ok h1] at h
  rcases Micro.bind_eq_raised.1 h with h | ⟨r, v, h2, h⟩
  · exact memRead_raised h
  rw [memRead_ok h2] at h
  rcases Micro.bind_eq_raised.1 h with h | ⟨p, x, h3, h⟩
  · exact memRead_raised h
  · cases h

/-- A micro-operation's outcome, in another state. -/
def Micro.at {α : Type} (m : Micro α) (u : State) : Micro α :=
  match m with
  | .ok v _ => .ok v u
  | .raised f _ => .raised f u

theorem memRead_at (a : Nat) (hm : u.mem = s.mem) (hp : u.params = s.params) :
    memRead a u = (memRead a s).at u := by
  unfold memRead
  rw [hm, hp]
  split <;> rfl

/-- A pixel depends on the Display's registers and on memory only. -/
theorem renderPixel_at (hr : e.regs = d.regs) (hm : u.mem = s.mem) (hp : u.params = s.params) :
    renderPixel e n u = (renderPixel d n s).at u := by
  have key : ∀ {α : Type} (a : Nat) (k l : Word → State → Micro α),
      (∀ w, k w u = (l w s).at u) →
        (memRead a u).bind k = ((memRead a s).bind l).at u := by
    intro α a k l h
    rw [memRead_at a hm hp]
    cases h1 : memRead a s with
    | ok w t =>
      rw [memRead_ok h1]
      exact h w
    | raised f t => rfl
  unfold renderPixel Display.register
  rw [hr]
  exact key _ _ _ fun w => key _ _ _ fun r => key _ _ _ fun p => rfl

/-! ## The buffer -/

theorem setDevice_setDevice (dev : Nat) (d d' : Device) (s : State) :
    setDevice dev d (setDevice dev d' s) = setDevice dev d s := by
  simp [setDevice]

/-- R234, R216: a rendering completes, with every pixel rendered and the dirty flag cleared if it clears it, or raises
AddressingFault with some pixels rendered and the flag as it was. -/
theorem renderPixels_cases (dev : Nat) (clears : Bool) (todo : Nat) (d : Display) (s : State)
    (ht : todo ≤ pixelCount) :
    (∃ y : Display, renderPixels dev clears todo d s = .ok () (setDevice dev (.display y) s) ∧
      y.regs = d.regs ∧ y.attached = d.attached ∧ y.dirty = (d.dirty && !clears) ∧
      ∀ n (h : n < pixelCount),
        if pixelCount - todo ≤ n then renderPixel d n s = .ok y.pixels[n] s
        else y.pixels[n] = d.pixels[n]) ∨
    ∃ u x n, renderPixels dev clears todo d s = .raised (.addressing x) u ∧
      s.params.memSize ≤ x ∧ n < pixelCount ∧ renderPixel d n s = .raised (.addressing x) s ∧
      (u = s ∨ ∃ y : Display, u = setDevice dev (.display y) s ∧ y.regs = d.regs ∧
        y.attached = d.attached ∧ y.dirty = d.dirty) := by
  induction todo generalizing d s with
  | zero => exact .inl ⟨{ d with dirty := d.dirty && !clears }, rfl, rfl, rfl, rfl, fun n h => by
      rw [if_neg (by omega)]⟩
  | succ todo ih =>
    cases hp : renderPixel d (pixelCount - (todo + 1)) s with
    | raised f u =>
      obtain ⟨rfl, x, rfl, hx⟩ := renderPixel_raised hp
      exact .inr ⟨u, x, _, by simp [renderPixels, hp], hx, by omega, hp, .inl rfl⟩
    | ok c u =>
      obtain rfl := renderPixel_ok hp
      have hstep : renderPixels dev clears (todo + 1) d u =
          renderPixels dev clears todo
            { d with pixels := d.pixels.setIfInBounds (pixelCount - (todo + 1)) c }
            (setDevice dev
              (.display { d with pixels := d.pixels.setIfInBounds (pixelCount - (todo + 1)) c }) u) := by
        simp [renderPixels, hp]
      rw [hstep]
      generalize hE : { d with pixels := d.pixels.setIfInBounds (pixelCount - (todo + 1)) c } = e
      have hr : e.regs = d.regs := by rw [← hE]
      have hat : ∀ n, renderPixel e n (setDevice dev (.display e) u) =
          (renderPixel d n u).at (setDevice dev (.display e) u) :=
        fun n => renderPixel_at hr rfl rfl
      have back : ∀ {n : Nat} {m : Micro Rgba}, m.at u = m →
          (renderPixel d n u).at (setDevice dev (.display e) u) =
            m.at (setDevice dev (.display e) u) → renderPixel d n u = m := by
        intro n m hm h
        cases hd : renderPixel d n u with
        | ok c' v =>
          obtain rfl := renderPixel_ok hd
          rw [hd] at h
          cases m with
          | ok c'' w =>
            cases hm
            cases h
            rfl
          | raised f w => cases h
        | raised f v =>
          obtain ⟨rfl, -⟩ := renderPixel_raised hd
          rw [hd] at h
          cases m with
          | ok c'' w => cases h
          | raised g w =>
            cases hm
            cases h
            rfl
      rcases ih e (setDevice dev (.display e) u) (by omega) with
        ⟨y, h1, h2, h3, h4, h5⟩ | ⟨v, x, n, h1, h2, h3, h4, h5⟩
      · refine .inl ⟨y, by rw [h1, setDevice_setDevice], h2.trans hr, h3.trans (by rw [← hE]), h4.trans (by rw [← hE]),
          fun n h => ?_⟩
        have hn := h5 n h
        by_cases hc : pixelCount - todo ≤ n
        · rw [if_pos hc] at hn
          rw [if_pos (by omega)]
          rw [hat] at hn
          exact back (m := .ok y.pixels[n] u) rfl hn
        · rw [if_neg hc] at hn
          by_cases he : n = pixelCount - (todo + 1)
          · subst he
            rw [if_pos (Nat.le_refl _), hp, hn]
            simp [← hE]
          · rw [if_neg (by omega), hn, ← hE]
            simp [Ne.symm he]
      · refine .inr ⟨v, x, n, h1, h2, h3, ?_, .inr ?_⟩
        · rw [hat] at h4
          exact back (m := .raised (.addressing x) u) rfl h4
        · rcases h5 with rfl | ⟨y, rfl, h6, h7, h8⟩
          · exact ⟨e, rfl, hr, by rw [← hE], by rw [← hE]⟩
          · exact ⟨y, setDevice_setDevice _ _ _ _, h6.trans hr, h7.trans (by rw [← hE]),
              h8.trans (by rw [← hE])⟩

/-- R234: rendering, completed or not, changes nothing but the Display. -/
theorem render_all (dev : Nat) (clears : Bool) (d : Display) (s : State) :
    (render dev clears d s).All fun t =>
      t = s ∨ ∃ y : Display, t = setDevice dev (.display y) s := by
  unfold render
  split
  · split
    · rcases renderPixels_cases dev clears pixelCount d s (Nat.le_refl _) with
        ⟨y, h, -⟩ | ⟨u, x, n, h, -, -, -, hu⟩
      · rw [h]
        exact .inr ⟨_, rfl⟩
      · rw [h]
        exact hu.imp (fun e => e) fun ⟨y, hy, _⟩ => ⟨_, hy⟩
    · exact .inl rfl
  · split
    · exact .inr ⟨_, rfl⟩
    · exact .inl rfl

/-- R59, R211: rendering raises AddressingFault only. -/
theorem render_raised {dev : Nat} {clears : Bool} (h : render dev clears d s = .raised f t) :
    ∃ x, f = .addressing x ∧ s.params.memSize ≤ x := by
  unfold render at h
  split at h
  · split at h
    · rcases renderPixels_cases dev clears pixelCount d s (Nat.le_refl _) with
        ⟨y, h1, -⟩ | ⟨u, x, n, h1, hx, -⟩
      · rw [h1] at h
        cases h
      · rw [h1] at h
        cases h
        exact ⟨x, rfl, hx⟩
    · cases h
  · split at h <;> cases h

/-- Rendering keeps every property that a change of the devices' states, their ids kept, keeps. -/
theorem render_keeps {P : State → Prop}
    (hdev : ∀ v ds, ds.map Device.id = v.devices.map Device.id → P v → P (v.setDevices ds)) (h : P s)
    {dev : Nat} (clears : Bool) (hd : s.devices[dev]? = some (.display d)) :
    (render dev clears d s).All P := by
  have hk : ∀ v, v = s ∨ (∃ y : Display, v = setDevice dev (.display y) s) → P v := by
    rintro v (rfl | ⟨y, rfl⟩)
    · exact h
    · exact hdev s _ (setDevice_ids hd rfl) h
  have hr := render_all dev clears d s
  cases hm : render dev clears d s <;> rw [hm] at hr <;> exact hk _ hr

end

end Sys2Proof.Machine
end

