-- ==== Sys2Proof/Laws/Encoding.lean ====
section
/-! SUPPORT. The parts of the encoding: fields of a packed Word, operand codes, opcode values. -/

namespace Sys2Proof

theorem decodeOperand_encodeOperand (o : Operand) (h : o.wf = true) :
    decodeOperand (encodeOperand o) = o := by
  cases o with
  | reg r => cases r <;> rfl
  | regInd r => cases r <;> rfl
  | regNext r => cases r <;> rfl
  | lit v =>
    have hv : v.toNat < 32 := by simpa [Operand.wf] using h
    have hn : (BitVec.ofNat 6 (0x20 + v.toNat)).toNat = 0x20 + v.toNat := by
      rw [BitVec.toNat_ofNat]
      omega
    simp only [encodeOperand, decodeOperand, hn]
    iterate 11 rw [if_neg (by omega)]
    rw [Nat.add_sub_cancel_left, BitVec.ofNat_toNat, BitVec.setWidth_eq]
  | _ => rfl

theorem encodeOperand_decodeOperand (p : BitVec 6) : encodeOperand (decodeOperand p) = p := by
  revert p
  decide

theorem decodeOperand_wf (p : BitVec 6) : (decodeOperand p).wf = true := by
  revert p
  decide

theorem decodeOpcode_opcodeValue (i : Instr) :
    decodeOpcode (opcodeValue i) i.operandA i.operandB = i := by
  cases i <;> rfl

theorem opcodeValue_decodeOpcode (op : BitVec 4) (a b : Operand) :
    opcodeValue (decodeOpcode op a b) = op := by
  obtain ⟨⟨n, hn⟩⟩ := op
  interval_cases n <;> rfl

/-- The three fields of a packed Word are the ones packed (R72: the terms do not overlap). -/
theorem fields_packWord (op : BitVec 4) (a b : BitVec 6) :
    opcodeField (packWord op a b) = op ∧ fieldA (packWord op a b) = a ∧
      fieldB (packWord op a b) = b := by
  refine ⟨?_, ?_, ?_⟩ <;>
  · apply BitVec.eq_of_getLsbD_eq
    intro i hi
    simp only [opcodeField, fieldA, fieldB, packWord, BitVec.getLsbD_extractLsb',
      BitVec.getLsbD_or, BitVec.getLsbD_shiftLeft, BitVec.getLsbD_setWidth]
    interval_cases i <;> simp

/-- A Word is packed from its three fields (R71: all 16 bits are used). -/
theorem packWord_fields (w : Word) : packWord (opcodeField w) (fieldA w) (fieldB w) = w := by
  apply BitVec.eq_of_getLsbD_eq
  intro i hi
  simp only [opcodeField, fieldA, fieldB, packWord, BitVec.getLsbD_extractLsb',
    BitVec.getLsbD_or, BitVec.getLsbD_shiftLeft, BitVec.getLsbD_setWidth]
  interval_cases i <;> simp

end Sys2Proof
end

