-- ==== Sys2Proof/Laws/Step.lean ====
section
/-! SUPPORT. What a step can do: the cycle, the moves of an activation, the end of `exec`. -/

namespace Sys2Proof.Machine

section
variable {s t : State}

/-- A step that answers a next state: the innermost activation moved, or the CPU did and no fault was
latched. -/
theorem step_next (h : step s = .next t) :
    (∃ f fs, s.agents = f :: fs ∧ conclude (agentMove f (s.setAgents fs)) = .next t) ∨
      (s.agents = [] ∧ s.fault = none ∧ turn s = .next t) := by
  unfold step move1 at h
  split at h
  · unfold cpuMove at h
    split at h
    · cases h
    · exact .inr ⟨‹_›, ‹_›, h⟩
  · exact .inl ⟨_, _, ‹_›, h⟩

/-- The end of a cycle or of a move keeps a property the latch keeps. -/
theorem conclude_next {P : State → Prop} {m : Micro Unit} (h : conclude m = .next t)
    (hm : m.All P) (hl : ∀ u f, P u → P (u.latch f)) : P t := by
  cases m with
  | ok u v => cases h; exact hm
  | raised f v => cases h; exact hl v f hm

theorem signal_eq (dev : Nat) (sig : Signal) (rest : List DevAction) (s : State) :
    (s.devices[dev]? = none ∧ signal dev sig rest s = s) ∨
      ∃ d, s.devices[dev]? = some d ∧ signal dev sig rest s =
        (setDevice dev (react d sig).1 s).setAgents
          (.acts dev ((react d sig).2 ++ rest) :: s.agents) := by
  unfold signal
  split
  · exact .inl ⟨‹_›, rfl⟩
  · exact .inr ⟨_, ‹_›, rfl⟩

/-- R231: being signalled keeps every device's id. -/
@[simp] theorem signal_ids (dev : Nat) (sig : Signal) (rest : List DevAction) (s : State) :
    (signal dev sig rest s).devices.map Device.id = s.devices.map Device.id := by
  rcases signal_eq dev sig rest s with ⟨-, h⟩ | ⟨d, hd, h⟩ <;> rw [h]
  exact setDevice_ids hd (react_id d sig)

/-- R230: the Display renders in one move; any other device is signalled. -/
theorem updateDevice_keeps {P : State → Prop}
    (hdev : ∀ u ds, ds.map Device.id = u.devices.map Device.id → P u → P (u.setDevices ds))
    (hsig : ∀ u dev sig rest, P u → P (signal dev sig rest u)) (h : P s) (dev input : Nat) :
    (updateDevice dev input s).All P := by
  unfold updateDevice
  split
  · exact h
  · exact render_keeps hdev h _ ‹_›
  all_goals exact hsig _ _ _ _ h

/-- R59, R211: the update of a device raises AddressingFault only. -/
theorem updateDevice_raised {dev input : Nat} {e : Fault}
    (h : updateDevice dev input s = .raised e t) :
    ∃ x, e = .addressing x ∧ s.params.memSize ≤ x := by
  unfold updateDevice at h
  split at h
  · cases h
  · exact render_raised h
  all_goals cases h

/-- A device acts: what it did not do yet waits. -/
theorem agentMove_keeps {P : State → Prop} (hP : Stable P)
    (hdev : ∀ u ds, ds.map Device.id = u.devices.map Device.id → P u → P (u.setDevices ds))
    (hsig : ∀ u dev sig rest, P u → P (signal dev sig rest u))
    (hdraw : ∀ u n, P u → P (u.setDraws n)) {f : Frame} (h : P s)
    (hacts : ∀ dev act rest, f = .acts dev (act :: rest) →
      P (s.setAgents (.acts dev rest :: s.agents))) :
    (agentMove f s).All P := by
  cases f with
  | observe hd addr v => exact hsig _ _ _ _ h
  | update dev => exact updateDevice_keeps hdev hsig (hdraw _ _ h) _ _
  | acts dev todo =>
    cases todo with
    | nil => exact h
    | cons act rest =>
      have h' := hacts dev act rest rfl
      cases act with
      | read addr => exact (memRead_keeps h addr).bind fun w u _ hu => hsig _ _ _ _ hu
      | write addr v => exact memWrite_keeps hP h' _ _
      | interrupt msg => exact interrupt_keeps hP h' _
  | pushA msg => exact entryPushA_keeps hP h msg
  | jump msg => exact entryJump_keeps hP h msg
  | exUpdate v => exact hP.ex _ _ h

/-- R211: the move of an activation raises AddressingFault only. -/
theorem agentMove_raised {f : Frame} {e : Fault} (h : agentMove f s = .raised e t) :
    ∃ x, e = .addressing x ∧ s.params.memSize ≤ x := by
  cases f with
  | observe hd addr v => cases h
  | update dev => exact updateDevice_raised (s := s.setDraws (s.draws + 1)) h
  | acts dev todo =>
    cases todo with
    | nil => cases h
    | cons act rest =>
      cases act with
      | read addr =>
        rcases Micro.bind_eq_raised.1 h with h | ⟨w, u, -, h⟩
        · exact (memRead_raised h).2
        · cases h
      | write addr v => exact memWrite_raised (s := s.setAgents (.acts dev rest :: s.agents)) h
      | interrupt msg => exact interrupt_raised (s := s.setAgents (.acts dev rest :: s.agents)) h
  | pushA msg => exact entryPushA_raised h
  | jump msg => cases h
  | exUpdate v => cases h

/-- A cycle keeps every stable property the latch keeps. -/
theorem cycle_keeps {P : State → Prop} (hP : Stable P) (hl : ∀ u f, P u → P (u.latch f))
    (h : P s) (hc : cycle s = .next t) : P t := by
  unfold cycle at hc
  have hn := nextWord_keeps hP h
  split at hc
  · rename_i w u hw
    rw [hw] at hn
    obtain ⟨m, hm, hk⟩ := exec_cases (decode w) u
    rw [hm] at hc
    exact conclude_next hc (hk P hP hn) hl
  · rename_i f u hw
    rw [hw] at hn
    cases hc
    exact hl _ _ hn

/-- A CPU move: a cycle from a state that differs in the turn only, or the end of `exec`. -/
theorem turn_next (h : turn s = .next t) :
    (s.phase = .host ∧ cycle s = .next t) ∨
      (∃ poll, s.phase = .cycles 0 poll ∧ t = endOfExec poll s) ∨
      ∃ n poll, s.phase = .cycles (n + 1) poll ∧ cycle (s.setPhase (.cycles n poll)) = .next t := by
  unfold turn at h
  split at h
  · exact .inl ⟨‹_›, h⟩
  · cases h
    exact .inr (.inl ⟨_, ‹_›, rfl⟩)
  · exact .inr (.inr ⟨_, _, ‹_›, h⟩)

/-- R120: the step of a machine about to run a cycle. -/
theorem step_atCycle (h : s.atCycle) : step s = cycle s.counted := by
  obtain ⟨hf, ha, hp⟩ := h
  unfold step move1 cpuMove turn State.counted
  rw [ha, hf]
  rcases hph : s.phase with _ | ⟨_ | n, p⟩
  · simp
  · exact absurd hph (hp p)
  · simp

@[simp] theorem State.counted_pc : s.counted.pc = s.pc := by unfold State.counted; split <;> rfl
@[simp] theorem State.counted_mem : s.counted.mem = s.mem := by unfold State.counted; split <;> rfl
@[simp] theorem State.counted_params : s.counted.params = s.params := by
  unfold State.counted; split <;> rfl
@[simp] theorem State.counted_agents : s.counted.agents = s.agents := by
  unfold State.counted; split <;> rfl

/-- A fault ends the run: the cycle it was raised in need not be counted off. -/
@[simp] theorem State.counted_setPc_latch (v : Word) (f : Fault) :
    (s.counted.setPc v).latch f = (s.setPc v).latch f := by unfold State.counted; split <;> rfl
@[simp] theorem State.counted_latch (f : Fault) : s.counted.latch f = s.latch f := by
  unfold State.counted; split <;> rfl

/-- Placing an instruction keeps the canonical form. -/
theorem placeAt_wf {m : Memory} (h : m.wf) (pc : Word) (nbits w : Nat) :
    (placeAt pc nbits w m).wf :=
  Memory.write_wf (Memory.write_wf (Memory.write_wf h _ _) _ _) _ _

end

end Sys2Proof.Machine
end

