-- ==== Sys2Proof/Laws/Host.lean ====
section
/-! SUPPORT. What the host's operations can do, and the laws of the bus. -/

namespace Sys2Proof.Machine

section
variable {s t : State} {op : HostOp}

/-- R268, D23: a host operation that has an effect has it on the host's turn. -/
theorem hostStep_next (h : hostStep op s = .next t) :
    s.agents = [] ∧ s.phase = .host ∧ hostMove op s = .next t := by
  unfold hostStep at h
  split at h
  · rename_i hh
    exact ⟨hh.1, hh.2, h⟩
  · cases h

theorem load_ok {o : Nat} {ws : List Word} (h : load o ws s = .ok () t) :
    o + ws.length ≤ s.params.memSize ∧ t = s.setMem (s.mem.copy o ws) := by
  unfold load at h
  split at h
  · cases h
  · cases h
    exact ⟨by omega, rfl⟩

/-- R44: a load that does not fit raises AddressingFault and changes nothing. -/
theorem load_raised {o : Nat} {ws : List Word} {f : Fault} (h : load o ws s = .raised f t) :
    s.params.memSize < o + ws.length ∧ f = .addressing (o + ws.length - 1) ∧ t = s := by
  unfold load at h
  split at h
  · cases h
    exact ⟨by omega, rfl, rfl⟩
  · cases h

/-- R261: the program is loaded and the CPU reset, or the program does not fit. -/
theorem loadAssembly_next {text : List Char} (h : loadAssembly text s = .next t) :
    ∃ ws, assemble text = .ok ws ∧
      ((ws.length ≤ s.params.memSize ∧ t = (s.setMem (s.mem.copy 0 ws)).resetCpu) ∨
       (s.params.memSize < ws.length ∧ t = s.latch (.addressing (ws.length - 1)))) := by
  unfold loadAssembly at h
  split at h
  · cases h
  · rename_i ws hw
    refine ⟨ws, hw, ?_⟩
    cases hl : load 0 ws s with
    | ok u v =>
      obtain ⟨h1, rfl⟩ := load_ok hl
      rw [hl] at h
      cases h
      exact .inl ⟨by omega, rfl⟩
    | raised f v =>
      obtain ⟨h1, rfl, rfl⟩ := load_raised hl
      rw [hl] at h
      cases h
      exact .inr ⟨by omega, by simp⟩

theorem startCycles_next {n : Nat} {poll : Bool} (h : startCycles n poll s = .next t) :
    s.fault = none ∧ t = s.setPhase (.cycles n poll) := by
  unfold startCycles at h
  split at h
  · cases h
  · cases h
    exact ⟨‹_›, rfl⟩

/-- R267, R238: the Display that is found is the device under the Display's id. -/
theorem busDisplay_eq_some {n : Nat} {x : Display} :
    busDisplay s = some (n, x) ↔
      getDevice displayId s = some n ∧ s.devices[n]? = some (.display x) := by
  unfold busDisplay
  split
  · simp_all
  · split <;> simp_all <;> rintro rfl <;> simp_all

/-- R267: rendering on demand keeps what a change of a device's state keeps. -/
theorem renderOnDemand_keeps {P : State → Prop}
    (hdev : ∀ v ds, ds.map Device.id = v.devices.map Device.id → P v → P (v.setDevices ds)) (h : P s) :
    (renderOnDemand s).All P := by
  unfold renderOnDemand
  split
  · exact h
  · rename_i n x hb
    exact render_keeps hdev h _ (busDisplay_eq_some.1 hb).2

/-- R268: the table of what the host can do, for an operation that has an effect. -/
theorem hostMove_next (h : hostMove op s = .next t) :
    (∃ d, op = .registerDevice d ∧ t = registerDevice d s) ∨
    (∃ x hd, op = .watch x hd ∧ hd.dev < s.devices.length ∧
      t = s.setWatch (insertCell x hd s.watch)) ∨
    (∃ text ws, op = .loadAssembly text ∧ assemble text = .ok ws ∧
      ws.length ≤ s.params.memSize ∧ t = (s.setMem (s.mem.copy 0 ws)).resetCpu) ∨
    (∃ n poll, s.fault = none ∧ t = s.setPhase (.cycles n poll)) ∨
    (∃ r v, op = .writeReg r v ∧ t = writeHostReg r (BitVec.ofNat 16 v) s) ∨
    (∃ x v, op = .write x v ∧ x < s.params.memSize ∧ t = s.stored x (BitVec.ofNat 16 v)) ∨
    (∃ o ws, o + ws.length ≤ s.params.memSize ∧ t = s.setMem (s.mem.copy o ws)) ∨
    (∃ dev e, op = .event dev e ∧ dev < s.devices.length ∧ t = signal dev (.event e) [] s) ∨
    (op = .getDisplayPixels ∧ conclude (renderOnDemand s) = .next t) ∨
    (∃ msg, op = .interrupt msg ∧ conclude (interrupt (BitVec.ofNat 16 msg) s) = .next t) ∨
    (∃ x, t = s.latch (.addressing x) ∧ s.params.memSize ≤ x) ∨ t = s ∨
    (∃ dev d, op = .registerAgain dev ∧ s.devices[dev]? = some d ∧ t = putOnBus d.id dev s) := by
  cases op <;> simp only [hostMove] at h
  case registerDevice d =>
    cases h
    exact .inl ⟨d, rfl, rfl⟩
  case registerAgain dev =>
    split at h
    · cases h
      iterate 12 apply Or.inr
      exact ⟨_, _, rfl, ‹_›, rfl⟩
    · cases h
  case watch x hd =>
    split at h
    · cases h
      exact .inr (.inl ⟨x, hd, rfl, ‹_›, rfl⟩)
    · cases h
  case loadAssembly text =>
    obtain ⟨ws, h1, ⟨h2, h3⟩ | ⟨h2, h3⟩⟩ := loadAssembly_next h
    · exact .inr (.inr (.inl ⟨text, ws, rfl, h1, h2, h3⟩))
    · iterate 10 apply Or.inr
      exact .inl ⟨_, h3, by omega⟩
  case run n =>
    obtain ⟨h1, h2⟩ := startCycles_next h
    exact .inr (.inr (.inr (.inl ⟨_, _, h1, h2⟩)))
  case exec n =>
    obtain ⟨h1, h2⟩ := startCycles_next h
    exact .inr (.inr (.inr (.inl ⟨_, _, h1, h2⟩)))
  case writeReg r v =>
    cases h
    exact .inr (.inr (.inr (.inr (.inl ⟨_, _, rfl, rfl⟩))))
  case write x v =>
    by_cases hx : x < s.params.memSize
    · rw [memWrite_in hx] at h
      cases h
      exact .inr (.inr (.inr (.inr (.inr (.inl ⟨_, _, rfl, hx, rfl⟩)))))
    · rw [memWrite_out hx] at h
      cases h
      iterate 10 apply Or.inr
      exact .inl ⟨_, rfl, by omega⟩
  case load o ws =>
    cases hl : load o (ws.map (BitVec.ofNat 16)) s with
    | ok u v =>
      obtain ⟨h1, rfl⟩ := load_ok hl
      rw [hl] at h
      cases h
      exact .inr (.inr (.inr (.inr (.inr (.inr (.inl ⟨_, _, h1, rfl⟩))))))
    | raised f v =>
      obtain ⟨h1, rfl, rfl⟩ := load_raised hl
      rw [hl] at h
      cases h
      iterate 10 apply Or.inr
      exact .inl ⟨_, rfl, by omega⟩
  case event dev e =>
    split at h
    · cases h
      exact .inr (.inr (.inr (.inr (.inr (.inr (.inr (.inl ⟨_, _, rfl, ‹_›, rfl⟩)))))))
    · cases h
  case getDisplayPixels =>
    iterate 8 apply Or.inr
    exact .inl ⟨rfl, h⟩
  case interrupt msg =>
    iterate 9 apply Or.inr
    exact .inl ⟨msg, rfl, h⟩
  case read x =>
    iterate 10 apply Or.inr
    by_cases hx : x < s.params.memSize
    · rw [memRead_in hx] at h
      cases h
      exact .inr (.inl rfl)
    · rw [memRead_out hx] at h
      cases h
      exact .inl ⟨_, rfl, by omega⟩

end

/-! ## The bus -/

theorem mem_busInsert {id : HardwareId} {n : Nat} {b : List (HardwareId × Nat)}
    {p : HardwareId × Nat} (h : p ∈ busInsert id n b) : p.2 = n ∨ p ∈ b := by
  induction b with
  | nil =>
    rw [busInsert, List.mem_singleton] at h
    exact .inl (by rw [h])
  | cons e t ih =>
    obtain ⟨k, d⟩ := e
    simp only [busInsert] at h
    split at h
    · rcases List.mem_cons.1 h with rfl | h
      · exact .inl rfl
      · exact .inr (List.mem_cons_of_mem _ h)
    · rcases List.mem_cons.1 h with rfl | h
      · exact .inr List.mem_cons_self
      · exact (ih h).imp (fun h => h) (List.mem_cons_of_mem _)

/-- R228, R238: a device put on the bus under its own id leaves every id with a device that has it. -/
theorem busInsert_known {id : HardwareId} {n : Nat} {ds : List Device}
    (hn : (ds[n]?).map Device.id = some id) {b : List (HardwareId × Nat)}
    (h : ∀ p ∈ b, (ds[p.2]?).map Device.id = some p.1) :
    ∀ p ∈ busInsert id n b, (ds[p.2]?).map Device.id = some p.1 := by
  induction b with
  | nil =>
    intro p hp
    rw [busInsert, List.mem_singleton] at hp
    rw [hp]
    exact hn
  | cons e t ih =>
    obtain ⟨k, d⟩ := e
    intro p hp
    simp only [busInsert] at hp
    split at hp
    · rename_i hk
      rcases List.mem_cons.1 hp with rfl | hp
      · exact hk ▸ hn
      · exact h p (List.mem_cons_of_mem _ hp)
    · rcases List.mem_cons.1 hp with rfl | hp
      · exact h _ List.mem_cons_self
      · exact ih (fun p hp => h p (List.mem_cons_of_mem _ hp)) p hp

/-- R228, D20: a registered id keeps its place, a new one comes last. -/
theorem busInsert_ids (id : HardwareId) (n : Nat) (b : List (HardwareId × Nat)) :
    (busInsert id n b).map Prod.fst =
      if id ∈ b.map Prod.fst then b.map Prod.fst else b.map Prod.fst ++ [id] := by
  induction b with
  | nil => simp [busInsert]
  | cons e t ih =>
    obtain ⟨k, d⟩ := e
    simp only [busInsert]
    split
    · subst_vars
      simp
    · rename_i hne
      have : ¬ id = k := fun e => hne e.symm
      simp only [List.map_cons, ih]
      split <;> simp_all

theorem lookup_busInsert_same (id : HardwareId) (n : Nat) (b : List (HardwareId × Nat)) :
    (busInsert id n b).lookup id = some n := by
  induction b with
  | nil => simp [busInsert]
  | cons e t ih =>
    obtain ⟨k, d⟩ := e
    simp only [busInsert]
    split
    · subst_vars
      simp
    · rename_i hne
      rw [List.lookup_cons, beq_false_of_ne fun e => hne e.symm]
      exact ih

theorem lookup_busInsert_ne {id k' : HardwareId} (hk : k' ≠ id) (n : Nat)
    (b : List (HardwareId × Nat)) : (busInsert id n b).lookup k' = b.lookup k' := by
  induction b with
  | nil => simp [busInsert, List.lookup_cons, beq_false_of_ne hk]
  | cons e t ih =>
    obtain ⟨k, d⟩ := e
    simp only [busInsert]
    split
    · subst_vars
      simp [List.lookup_cons, beq_false_of_ne hk]
    · simp only [List.lookup_cons, ih]

end Sys2Proof.Machine
end

