-- ==== Sys2Proof/Laws/PerInstr.lean ====
section
/-! SUPPORT. One lemma for each instruction: the bits of its Word that the opcode table fixes. -/

namespace Sys2Proof.Laws.FixedBits

/-- R71, R78: the low four bits of an instruction's Word are its opcode value, whatever its operands. -/
def Statement (i : Instr) : Prop := opcodeField (encode i) = opcodeValue i

theorem holds (i : Instr) : Statement i := (fields_packWord _ _ _).1

theorem opcode0 (a b : Operand) : Statement (.opcode0 a b) := holds _
theorem set (a b : Operand) : Statement (.set a b) := holds _
theorem add (a b : Operand) : Statement (.add a b) := holds _
theorem sub (a b : Operand) : Statement (.sub a b) := holds _
theorem mul (a b : Operand) : Statement (.mul a b) := holds _
theorem mli (a b : Operand) : Statement (.mli a b) := holds _
theorem div (a b : Operand) : Statement (.div a b) := holds _
theorem dvi (a b : Operand) : Statement (.dvi a b) := holds _
theorem mod (a b : Operand) : Statement (.mod a b) := holds _
theorem mdi (a b : Operand) : Statement (.mdi a b) := holds _
theorem and (a b : Operand) : Statement (.and a b) := holds _
theorem bor (a b : Operand) : Statement (.bor a b) := holds _
theorem xor (a b : Operand) : Statement (.xor a b) := holds _
theorem shr (a b : Operand) : Statement (.shr a b) := holds _
theorem asr (a b : Operand) : Statement (.asr a b) := holds _
theorem shl (a b : Operand) : Statement (.shl a b) := holds _

end Sys2Proof.Laws.FixedBits
end

