-- ==== Sys2Proof/Tests/Slice0.lean ====
section
/-! SUPPORT. Tests on fixed values, with expected results from spec/ (95_test_vectors.md V1 to V194, the
source examples S1 to S8), and the witnesses of the hypotheses of the statements. -/

namespace Sys2Proof.Tests

open Sys2Proof.Machine

/-! ## Helpers -/

/-- The start of the spec's vectors: the reset state with Words at 0x0010 and PC there. -/
def base (ws : List Word) : State :=
  { State.reset with mem := Memory.copy [] 0x10 ws, pc := 0x10 }

/-- The same with `MEM_SIZE` = 0x100 (V58 to V64). -/
def small (ws : List Word) : State :=
  { State.construct (Params.ofSize 0x100) (Memory.copy [] 0x10 ws) with pc := 0x10 }

/-- A and B set. -/
def withAB (va vb : Word) (s : State) : State := (s.setReg .a va).setReg .b vb

/-- One memory cell set. -/
def withMem (x : Nat) (v : Word) (s : State) : State := s.setMem (s.mem.write x v)

/-- A look at the state after a step, if it is a next state. -/
def after {α : Type} (o : Host.Outcome State Fault Refusal) (look : State → α) : Option α :=
  match o with
  | .next t => some (look t)
  | .fault _ | .refused _ => none

/-- The steps of a state until its activations are closed, at most `n`. -/
def settle : Nat → State → State
  | 0, s => s
  | n + 1, s =>
    match s.agents with
    | [] => s
    | _ :: _ =>
      match step s with
      | .next t => settle n t
      | .fault _ | .refused _ => s

/-- An observer that is a register of device 0. -/
def port0 : Handler := ⟨0, .register 0⟩

/-- A Display with its registers 0, its buffer of one colour. -/
def screen (dirty attached : Bool) : Display :=
  ⟨#v[0, 0, 0, 0], dirty, Vector.replicate pixelCount fallbackRed, attached⟩

/-- A Display on the bus whose register 0 is watched at 0x9000. -/
def displayed (s : State) : State :=
  { s with devices := [.display (screen false true)], bus := [(displayId, 0)],
           watch := [(0x9000, port0)] }

/-- The registers of device 0, if it is a Display. -/
def displayRegs (s : State) : Option (Vector Word 4) :=
  match s.devices with
  | .display d :: _ => some d.regs
  | _ => none

/-! ## Well-formedness and decoding -/

theorem test_wf_literals : (Instr.set (.lit 31) (.lit 0)).wf = true := by decide
theorem test_ill_formed_a : (Instr.set (.lit 32) (.reg .a)).wf = false := by decide
theorem test_ill_formed_b : (Instr.add (.reg .a) (.lit 0xFFFF)).wf = false := by decide

/-! R71: bits 3:0 opcode, 9:4 operand a, 15:10 operand b, each Word written from the tables of R75 and
R78. -/

theorem test_decode_opcode0 : decode 0b0111110111100000 = .opcode0 .nextInd .nextLit := by decide
theorem test_decode_set : decode 0b0111110000000001 = .set (.reg .a) .nextLit := by decide
theorem test_decode_add : decode 0b0110000110000010 = .add .stack .stack := by decide
theorem test_decode_sub : decode 0b0111010111000011 = .sub .pc .ex := by decide
theorem test_decode_mul : decode 0b0000110010100100 = .mul (.regInd .c) (.reg .x) := by decide
theorem test_decode_mli : decode 0b1111110101110101 = .mli (.regNext .j) (.lit 31) := by decide
theorem test_decode_div : decode 0b0000010000000110 = .div (.reg .a) (.reg .b) := by decide
theorem test_decode_dvi : decode 0b0001000001010111 = .dvi (.reg .z) (.reg .y) := by decide
theorem test_decode_mod : decode 0b0110010110101000 = .mod .spNext .peek := by decide
theorem test_decode_mdi : decode 0b0110110111011001 = .mdi .ex .sp := by decide
theorem test_decode_and : decode 0b0111000001101010 = .and (.reg .i) .pc := by decide
theorem test_decode_bor : decode 0b1000000001111011 = .bor (.reg .j) (.lit 0) := by decide
theorem test_decode_xor : decode 0b0010000011111100 = .xor (.regInd .j) (.regInd .a) := by decide
theorem test_decode_shr : decode 0b0101110100001101 = .shr (.regNext .a) (.regNext .j) := by decide
theorem test_decode_asr : decode 0b0111100111111110 = .asr .nextLit .nextInd := by decide
theorem test_decode_shl : decode 0b1111111111111111 = .shl (.lit 31) (.lit 31) := by decide

/-- V1 to V5: the lengths. -/
theorem test_lengths :
    [0x7C01, 0x9401, 0x0402, 0x79E1, 0x4111].map (fun w : Word => (decode w).length) =
      [2, 1, 1, 3, 3] := by decide

/-- R72 on V21, V49a and V79. -/
theorem test_encode :
    encode (.set (.regInd .a) (.reg .b)) = 0x0481 ∧ encode (.set .peek .stack) = 0x6191 ∧
    encode (.set .nextInd (.lit 7)) = 0x9DE1 := by decide

theorem test_decodeTableWord :
    decodeTableWord 16 0x0402 = some (.add (.reg .a) (.reg .b)) ∧
    decodeTableWord 48 0x10002000079E1 = some (.set .nextInd .nextInd) ∧
    decodeTableWord 8 0x02 = none := by decide

/-- The first step after reset runs the placed instruction: `SET A, 5`. -/
theorem test_withFetchWord :
    after (step (State.reset.withFetchWord 32 0x57C01)) (fun t => (t.reg .a, t.pc)) =
      some (5, 2) := by decide

/-! ## Instructions -/

/-- V49a: `SET PEEK, POP`. -/
theorem test_set_peek_pop :
    after (step (withMem 0xFFFE 0x22 (withMem 0xFFFD 0x11 ((base [0x6191]).setSp 0xFFFD))))
      (fun t => (t.mem.read 0xFFFD, t.sp, t.pc)) = some (0x11, 0xFFFE, 0x11) := by decide

/-- V45: `SET [B+1], [A+2]`, a's extra Word first. -/
theorem test_set_two_words :
    after (step (withMem 0x1002 0x99 (withAB 0x1000 0x2000 (base [0x4111, 1, 2]))))
      (fun t => (t.mem.read 0x2001, t.pc)) = some (0x99, 0x13) := by decide

/-- V80. -/
theorem test_add_carry :
    after (step (withAB 0xFFFF 1 (base [0x0402]))) (fun t => (t.reg .a, t.ex)) =
      some (0, 1) := by decide

/-- V129: `ADD PUSH, PEEK`. -/
theorem test_add_push_peek :
    after (step (withMem 0xFFFE 3 (withMem 0xFFFD 2 ((base [0x6582]).setSp 0xFFFD))))
      (fun t => (t.mem.read 0xFFFD, t.sp, t.ex)) = some (4, 0xFFFD, 0) := by decide

/-- V84. -/
theorem test_sub_borrow :
    after (step (withAB 0 1 (base [0x0403]))) (fun t => (t.reg .a, t.ex)) =
      some (0xFFFF, 0xFFFF) := by decide

/-- V121: `SUB PC, EX`. -/
theorem test_sub_skip :
    after (step ((base [0x75C3]).setEx 0xFFFF)) (fun t => (t.pc, t.ex)) =
      some (0x12, 0xFFFF) := by decide

/-- V89. -/
theorem test_mul_largest :
    after (step (withAB 0xFFFF 0xFFFF (base [0x0404]))) (fun t => (t.reg .a, t.ex)) =
      some (1, 0xFFFE) := by decide

/-- V116: `MUL EX, B`, the high Word replaces the result. -/
theorem test_mul_ex :
    after (step ((withAB 0 0x10 (base [0x05D4])).setEx 0x1000)) (fun t => t.ex) =
      some 1 := by decide

/-- V97. -/
theorem test_mli_most_negative :
    after (step (withAB 0x8000 0x7FFF (base [0x0405]))) (fun t => (t.reg .a, t.ex)) =
      some (0x8000, 0xC000) := by decide

/-- V127: `MLI [A], #2`. -/
theorem test_mli_memory :
    after (step (withMem 0x1000 0xFFFF (withAB 0x1000 0 (base [0x8885]))))
      (fun t => (t.mem.read 0x1000, t.ex)) = some (0xFFFE, 0xFFFF) := by decide

/-- V50, V51 and V140 to V149. -/
theorem test_unknown_opcodes :
    [0x0000, 0x7DE0, 0x0406, 0x0407, 0x0408, 0x0409, 0x040A, 0x040B, 0x040C, 0x040D, 0x040E,
      0x040F].map (fun w : Word =>
        after (step (withAB 6 3 (base [w]))) (fun t => (t.fault, t.pc, t.reg .a))) =
    [0, 0, 6, 7, 8, 9, 10, 11, 12, 13, 14, 15].map (fun n : BitVec 4 =>
      some (some (Fault.unknownOpcode n), 0x11, 6)) := by decide

/-- V56 and V57: `SET #0, POP` and `ADD FFFF, A`. -/
theorem test_illegal_write :
    after (step ((base [0x6201]).setSp 0xFFFE)) (fun t => (t.fault, t.pc, t.sp)) =
      some (some (.illegalWrite 0x20), 0x11, 0xFFFF) ∧
    after (step ((withAB 1 0 (base [0x01F2, 0xFFFF])).setEx 7)) (fun t => (t.fault, t.pc, t.ex)) =
      some (some (.illegalWrite 0x1F), 0x12, 7) := by decide

/-- V60 to V63. -/
theorem test_addressing :
    after (step (small [0x01E1, 0x0100])) (fun t => (t.fault, t.pc)) =
      some (some (.addressing 0x100), 0x12) ∧
    after (step ((withAB 5 0 (small [0x0181])).setSp 0)) (fun t => (t.fault, t.pc, t.sp)) =
      some (some (.addressing 0xFFFF), 0x11, 0xFFFF) ∧
    after (step ((small [0x6001]).setSp 0x100)) (fun t => (t.fault, t.sp)) =
      some (some (.addressing 0x100), 0x100) ∧
    after (step ((withMem 0xFF 0x7C01 (small [])).setPc 0xFF)) (fun t => (t.fault, t.pc)) =
      some (some (.addressing 0x100), 0x100) := by decide

/-! ## Observers, interrupts, runs -/

/-- V70 and V71: the observer of 0x9000 gets the stored Word after the instruction's store. -/
theorem test_observer :
    after (step (withAB 0x1234 0 (displayed (base [0x01E1, 0x9000]))))
      (fun t => (t.mem.read 0x9000, t.agents)) =
      some (0x1234, [.observe port0 0x9000 0x1234]) ∧
    displayRegs (settle 9 ((displayed (base [])).setAgents [.observe port0 0x9000 0x1234])) =
      some #v[0x1234, 0, 0, 0] := by decide

/-- R141 step 8, R221: EX is updated after the observer of the result's cell: `ADD [9000], A`. -/
theorem test_ex_after_observer :
    after (step (withMem 0x9000 0xFFFF (withAB 1 0 (displayed (base [0x01E2, 0x9000])))))
      (fun t => (t.ex, t.agents)) =
      some (0, [.observe port0 0x9000 0, .exUpdate 1]) ∧
    (settle 9 ((displayed (base [])).setAgents [.observe port0 0x9000 0, .exUpdate 1])).ex =
      1 := by decide

/-- V160, V165 and V161: a device's `interrupt`. -/
theorem test_interrupt_entry :
    (let t := settle 9 ((((withAB 0x1111 0 (displayed ((base []).setPc 4))).setIa 0x100)).setAgents
        [.acts 0 [.interrupt 0x10041]])
     (t.pc, t.reg .a, t.sp, t.mem.read 0xFFFE, t.mem.read 0xFFFD)) =
      (0x100, 0x41, 0xFFFD, 4, 0x1111) ∧
    (let t := settle 9 ((displayed (base [])).setAgents [.acts 0 [.interrupt 0x41]])
     (t.pc, t.reg .a, t.sp)) = (0x10, 0, 0xFFFF) := by decide

/-- V163 and V164. -/
theorem test_interrupt_edges :
    (let t := settle 9 ((((withAB 0x1111 0 ((base []).setPc 4)).setIa 0x100).setSp 1).setAgents
        [.acts 0 [.interrupt 0x41]])
     (t.pc, t.sp, t.mem.read 0, t.mem.read 0xFFFF)) = (0x100, 0xFFFF, 4, 0x1111) ∧
    (let t := settle 9 ((((small []).setIa 0x80).setSp 0).setAgents [.acts 0 [.interrupt 0x41]])
     (t.pc, t.sp, t.fault)) = (0x10, 0xFFFF, some (.addressing 0xFFFF)) := by decide

/-- V167, the entry an observer raises inside a store: PC is the address of the next instruction. -/
theorem test_interrupt_in_store :
    (let t := settle 9 ((((withAB 1 2 ((base []).setPc 0x12)).setIa 0x100)).setAgents
        [.acts 0 [.interrupt 7], .exUpdate 5])
     (t.pc, t.reg .a, t.mem.read 0xFFFE, t.mem.read 0xFFFD, t.ex)) =
      (0x100, 7, 0x12, 1, 5) := by decide

/-- V166: the return sequence, its second instruction. -/
theorem test_return :
    after (step (withMem 0xFFFE 4 ((base [0x61C1]).setSp 0xFFFE))) (fun t => (t.pc, t.sp)) =
      some (4, 0xFFFF) := by decide

/-- V193 and V194: the fault ends the run, and the next `run` does nothing. -/
theorem test_run_after_fault :
    after (step (State.reset.setPhase (.cycles 3 true)))
      (fun t => (t.fault, t.pc, t.agents, t.phase)) =
      some (some (.unknownOpcode 0), 1, [], .host) ∧
    after (hostStep (.run 5) (State.reset.latch (.unknownOpcode 0))) (fun t => t.pc) = none := by
  decide

/-- V192: `run(0)` and then the poll. -/
theorem test_run_zero :
    after (step ((displayed (base [])).setPhase (.cycles 0 true))) (fun t => (t.agents, t.pc)) =
      some ([.update 0], 0x10) := by decide

/-! ## Host and assembler -/

/-- V74 and V76: the last registered observer counts; `load` calls none. -/
theorem test_watch_and_load :
    after (hostStep (.watch 0x9000 ⟨0, .window⟩) (displayed (base []))) (fun t => t.watch) =
      some [(0x9000, ⟨0, .window⟩)] ∧
    after (hostStep (.load 0x8FFF [1, 2, 3]) (displayed (base [])))
      (fun t => (t.mem.read 0x9000, t.agents)) = some (2, []) := by decide

/-- V75: a host write of a 17-bit integer. -/
theorem test_host_write :
    after (hostStep (.write 0x9000 0x12345) (displayed (base [])))
      (fun t => (t.mem.read 0x9000, t.agents)) =
      some (0x2345, [.observe port0 0x9000 0x2345]) := by decide

/-- R33, R41, R44: a host write and a `load` outside memory latch AddressingFault and store nothing. -/
theorem test_host_write_outside :
    after (hostStep (.write 0x100 5) (small [])) (fun t => (t.fault, t.mem)) =
      some (some (.addressing 0x100), []) ∧
    after (hostStep (.load 0xFE [1, 2, 3]) (small [])) (fun t => (t.fault, t.mem)) =
      some (some (.addressing 0x100), []) := by decide

/-- R222, R232: an interrupt the host injects without a device. -/
theorem test_host_interrupt :
    after (hostStep (.interrupt 0x10041) ((withAB 0x1111 0 ((base []).setPc 4)).setIa 0x100))
      (fun t => (t.pc, t.reg .a, t.sp, t.mem.read 0xFFFE, t.mem.read 0xFFFD)) =
      some (0x100, 0x41, 0xFFFD, 4, 0x1111) := by decide

/-- S6: a later device with the same id takes the place of the first. -/
theorem test_registerDevice :
    after (hostStep (.registerDevice (.other displayId []))
      { displayed (base []) with bus := [(displayId, 0), (keyboardId, 3)] }) (fun t => t.bus) =
      some [(displayId, 1), (keyboardId, 3)] := by decide

/-- R229, R238: a Keyboard and a Clock are found by their ids. -/
theorem test_hardwareIds :
    after (hostStep (.registerDevice (.keyboard default)) (displayed (base [])))
      (fun t => (getDevice 0x30cf7406 t, getDevice 0x7349f615 t)) = some (some 1, some 0) ∧
    after (hostStep (.registerDevice (.clock default)) (base [])) (getDevice 0x12d0b402) =
      some (some 0) := by decide

/-- R228, R229: a replaced device registered again is the one its id finds. -/
theorem test_registerAgain :
    after (hostStep (.registerAgain 0)
      { displayed (base []) with bus := [(displayId, 7), (keyboardId, 3)] }) (fun t => t.bus) =
      some [(displayId, 0), (keyboardId, 3)] := by decide

/-- V190: `loadAssembly` resets and leaves the cell beyond the program. -/
theorem test_loadAssembly :
    after (hostStep (.loadAssembly "SET A, 5".toList)
      (withMem 2 0xCCCC ((withAB 9 0 (base [])).latch (.unknownOpcode 0))))
      (fun t => ([t.mem.read 0, t.mem.read 1, t.mem.read 2, t.reg .a, t.pc], t.fault)) =
      some ([0x7C01, 5, 0xCCCC, 0, 0], none) := by decide

/-- V179, V180, V182 and V186. -/
theorem test_assembler_failures :
    assemble "FOO A, B".toList = .error (.unknownMnemonic "FOO".toList) ∧
    assemble "SET A, nowhere".toList = .error (.undefinedLabel "nowhere".toList) ∧
    assemble "IFE A, B".toList = .error (.noEncoding "IFE".toList) ∧
    assemble ":a\nSET A, 1\n:a".toList = .error (.duplicateLabel "a".toList) := by decide

/-- S2: a forward reference. -/
theorem test_assembler_label :
    assemble "SET A, [:end]\nSET B, 0x10\n:end\nSET PC, end".toList =
      .ok [0x7801, 4, 0x7C11, 0x10, 0x7DC1, 4] := by decide

/-- V173, V174, V176 to V178, V172. -/
theorem test_assembler_operands :
    assemble "SET [0x100], A\nSET X, [J]\nADD SP, EX".toList =
      .ok [0x01E1, 0x100, 0x3C31, 0x75B2] ∧
    assemble "SET A, [SP] ; a comment\n\nSET [SP], A\nSET A, 65536".toList =
      .ok [0x8C01, 0x0231, 0x7C01, 0] := by decide

/-! ## Witnesses

For each statement with hypotheses, states and operands that meet them, at the boundaries of its clauses.
`full` is a machine of 65536 Words, `low` one of 0x100 Words. -/

/-- A machine of 65536 Words with an observer at 0x9000, at PC 0xFFFF: its extra Words wrap to 0. -/
def full : State :=
  { displayed (State.reset.setMem [(0, 0x9000), (1, 0x8FFF)]) with pc := 0xFFFF, sp := 0, ia := 0x100 }

/-- A machine of 0x100 Words with PC, SP and A at its last Word, which holds `w`. -/
def low (w : Word) : State :=
  { State.construct (Params.ofSize 0x100) (Memory.write [] 0xFF w) with
    pc := 0xFF, sp := 0xFF, regs := ⟨0xFF, 0, 0, 0, 0, 0, 0, 0⟩ }

/-- The same with PC, SP and A just beyond the last Word. -/
def beyond : State := { low 0 with pc := 0x100, sp := 0x100, regs := ⟨0x100, 0, 0, 0, 0, 0, 0, 0⟩ }

theorem atCycle_host {s : State} (hf : s.fault = none) (ha : s.agents = []) (hp : s.phase = .host) :
    s.atCycle := ⟨hf, ha, fun _ h => by rw [hp] at h; cases h⟩

theorem witness_DecodeEncodeRoundTrip : (Instr.shl (.lit 31) (.lit 0)).wf = true := by decide

theorem witness_StepRunsTheDecodedInstruction :
    (low 0x0402).atCycle ∧ (low 0x0402).pc.toNat < (low 0x0402).params.memSize :=
  ⟨atCycle_host rfl rfl rfl, by decide⟩

theorem witness_FetchOutsideMemoryLatches :
    beyond.atCycle ∧ beyond.params.memSize ≤ beyond.pc.toNat :=
  ⟨atCycle_host rfl rfl rfl, by decide⟩

theorem witness_LatchedFaultStopsTheCpu :
    let s := full.latch (.addressing 0x10000)
    s.fault = some (.addressing 0x10000) ∧ s.agents = [] ∧ s.phase = .host := by decide

theorem witness_CyclesAreCountedOff_begin :
    full.fault = none ∧ full.agents = [] ∧ full.phase = .host := by decide

theorem witness_CyclesAreCountedOff_last :
    ∃ t, (full.setPhase (.cycles 1 true)).fault = none ∧
      (full.setPhase (.cycles 1 true)).agents = [] ∧
      step ((withMem 0xFFFF 0x0001 full).setPhase (.cycles 1 true)) = .next t ∧
      t.fault = none :=
  ⟨_, rfl, rfl, rfl, by decide⟩

theorem witness_EndOfRunPollsEveryDevice :
    (full.setPhase (.cycles 0 true)).fault = none ∧ (full.setPhase (.cycles 0 true)).agents = [] ∧
      (full.setPhase (.cycles 0 true)).phase = .cycles 0 true ∧
      (full.setPhase (.cycles 0 false)).phase = .cycles 0 false := by decide

/-- A move that opens an activation, and one that faults. -/
theorem witness_ActivationsNest :
    (∃ t, ((low 0).setAgents [.acts 0 [.write 0x100 1], .jump 1]).agents =
        [.acts 0 [.write 0x100 1], .jump 1] ∧
      step ((low 0).setAgents [.acts 0 [.write 0x100 1], .jump 1]) = .next t) ∧
    ∃ t, (full.setAgents [.acts 0 [.interrupt 1], .exUpdate 1]).agents =
        [.acts 0 [.interrupt 1], .exUpdate 1] ∧
      step (full.setAgents [.acts 0 [.interrupt 1], .exUpdate 1]) = .next t :=
  ⟨⟨_, rfl, rfl⟩, _, rfl, rfl⟩

theorem witness_OpcodesWithoutSemantics (a b : Operand) :
    (Instr.shl a b, (0xF : BitVec 4)) ∈ [(Instr.opcode0 a b, (0x0 : BitVec 4)), (.div a b, 0x6),
      (.dvi a b, 0x7), (.mod a b, 0x8), (.mdi a b, 0x9), (.and a b, 0xA), (.bor a b, 0xB),
      (.xor a b, 0xC), (.shr a b, 0xD), (.asr a b, 0xE), (.shl a b, 0xF)] := by simp

theorem witness_OpcodeZeroFaultsPastItsWord :
    (low 0x7DE0).atCycle ∧ (low 0x7DE0).pc.toNat < (low 0x7DE0).params.memSize ∧
      opcodeField ((low 0x7DE0).mem.read (low 0x7DE0).pc.toNat) = 0 :=
  ⟨atCycle_host rfl rfl rfl, by decide⟩

theorem witness_DeclaredOpcodesFaultPastTheirWord :
    (low 0x0406).atCycle ∧ (low 0x0406).pc.toNat < (low 0x0406).params.memSize ∧
      6 ≤ (opcodeField ((low 0x0406).mem.read (low 0x0406).pc.toNat)).toNat :=
  ⟨atCycle_host rfl rfl rfl, by decide⟩

/-- Every clause of SetReadsEverySource at the last Word of memory; its extra Word is 0 or 0xFF. -/
theorem witness_SetReadsEverySource :
    ((low 0).reg .a).toNat < (low 0).params.memSize ∧ (low 0).pc.toNat < (low 0).params.memSize ∧
      ((low 0).reg .a + wordA (low 0)).toNat < (low 0).params.memSize ∧
      (low 0).sp.toNat < (low 0).params.memSize ∧
      ((low 0).sp + wordA (low 0)).toNat < (low 0).params.memSize ∧
      (wordA (low 0xFF)).toNat < (low 0xFF).params.memSize ∧ (31 : Word).toNat < 32 := by decide

theorem witness_SetWritesEveryDestination :
    (beyond.sp - 1).toNat < beyond.params.memSize ∧
      ((low 0).reg .a).toNat < (low 0).params.memSize ∧ (low 0).pc.toNat < (low 0).params.memSize ∧
      ((low 0).reg .a + wordA (low 0)).toNat < (low 0).params.memSize ∧
      ((low 0).sp + wordA (low 0)).toNat < (low 0).params.memSize ∧
      (wordA (low 0xFF)).toNat < (low 0xFF).params.memSize := by decide

/-- SET, ADD, SUB, MUL and MLI complete: PUSH with SP 0 on `full`; every memory form at the last Word of
`low`, whose extra Word is 0. -/
theorem witness_Completes :
    setInside .stack .nextLit full ∧ computeInside .stack .stack full ∧
      setInside .nextInd .nextInd (full.setPc 0xFFFE) ∧
      setInside .spNext .stack (low 0) ∧ setInside (.regNext .a) .peek (low 0) ∧
      computeInside .peek (.regInd .a) (low 0) ∧ computeInside .spNext .stack (low 0) ∧
      full.specOrder ∧ (low 0).specOrder ∧
      ∀ a ∈ [Operand.stack, .nextInd, .spNext, .regNext .a, .peek], a.isLiteral = false := by decide

/-- Extra Words at 0xFF and 0x100, sources [R+n] and [SP+n] at 0x100, and two pops from 0xFF. -/
theorem witness_SourceOutsideMemoryLatches :
    (Operand.needsWord .nextLit = true ∧ beyond.params.memSize ≤ beyond.pc.toNat) ∧
    ((low 0).pc.toNat < (low 0).params.memSize ∧
      (low 0).params.memSize ≤ ((low 0).pc + extra .nextInd).toNat) ∧
    (∀ b ∈ [Operand.regNext .a, .spNext], wordsInside (.reg .b) b (low 1) ∧
      readAddr b (wordB (.reg .b) (low 1)) (low 1).sp (low 1) = some 0x100 ∧
      readAddr b (wordA (low 1)) (low 1).sp (low 1) = some 0x100) ∧
    (∀ b ∈ [Operand.regInd .a, .stack, .peek], wordsInside .pc b beyond ∧
      readAddr b (wordB .pc beyond) beyond.sp beyond = some 0x100) ∧
    (wordsInside .stack .stack (low 0) ∧
      (low 0).inside (readAddr .stack (wordA (low 0)) (low 0).sp (low 0)) ∧
      readAddr .stack (wordB .stack (low 0)) (spAfterRead .stack (low 0).sp) (low 0) =
        some 0x100) ∧
    (low 0).specOrder ∧ (low 0).params.memSize ≤ (0x100 : Word).toNat := by decide

/-- [R+n] and [SP+n] at 0x100, a push from SP 0, a push after a pop, and [SP] before a pop. -/
theorem witness_DestinationOutsideMemoryLatches :
    (Operand.needsWord .spNext = true ∧ beyond.params.memSize ≤ beyond.pc.toNat) ∧
    (∀ a ∈ [Operand.regNext .a, .spNext], setReadsInside a .stack (low 1) ∧
      writeAddr a (wordA (low 1)) (spAfterRead .stack (low 1).sp) (low 1) = some 0x100) ∧
    (setReadsInside .stack .pc ((low 0).setSp 0) ∧
      writeAddr .stack 0 (spAfterRead .pc 0) ((low 0).setSp 0) = some 0xFFFF) ∧
    (setReadsInside .peek .ex beyond ∧
      writeAddr .peek (wordA beyond) (spAfterRead .ex beyond.sp) beyond = some 0x100) ∧
    (low 1).specOrder ∧ (low 1).params.memSize ≤ (0x100 : Word).toNat := by decide

theorem witness_LiteralDestinationLatchesIllegalWrite :
    setReadsInside (.lit 0) .stack (low 0) ∧ setReadsInside .nextLit .peek (low 0) ∧
      (low 0).specOrder ∧ Operand.isLiteral .nextLit = true ∧
      Operand.isLiteral (.lit 0) = true ∧
      Instr.mli (.lit 0) .stack ∈ [Instr.set (.lit 0) .stack, .add (.lit 0) .stack,
        .sub (.lit 0) .stack, .mul (.lit 0) .stack, .mli (.lit 0) .stack] := by decide

/-- The extra Word of `full` at 0 is 0x9000, a watched address; PUSH, PEEK and [R] reach it too. -/
theorem witness_ExIsUpdatedAfterTheObserver :
    let s := ((full.setPc 0).setSp 0x9000).setReg .a 0x9000
    (∀ a ∈ [Operand.nextInd, .stack, .peek, .regInd .a], computeInside a .pc s ∧
      writeAddr a (wordA s) (afterReads a .pc s).sp s = some 0x9000) ∧
    s.specOrder ∧ lookupCell (0x9000 : Word).toNat s.watch = some port0 ∧
      (Instr.sub .peek .pc, subPair 1 2) ∈ [(Instr.add .peek .pc, addPair 1 2),
        (.sub .peek .pc, subPair 1 2), (.mul .peek .pc, mulPair 1 2),
        (.mli .peek .pc, mliPair 1 2)] ∧
      (s.setAgents [.exUpdate 1]).agents = [.exUpdate 1] := by decide

theorem witness_SubPcExSkipsOnBorrow :
    (full.setEx 0).ex = 0 ∧ (full.setEx 0xFFFF).ex = 0xFFFF ∧ full.pc = 0xFFFF := by decide

theorem witness_ImplementedInstructionsRegisterFrame :
    ∃ t, exec (.add .stack .stack) full = .next t ∧ full.fault = none ∧ t.fault = none :=
  ⟨_, rfl, by decide, by decide⟩

/-- `SET [next word], POP` on `full`: the store goes to 0x9000 and no other cell. -/
theorem witness_SetMemoryFrame :
    ∃ dA dB v s1 s2 s3 t, resolve .nextInd (full.setPc 0) = .ok dA s1 ∧
      resolve .stack s1 = .ok dB s2 ∧ readDesc dB s2 = .ok v s3 ∧
      exec (.set .nextInd .stack) (full.setPc 0) = .next t ∧ storeAddr dA s3 = some 0x9000 :=
  ⟨_, _, _, _, _, _, _, rfl, rfl, rfl, rfl, rfl⟩

theorem witness_ComputeMemoryFrame :
    ∃ dA dB d v s1 s2 s3 s4 t, resolve .stack full = .ok dA s1 ∧ resolve .stack s1 = .ok dB s2 ∧
      readPair dA dB s2 = .ok v s3 ∧ target .stack dA s3 = .ok d s4 ∧
      exec (.mul .stack .stack) full = .next t ∧ storeAddr d s4 = some 1 :=
  ⟨_, _, _, _, _, _, _, _, _, rfl, rfl, rfl, rfl, rfl, rfl⟩

/-- An instruction that latches each of the three faults. -/
theorem witness_FaultsAnInstructionCanLatch :
    (∃ t, exec (.shl .sp .pc) full = .next t ∧ t.fault = some (.unknownOpcode 0xF)) ∧
    (∃ t, exec (.set .nextLit .pc) full = .next t ∧ t.fault = some (.illegalWrite 0x1F)) ∧
    (∃ t, exec (.add .stack .stack) (low 0) = .next t ∧ t.fault = some (.addressing 0x100)) ∧
    full.fault = none ∧ (low 0).fault = none :=
  ⟨⟨_, rfl, by decide⟩, ⟨_, rfl, by decide⟩, ⟨_, rfl, by decide⟩, by decide⟩

theorem witness_FaultingInstructionStoresNothing :
    ∃ t, (low 0).fault = none ∧ exec (.add .stack .stack) (low 0) = .next t ∧ t.fault ≠ none :=
  ⟨_, rfl, rfl, by decide⟩

theorem witness_WriteAccessChangesOneThing :
    (∃ t, writeDesc (.reg .j) 7 (low 0) = .ok () t) ∧ (∃ t, writeDesc .sp 7 (low 0) = .ok () t) ∧
    (∃ t, writeDesc .pc 7 (low 0) = .ok () t) ∧ (∃ t, writeDesc .ex 7 (low 0) = .ok () t) ∧
    (∃ t, writeDesc .stack 7 beyond = .ok () t) ∧
    (∃ t, writeDesc (.cell 0xFF) 7 (low 0) = .ok () t) ∧
    ∃ t, writeDesc (.spCell 0) 7 (low 0) = .ok () t :=
  ⟨⟨_, rfl⟩, ⟨_, rfl⟩, ⟨_, rfl⟩, ⟨_, rfl⟩, ⟨_, rfl⟩, ⟨_, rfl⟩, ⟨_, rfl⟩⟩

theorem witness_PopUndoesPush : full.fullMemory ∧ full.sp = 0 := by decide

/-- The two clauses about a memory access, at `MEM_SIZE` and `MEM_SIZE` - 1. -/
theorem witness_MemReadAndMemWrite :
    (low 0).params.memSize ≤ 0x100 ∧ 0xFF < (low 0).params.memSize ∧ (low 0).agents = [] ∧
      (low 0).phase = .host := by decide

theorem witness_BoundsOfMemory :
    (Params.ofSize 1).legal ∧ (Params.ofSize 65536).legal ∧ full.fullMemory ∧
      full.agents = [] ∧ full.phase = .host ∧ full.params.memSize ≤ 65536 ∧
      65535 < full.params.memSize := by decide

theorem witness_WatchReplacesAndNothingRemoves :
    full.agents = [] ∧ full.phase = .host ∧ port0.dev < full.devices.length ∧
      (lookupCell 0x9000 full.watch).isSome = true ∧
      (∃ t, hostStep (.watch 0x9000 ⟨0, .window⟩) full = .next t) ∧
      (∃ t, step full = .next t) ∧ (low 0).params.memSize ≤ 0x100 :=
  ⟨by decide, by decide, by decide, by decide, ⟨_, rfl⟩, ⟨_, rfl⟩, by decide⟩

/-- An observer; a Keyboard at its update and at an event; each action, at the last Word and just beyond;
the end of the actions. -/
theorem witness_ObserverIsItsDeviceToldOfTheWrite :
    let typing := { low 0 with devices := [.keyboard default] }
    (full.setAgents [.observe port0 0x9000 5]).agents = .observe port0 0x9000 5 :: [] ∧
      full.devices[port0.dev]? = some (.display (screen false true)) ∧
      typing.devices[0]? = some (.keyboard default) ∧
      (∀ x, Device.keyboard default ≠ .display x) ∧
      (typing.setAgents [.update 0]).agents = .update 0 :: [] ∧
      typing.agents = [] ∧ typing.phase = .host ∧
      (typing.setAgents [.acts 0 [.read 0xFF]]).agents = .acts 0 (.read 0xFF :: []) :: [] ∧
      (typing.setAgents [.acts 0 [.write 0xFF 5]]).agents = .acts 0 (.write 0xFF 5 :: []) :: [] ∧
      (typing.setAgents [.acts 0 [.interrupt 5]]).agents = .acts 0 (.interrupt 5 :: []) :: [] ∧
      (typing.setAgents [.acts 0 []]).agents = .acts 0 [] :: [] ∧
      0xFF < typing.params.memSize ∧ typing.params.memSize ≤ 0x100 :=
  ⟨rfl, rfl, rfl, fun _ => Device.noConfusion, rfl, rfl, rfl, rfl, rfl, rfl, rfl, by decide,
    by decide⟩

theorem witness_InterruptDisabledDoesNothing : (full.setIa 0).ia = 0 := by decide

/-- SP 0: the two pushes go to 0xFFFF and 0xFFFE. -/
theorem witness_InterruptEntryPushesPcThenA :
    full.ia ≠ 0 ∧ (full.sp - 1).toNat < full.params.memSize ∧
      (full.sp - 2).toNat < full.params.memSize ∧
      lookupCell (full.sp - 1).toNat full.watch = none ∧
      lookupCell (full.sp - 2).toNat full.watch = none ∧ full.agents = [] ∧
      full.phase = .host := by decide

/-- The first push to the watched cell, the second, and waiting frames with the push of A at it, beside
it and outside memory. -/
theorem witness_InterruptEntryWaitsForAnObserver :
    let first := full.setSp 0x9001
    let second := full.setSp 0x9002
    first.ia ≠ 0 ∧ (first.sp - 1).toNat < first.params.memSize ∧
      lookupCell (first.sp - 1).toNat first.watch = some port0 ∧
      lookupCell (second.sp - 1).toNat second.watch = none ∧
      (second.sp - 2).toNat < second.params.memSize ∧
      lookupCell (second.sp - 2).toNat second.watch = some port0 ∧
      (first.setAgents [.pushA 1]).agents = .pushA 1 :: [] ∧
      (first.setAgents [.jump 1]).agents = .jump 1 :: [] ∧
      ((low 0).setSp 0).params.memSize ≤ (((low 0).setSp 0).sp - 1).toNat := by decide

/-- SP 0 faults at the first push, SP 1 at the second. -/
theorem witness_InterruptEntryFaults :
    let s := (low 0).setIa 1
    s.ia ≠ 0 ∧ (s.setSp 0).params.memSize ≤ ((s.setSp 0).sp - 1).toNat ∧
      ((s.setSp 1).sp - 1).toNat < (s.setSp 1).params.memSize ∧
      (s.setSp 1).params.memSize ≤ ((s.setSp 1).sp - 2).toNat ∧
      lookupCell ((s.setSp 1).sp - 1).toNat (s.setSp 1).watch = none := by decide

theorem witness_ReturnSequenceUndoesEntry :
    ∃ t, full.fullMemory ∧ full.ia ≠ 0 ∧ lookupCell (full.sp - 1).toNat full.watch = none ∧
      lookupCell (full.sp - 2).toNat full.watch = none ∧ interrupt 0xFFFF full = .ok () t :=
  ⟨_, by decide, by decide, by decide, by decide, rfl⟩

/-- A state in good order with an observer, a device, a bus entry and open activations. -/
theorem full_inv :
    (full.setAgents [.observe port0 0x9000 5, .acts 0 [.interrupt 1], .pushA 2]).Inv := by
  constructor <;> decide

theorem witness_StepKeepsTheInvariant :
    ∃ t, step (full.setAgents [.observe port0 0x9000 5, .acts 0 [.interrupt 1], .pushA 2]) =
      .next t := ⟨_, rfl⟩

theorem full_quiet_inv : full.Inv := by constructor <;> decide

theorem witness_HostOperationKeepsTheInvariant :
    ∃ t, hostStep (.write 0x9000 5) full = .next t ∧ t.agents ≠ [] := ⟨_, rfl, by decide⟩

theorem witness_NoStepChangesIaObserversOrBus : ∃ t, step full = .next t := ⟨_, rfl⟩

theorem witness_OnlyTheHostWritesIa :
    (∃ t, hostStep (.writeReg .ia 0x1FFFF) full = .next t) ∧
      ∃ t, hostStep (.loadAssembly []) full = .next t := ⟨⟨_, rfl⟩, ⟨_, rfl⟩⟩

/-- `load` of three Words at 0xFE and at 0xFD of a memory of 0x100 Words (V77, V78). -/
theorem witness_LoadCopiesAllOrNothing :
    (low 0).params.memSize < 0xFE + [1, 2, 3].length ∧
      0xFD + [1, 2, 3].length ≤ (low 0).params.memSize ∧
      [(1 : Word), 2, 3][2]? = some 3 ∧ [1, 2, 0x10003][2]? = some 0x10003 ∧
      (low 0).agents = [] ∧ (low 0).phase = .host := by decide

/-- A program of two Words, in memories of 65536 Words and of one. -/
theorem witness_LoadAssemblyLoadsThenResets :
    full.agents = [] ∧ full.phase = .host ∧ assemble "SET A, 5".toList = .ok [0x7C01, 5] ∧
      [0x7C01, 5].length ≤ full.params.memSize ∧
      full.params.reset = ResetRegs.spec full.params.reset.sp ∧
      (State.construct (Params.ofSize 1) []).params.memSize < [0x7C01, 5].length ∧
      assemble "FOO A, B".toList = .error (.unknownMnemonic "FOO".toList) := by decide

theorem witness_HostHasNoMoveDuringARun :
    (full.setAgents [.jump 0]).agents ≠ [] ∧ (full.setPhase (.cycles 0 true)).phase ≠ .host := by
  decide

/-- A new id and one the bus has. -/
theorem witness_RegisterDeviceReplacesById :
    full.agents = [] ∧ full.phase = .host ∧ keyboardId ≠ displayId ∧
      keyboardId ∉ full.bus.map Prod.fst ∧ displayId ∈ full.bus.map Prod.fst ∧
      (full.devices[0]?).isSome = true := by decide

/-- Every Display, clean or dirty, with or without a memory reference, at its update and on the bus, and a
machine without one. -/
theorem witness_DisplayRegistersAndDirtyFlag (dirty attached : Bool) :
    DisplayReg.borderColor ≠ .screenBase ∧
    let s := { full with
      devices := [.display (screen dirty attached)], agents := [Frame.update 0] }
    s.agents = .update 0 :: [] ∧
      s.devices[0]? = some (.display (screen dirty attached)) ∧
      (screen dirty attached).dirty = dirty ∧ (screen dirty attached).attached = attached ∧
      getDevice displayId (s.setAgents []) = some 0 ∧
      (s.setAgents []).agents = [] ∧ (s.setAgents []).phase = .host ∧
      getDevice displayId State.reset = none :=
  ⟨by decide, rfl, rfl, rfl, rfl, rfl, rfl, rfl, rfl⟩

/-- A new key and a held one, whatever the held keys are told apart by, and a Keyboard with a deferred
interrupt at its update. -/
theorem witness_KeyboardHeldKeysAndFifo (key : Nat) (code : Word) :
    heldKey key code ∉ (⟨[], [], some 1, []⟩ : Keyboard).held ∧
      heldKey key code ∈ (⟨[], [heldKey key code], none, []⟩ : Keyboard).held ∧
      (⟨[], [], some 1, []⟩ : Keyboard).fifo.length ≤ Config.keyboardSpare ∧
      let s := { full with
        devices := [.keyboard ⟨[], [], none, [1, 2]⟩], agents := [Frame.update 0] }
      s.agents = .update 0 :: [] ∧
        s.devices[0]? = some (.keyboard ⟨[], [], none, [1, 2]⟩) :=
  ⟨List.not_mem_nil, List.mem_singleton.2 rfl, Nat.zero_le _, rfl, rfl⟩

/-- Every Clock at its update: an enabled one, a disabled one, one of period 0. -/
theorem witness_ClockTicksAndInterrupts (c : Clock) :
    let s := { full with devices := [.clock c], agents := [Frame.update 0] }
    s.agents = .update 0 :: [] ∧ s.devices[0]? = some (.clock c) ∧
      (⟨0, 1, 5, true⟩ : Clock).enabled = true ∧ (⟨0, 1, 5, true⟩ : Clock).period ≠ 0 ∧
      (⟨0, 1, 5, false⟩ : Clock).enabled = false ∧ (⟨0, 0, 5, true⟩ : Clock).period = 0 :=
  ⟨rfl, rfl, rfl, by decide, rfl, rfl⟩

theorem witness_AssemblerSizesAgreeWithEmission :
    assemble "SET [1], 2\n:x\nSET A, x".toList = .ok [0x7DE1, 1, 2, 0x7C01, 3] ∧
      pass1 0 [] ([Line.instr "SET".toList (some "[1]".toList) (some "2".toList)] ++
        Line.label "x".toList :: []) = .ok [("x".toList, 3)] ∧
      pass2 [Line.instr "SET".toList (some "[1]".toList) (some "2".toList)] =
        .ok [.word 0x7DE1, .word 1, .word 2] := by decide

theorem witness_AssembledInstructionTakesItsWords :
    mnemonicCode "SHL".toList = .ok 0xF ∧
      emitLine (.instr "SHL".toList (some "[SP]".toList) (some "[1]".toList)) =
        .ok [.word 0x7A3F, .word 1] := by decide

end Sys2Proof.Tests
end

section
/-! PROOFS. The invariant `State.Inv` is kept: by each update of the state, by every micro-operation
(`Stable`), by a device that is signalled, and so by a step. -/

namespace Sys2Proof.Machine

section
variable {s t : State}

/-! ## The updates of the state -/

theorem State.Inv.setAgents (h : s.Inv) {fs : List Frame}
    (hfs : ∀ f ∈ fs, f.known s.devices.length = true) : (s.setAgents fs).Inv :=
  { h with agentsKnown := hfs }

/-- R33: a run goes on only while no fault is latched. -/
theorem State.Inv.setPhase (h : s.Inv) (hf : s.fault = none) (p : Phase) : (s.setPhase p).Inv :=
  { h with stopped := fun hne => absurd hf hne }

/-- R33, R215: the latch closes every activation and ends the run. -/
theorem State.Inv.latch (h : s.Inv) (f : Fault) : (s.latch f).Inv :=
  { h with agentsKnown := fun _ hg => absurd hg List.not_mem_nil, stopped := fun _ => rfl }

/-- R41: a cell inside memory takes a Word. -/
theorem State.Inv.setMem_write (h : s.Inv) {a : Nat} (ha : a < s.params.memSize) (v : Word) :
    (s.setMem (s.mem.write a v)).Inv :=
  { h with
    memWf := Memory.write_wf h.memWf a v
    memInside := Memory.write_inside h.memInside ha v }

/-- R231: the references to devices and the bus depend on the devices' ids only. -/
theorem State.Inv.setDevices (h : s.Inv) {ds : List Device}
    (hids : ds.map Device.id = s.devices.map Device.id) : (s.setDevices ds).Inv := by
  have hlen : ds.length = s.devices.length := by simpa using congrArg List.length hids
  have hid : ∀ n, (ds[n]?).map Device.id = (s.devices[n]?).map Device.id := fun n => by
    rw [← List.getElem?_map, hids, List.getElem?_map]
  exact { h with
    watchKnown := fun p hp => hlen ▸ h.watchKnown p hp
    busKnown := fun p hp => (hid p.2).trans (h.busKnown p hp)
    agentsKnown := fun f hf => hlen ▸ h.agentsKnown f hf }

/-! ## What opens an activation -/

/-- R46: the observer of an address refers to an existing device. -/
theorem State.Inv.observers_known (h : s.Inv) (a : Nat) (v : Word) :
    ∀ f ∈ observers a v s, f.known s.devices.length = true := by
  intro f hf
  cases hw : lookupCell a s.watch with
  | none => simp [observers_unwatched hw] at hf
  | some hd =>
    obtain rfl : f = .observe hd a v := by simpa [observers_watched hw] using hf
    simpa [Frame.known] using h.watchKnown _ (mem_of_lookup hw)

/-- R231, R232: a signalled device exists and keeps its id. -/
theorem State.Inv.signal (h : s.Inv) (dev : Nat) (sig : Signal) (rest : List DevAction) :
    (signal dev sig rest s).Inv := by
  rcases signal_eq dev sig rest s with ⟨-, he⟩ | ⟨d, hd, he⟩ <;> rw [he]
  · exact h
  · have hset : (setDevice dev (react d sig).1 s).Inv :=
      h.setDevices (setDevice_ids hd (react_id d sig))
    obtain ⟨hlt, -⟩ := List.getElem?_eq_some_iff.1 hd
    refine hset.setAgents (List.forall_mem_cons.2 ⟨?_, hset.agentsKnown⟩)
    simpa [Frame.known, setDevice] using hlt

/-- R230: the devices a run polls at its end are those on the bus. -/
theorem State.Inv.endOfExec (h : s.Inv) (hf : s.fault = none) (poll : Bool) :
    (endOfExec poll s).Inv := by
  have bus_known : ∀ p ∈ s.bus, (Frame.update p.2).known s.devices.length = true := by
    intro p hp
    obtain ⟨d, hd, -⟩ := Option.map_eq_some_iff.1 (h.busKnown p hp)
    obtain ⟨hlt, -⟩ := List.getElem?_eq_some_iff.1 hd
    simpa [Frame.known] using hlt
  refine (h.setPhase hf .host).setAgents ?_
  cases poll with
  | false => simp
  | true => exact List.forall_mem_map.2 bus_known

/-! ## A step -/

/-- Every micro-operation keeps the invariant. -/
theorem inv_stable : Stable State.Inv where
  reg _ _ _ h := { h with }
  pc _ _ h := { h with }
  sp _ _ h := { h with }
  ex _ _ h := { h with }
  write _ _ v h ha := h.setMem_write ha v
  agents _ a v h := h.setAgents (List.forall_mem_append.2 ⟨h.observers_known a v, h.agentsKnown⟩)
  waits s t fs f _ ht hfs hf := ht.setAgents <| by
    have hall := ht.agentsKnown
    rw [hfs, List.forall_mem_append] at hall
    exact List.forall_mem_append.2 ⟨hall.1, List.forall_mem_cons.2 ⟨hf _, hall.2⟩⟩

/-- R226, R232: the innermost activation, taken off the stack, moves. -/
theorem State.Inv.agentMove (h : s.Inv) {f : Frame} {fs : List Frame} (hs : s.agents = f :: fs) :
    (agentMove f (s.setAgents fs)).All State.Inv := by
  have hall := h.agentsKnown
  rw [hs, List.forall_mem_cons] at hall
  obtain ⟨hf, hfs⟩ := hall
  refine agentMove_keeps inv_stable (fun _ _ hids hu => hu.setDevices hids)
    (fun _ dev sig rest hu => hu.signal dev sig rest) (fun _ _ hu => { hu with })
    (h.setAgents hfs) ?_
  rintro dev act rest rfl
  exact h.setAgents (List.forall_mem_cons.2 ⟨hf, hfs⟩)

/-- R120, R121: with no fault latched the CPU moves. -/
theorem State.Inv.turn (h : s.Inv) (hf : s.fault = none) (ht : turn s = .next t) : t.Inv := by
  have latch_keeps : ∀ (u : State) (f : Fault), u.Inv → (u.latch f).Inv := fun _ f hu => hu.latch f
  rcases turn_next ht with ⟨-, hc⟩ | ⟨poll, -, rfl⟩ | ⟨n, poll, -, hc⟩
  · exact cycle_keeps inv_stable latch_keeps h hc
  · exact h.endOfExec hf poll
  · exact cycle_keeps inv_stable latch_keeps (h.setPhase hf _) hc

end

/-- Settles O46: the innermost activation moved, or the CPU did with no fault latched. -/
theorem stepKeepsTheInvariant : Obligations.StepKeepsTheInvariant := by
  intro s t h hstep
  rcases step_next hstep with ⟨f, fs, hs, hmove⟩ | ⟨-, hf, hturn⟩
  · exact conclude_next hmove (h.agentMove hs) fun _ g hu => hu.latch g
  · exact h.turn hf hturn

end Sys2Proof.Machine
end

section
/-! PROOFS. What no instruction, interrupt entry or device can change (`State.sameSystem`), and that no step
changes it. -/

namespace Sys2Proof.Machine

section
variable {s t : State}

/-- Every micro-operation keeps what depends on IA, the observers, the bus, the parameters, the devices and
their draws only. -/
theorem Stable.of_sameSystem {P : State → Prop}
    (hP : ∀ u v : State, u.sameSystem v → v.devices = u.devices → v.draws = u.draws → P u → P v) :
    Stable P where
  reg u _ _ := hP u _ ⟨rfl, rfl, rfl, rfl⟩ rfl rfl
  pc u _ := hP u _ ⟨rfl, rfl, rfl, rfl⟩ rfl rfl
  sp u _ := hP u _ ⟨rfl, rfl, rfl, rfl⟩ rfl rfl
  ex u _ := hP u _ ⟨rfl, rfl, rfl, rfl⟩ rfl rfl
  write u _ _ h _ := hP u _ ⟨rfl, rfl, rfl, rfl⟩ rfl rfl h
  agents u _ _ := hP u _ ⟨rfl, rfl, rfl, rfl⟩ rfl rfl
  waits _ v _ _ _ h _ _ := hP v _ ⟨rfl, rfl, rfl, rfl⟩ rfl rfl h

theorem State.sameSystem.refl (s : State) : s.sameSystem s := ⟨rfl, rfl, rfl, rfl⟩

theorem State.sameSystem.trans {u : State} (h : s.sameSystem t) (h' : t.sameSystem u) :
    s.sameSystem u := by
  obtain ⟨hia, hwatch, hbus, hparams⟩ := h
  obtain ⟨hia', hwatch', hbus', hparams'⟩ := h'
  exact ⟨hia'.trans hia, hwatch'.trans hwatch, hbus'.trans hbus, hparams'.trans hparams⟩

/-- `State.sameSystem`, and each device with its hardware id (R231). -/
def State.sameSystemAndIds (s t : State) : Prop :=
  s.sameSystem t ∧ t.devices.map Device.id = s.devices.map Device.id

theorem State.sameSystemAndIds.refl (s : State) : s.sameSystemAndIds s := ⟨.refl s, rfl⟩

theorem State.sameSystemAndIds.ia (h : s.sameSystemAndIds t) : t.ia = s.ia := h.1.1

theorem sameSystemAndIds_stable (s : State) : Stable s.sameSystemAndIds :=
  .of_sameSystem fun _ _ hsys hdev _ h => ⟨h.1.trans hsys, hdev ▸ h.2⟩

/-- R231, R232: a signal changes the state of a device and opens an activation. -/
theorem State.sameSystemAndIds.signal (h : s.sameSystemAndIds t) (dev : Nat) (sig : Signal)
    (rest : List DevAction) : s.sameSystemAndIds (signal dev sig rest t) := by
  refine ⟨h.1.trans ?_, (signal_ids dev sig rest t).trans h.2⟩
  rcases signal_eq dev sig rest t with ⟨-, he⟩ | ⟨d, -, he⟩ <;> rw [he]
  · exact .refl t
  · exact ⟨rfl, rfl, rfl, rfl⟩

/-- R226, R232: the innermost activation, taken off the stack, moves. -/
theorem agentMove_sameSystemAndIds (f : Frame) (fs : List Frame) (s : State) :
    (agentMove f (s.setAgents fs)).All s.sameSystemAndIds :=
  agentMove_keeps (sameSystemAndIds_stable s) (fun _ _ hids h => ⟨h.1, hids.trans h.2⟩)
    (fun _ dev sig rest h => h.signal dev sig rest) (fun _ _ h => h) (.refl s)
    fun _ _ _ _ => .refl s

/-- R120, R121: a cycle, or the end of `exec`, where the poll of the devices becomes due. -/
theorem turn_sameSystemAndIds (h : turn s = .next t) : s.sameSystemAndIds t := by
  have cycle_same : ∀ u, s.sameSystemAndIds u → cycle u = .next t → s.sameSystemAndIds t :=
    fun _ hu hc => cycle_keeps (sameSystemAndIds_stable s) (fun _ _ h => h) hu hc
  rcases turn_next h with ⟨-, hc⟩ | ⟨poll, -, rfl⟩ | ⟨n, poll, -, hc⟩
  · exact cycle_same s (.refl s) hc
  · exact .refl s
  · exact cycle_same (s.setPhase (.cycles n poll)) (.refl s) hc

end

/-- Settles O49: the innermost activation moved, or the CPU did; neither writes what the host alone writes. -/
theorem noStepChangesIaObserversOrBus : Obligations.NoStepChangesIaObserversOrBus := by
  intro s t hstep
  rcases step_next hstep with ⟨f, fs, -, hmove⟩ | ⟨-, -, hturn⟩
  · exact conclude_next hmove (agentMove_sameSystemAndIds f fs s) fun _ _ h => h
  · exact turn_sameSystemAndIds hturn

end Sys2Proof.Machine
end

section
/-! PROOFS. What SET, ADD, SUB, MUL and MLI, and one write access, leave unchanged. -/

namespace Sys2Proof.Machine

/-- What a property of states needs for the operands a (destination) and b (source) of an instruction to keep
it: a register is written only where an operand names it (R36, R37), PC by the fetch of extra Words (R125). -/
structure OperandStable (a b : Operand) (P : State → Prop) : Prop where
  pc : ∀ s v, P s → P (s.setPc v)
  mem : ∀ s m, P s → P (s.setMem m)
  agents : ∀ s fs, P s → P (s.setAgents fs)
  reg : ∀ r, a = .reg r → ∀ s v, P s → P (s.setReg r v)
  sp : a = .sp ∨ a = .stack ∨ b = .stack → ∀ s v, P s → P (s.setSp v)
  ex : a = .ex → ∀ s v, P s → P (s.setEx v)

section
variable {a b o : Operand} {P : State → Prop} (hP : OperandStable a b P) {s s' t : State} {d : Desc}

include hP in
theorem OperandStable.resolve_keeps (h : P s) (o : Operand) : (resolve o s).All P := by
  cases hr : resolve o s with
  | ok d t => rw [resolve_ok hr]; exact hP.pc _ _ h
  | raised f t => obtain ⟨-, -, -, rfl⟩ := resolve_raised hr; exact h

include hP in
/-- R126, R131: a read moves SP only if an operand is the stack. -/
theorem OperandStable.readDesc_keeps (h : P s) (hd : d = .stack → a = .stack ∨ b = .stack) :
    (readDesc d s).All P := by
  cases hr : readDesc d s with
  | ok v t =>
    rw [readDesc_ok hr]
    split
    · exact hP.sp (.inr (hd ‹_›)) _ _ h
    · exact h
  | raised f t => obtain ⟨rfl, -⟩ := readDesc_raised hr; exact h

include hP in
/-- R127: a write access writes the register that the destination names, or a cell. -/
theorem OperandStable.writeDesc_keeps (h : P s) (hd : resolve a s' = .ok d t) (v : Word) :
    (writeDesc d v s).All P := by
  obtain ⟨hreg, hstack, hsp, hex, -⟩ := resolve_names hd
  cases hw : writeDesc d v s with
  | ok u w =>
    rcases writeDesc_ok hw with ⟨r, hr, rfl⟩ | ⟨hs, rfl⟩ | ⟨-, rfl⟩ | ⟨he, rfl⟩ | ⟨x, -, rfl⟩
    · exact hP.reg r (hreg r hr) _ _ h
    · exact hP.sp (.inl (hsp hs)) _ _ h
    · exact hP.pc _ _ h
    · exact hP.ex (hex he) _ _ h
    · refine hP.agents _ _ (hP.mem _ _ ?_)
      split
      · exact hP.sp (.inr (.inl (hstack ‹_›))) _ _ h
      · exact h
  | raised f w =>
    obtain ⟨rfl | ⟨hs, rfl⟩, -⟩ := writeDesc_raised hw
    · exact h
    · exact hP.sp (.inr (.inl (hstack hs))) _ _ h

include hP in
/-- R160. -/
theorem OperandStable.move_keeps (h : P s) : (move a b s).All P :=
  (hP.resolve_keeps h a).bind fun _ _ ha h1 =>
  (hP.resolve_keeps h1 b).bind fun _ _ hb h2 =>
  (hP.readDesc_keeps h2 fun e => .inr ((resolve_names hb).2.1 e)).bind fun v _ _ h3 =>
  hP.writeDesc_keeps h3 ha v

include hP in
theorem OperandStable.readPair_keeps {dA dB : Desc} (h : P s) (hA : dA = .stack → a = .stack)
    (hB : dB = .stack → b = .stack) : (readPair dA dB s).All P := by
  unfold readPair
  split
  · exact (hP.readDesc_keeps h fun e => .inl (hA e)).bind fun _ _ _ h1 =>
      (hP.readDesc_keeps h1 fun e => .inr (hB e)).bind fun _ _ _ h2 => h2
  · exact (hP.readDesc_keeps h fun e => .inr (hB e)).bind fun _ _ _ h1 =>
      (hP.readDesc_keeps h1 fun e => .inl (hA e)).bind fun _ _ _ h2 => h2

include hP in
/-- R141 steps 7 and 8, under both orders of D8. -/
theorem OperandStable.putPair_keeps (hex : ∀ s v, P s → P (s.setEx v)) (h : P s)
    (hd : resolve a s' = .ok d t) (r : Word × Word) : (putPair d r s).All P := by
  unfold putPair
  split
  · refine (hP.writeDesc_keeps h hd r.1).bind fun _ u hw hu => ?_
    obtain ⟨opened, ho⟩ := writeDesc_agents hw
    rcases exAfter_cases r.2 ho with ⟨-, he⟩ | he <;> rw [he]
    · exact hex _ _ hu
    · exact hP.agents _ _ hu
  · exact hP.writeDesc_keeps (hex _ _ h) hd r.1

include hP in
/-- R125: under either decision D6. -/
theorem OperandStable.target_keeps (h : P s) (dA : Desc) : (target a dA s).All P := by
  unfold target
  split
  · exact h
  · split
    · exact hP.resolve_keeps h a
    · exact h

include hP in
/-- R165: a computing instruction also writes EX. -/
theorem OperandStable.compute_keeps (hex : ∀ s v, P s → P (s.setEx v)) (h : P s)
    (f : Word → Word → Word × Word) : (compute f a b s).All P := by
  refine (hP.resolve_keeps h a).bind fun dA s1 ha h1 => (hP.resolve_keeps h1 b).bind fun dB s2 hb h2 => ?_
  obtain ⟨-, hA, -⟩ := resolve_names ha
  obtain ⟨-, hB, -⟩ := resolve_names hb
  refine (hP.readPair_keeps h2 hA hB).bind fun v s3 _ h3 => ?_
  refine (hP.target_keeps h3 dA).bind fun d s4 ht h4 => ?_
  rcases target_ok ht with ⟨rfl, rfl⟩ | ⟨hr, -⟩
  · exact hP.putPair_keeps hex h4 ha _
  · exact hP.putPair_keeps hex h4 hr _

include hP in
/-- The five instructions with semantics are SET or a computing one. -/
theorem OperandStable.exec_keeps {i : Instr}
    (hi : i ∈ [Instr.set a b, .add a b, .sub a b, .mul a b, .mli a b])
    (hex : i ≠ .set a b → ∀ s v, P s → P (s.setEx v)) (hl : ∀ s f, P s → P (s.latch f))
    (h : P s) (he : exec i s = .next t) : P t := by
  simp only [List.mem_cons, List.not_mem_nil, or_false] at hi
  rcases hi with rfl | rfl | rfl | rfl | rfl
  · exact conclude_next he (hP.move_keeps h) hl
  · exact conclude_next he (hP.compute_keeps (hex nofun) h addPair) hl
  · exact conclude_next he (hP.compute_keeps (hex nofun) h subPair) hl
  · exact conclude_next he (hP.compute_keeps (hex nofun) h mulPair) hl
  · exact conclude_next he (hP.compute_keeps (hex nofun) h mliPair) hl

end

section
variable {a b : Operand}

/-- R36: a general register that is not the destination. -/
theorem operandStable_reg {r : Reg} (hr : a ≠ .reg r) (v : Word) :
    OperandStable a b fun t => t.reg r = v where
  pc _ _ h := h
  mem _ _ h := h
  agents _ _ h := h
  reg q hq s w h := (State.reg_setReg_ne s q r w fun e => hr (e ▸ hq)).trans h
  sp _ _ _ h := h
  ex _ _ _ h := h

/-- SP, if it is not the destination and no operand is the stack. -/
theorem operandStable_sp (hsp : a ≠ .sp) (ha : a ≠ .stack) (hb : b ≠ .stack) (v : Word) :
    OperandStable a b fun t => t.sp = v where
  pc _ _ h := h
  mem _ _ h := h
  agents _ _ h := h
  reg _ _ _ _ h := h
  sp h := absurd h (by simp [hsp, ha, hb])
  ex _ _ _ h := h

/-- R25: EX, if it is not the destination. -/
theorem operandStable_ex (ha : a ≠ .ex) (v : Word) : OperandStable a b fun t => t.ex = v where
  pc _ _ h := h
  mem _ _ h := h
  agents _ _ h := h
  reg _ _ _ _ h := h
  sp _ _ _ h := h
  ex h := absurd h ha

end

/-- What an instruction leaves unchanged besides registers: it touches no device. -/
theorem sameSystemAndDevices_stable (s : State) :
    Stable fun t => s.sameSystem t ∧ t.devices = s.devices ∧ t.draws = s.draws :=
  .of_sameSystem fun _ _ hsys hdev hdraws ⟨h, h', h''⟩ =>
    ⟨h.trans hsys, hdev.trans h', hdraws.trans h''⟩

/-- R43, R226: until a fault, the turn stays and activations open above those that are open. -/
theorem phaseAndOpened_stable (s : State) :
    Stable fun t => t.phase = s.phase ∧ ∃ opened, t.agents = opened ++ s.agents where
  reg _ _ _ h := h
  pc _ _ h := h
  sp _ _ h := h
  ex _ _ h := h
  write _ _ _ h _ := h
  agents u x v := fun ⟨hp, o, ho⟩ => ⟨hp, observers x v u ++ o, by simp [ho]⟩
  waits u t fs f := fun ⟨_, o, ho⟩ ⟨hp, _⟩ _ _ => ⟨hp, fs ++ f :: o, by simp [ho]⟩

/-- An instruction that latches no fault keeps the turn and the activations that were open. -/
theorem exec_phaseAndOpened {i : Instr} {s t : State} (he : exec i s = .next t) (ht : t.fault = none) :
    t.phase = s.phase ∧ ∃ opened, t.agents = opened ++ s.agents := by
  obtain ⟨m, hm, hk⟩ := exec_cases i s
  have hall := hk _ (phaseAndOpened_stable s) ⟨rfl, [], rfl⟩
  rw [hm] at he
  cases m with
  | ok u v => cases he; exact hall
  | raised f v => cases he; cases ht

/-- Settles O29: each part is a property that the instruction's operands leave alone. -/
theorem implementedInstructionsRegisterFrame : Obligations.ImplementedInstructionsRegisterFrame := by
  intro a b i s t hi he
  have hsys : s.sameSystem t ∧ t.devices = s.devices ∧ t.draws = s.draws := by
    obtain ⟨m, hm, hk⟩ := exec_cases i s
    exact conclude_next (hm ▸ he)
      (hk _ (sameSystemAndDevices_stable s) ⟨.refl s, rfl, rfl⟩) fun _ _ h => h
  refine ⟨fun r hr => ?_, fun hsp ha hb => ?_, fun hset ha => ?_, hsys.1, hsys.2.1, hsys.2.2,
    fun _ ht => exec_phaseAndOpened he ht⟩
  · exact (operandStable_reg hr _).exec_keeps hi (fun _ _ _ h => h) (fun _ _ h => h) rfl he
  · exact (operandStable_sp hsp ha hb _).exec_keeps hi (fun _ _ _ h => h) (fun _ _ h => h) rfl he
  · exact (operandStable_ex ha _).exec_keeps hi (fun h => absurd hset h) (fun _ _ h => h) rfl he

/-! ## One write access -/

/-- A write access that stores to memory has a cell or the stack as its destination. -/
theorem storeAddr_names {d : Desc} {s : State} {x : Nat} (h : storeAddr d s = some x) :
    (∀ r, d ≠ .reg r) ∧ d ≠ .sp ∧ d ≠ .pc ∧ d ≠ .ex := by
  cases d <;> simp [storeAddr] at h ⊢

/-- Settles O34: the destination is a register, SP, PC, EX, or a cell. -/
theorem writeAccessChangesOneThing : Obligations.WriteAccessChangesOneThing := by
  intro d v s t h
  rcases writeDesc_ok h with ⟨r, rfl, rfl⟩ | ⟨rfl, rfl⟩ | ⟨rfl, rfl⟩ | ⟨rfl, rfl⟩ | ⟨x, hx, rfl⟩
  · refine ⟨fun q => ?_, by simp [storeAddr]⟩
    by_cases hq : r = q
    · simp [hq]
    · simp [hq, State.reg_setReg_ne s r q v (Ne.symm hq)]
  · simp [storeAddr]
  · simp [storeAddr]
  · simp [storeAddr]
  · obtain ⟨hreg, hsp, hpc, hex⟩ := storeAddr_names hx
    have hmem : ∀ y, if x = y then (s.mem.write x v).read y = v
        else (s.mem.write x v).read y = s.mem.read y := by
      intro y
      split
      · subst y; exact Memory.read_write_same ..
      · exact Memory.read_write_ne _ _ _ _ (Ne.symm ‹_›)
    by_cases hs : d = .stack
    · subst hs; simpa [hx] using hmem
    · simpa [hs, hreg, hsp, hpc, hex, hx] using hmem

end Sys2Proof.Machine
end

section
/-! PROOFS. The host's writes of registers, the latch, and the machine after construction. -/

namespace Sys2Proof.Machine

section
variable {s t : State} {op : HostOp}

/-- R267: rendering on demand changes no register. -/
theorem renderOnDemand_ia (h : conclude (renderOnDemand s) = .next t) : t.ia = s.ia :=
  conclude_next (P := fun u => u.ia = s.ia) h (renderOnDemand_keeps (fun _ _ _ h => h) rfl)
    fun _ _ h => h

/-- R222: interrupt entry reads IA and does not write it. -/
theorem interrupt_ia {msg : Word} (h : conclude (interrupt msg s) = .next t) : t.ia = s.ia :=
  (conclude_next h (interrupt_keeps (sameSystemAndIds_stable s) (.refl s) msg) fun _ _ h => h).ia

/-- R26 (D5), R262: the host changes IA by a register write or by a reset. -/
theorem hostMove_ia (h : hostMove op s = .next t) :
    t.ia = s.ia ∨ (∃ v, op = .writeReg .ia v ∧ t = s.setIa (BitVec.ofNat 16 v)) ∨
      ∃ text, op = .loadAssembly text ∧ t.ia = s.params.reset.ia := by
  rcases hostMove_next h with ⟨d, -, rfl⟩ | ⟨x, hd, -, -, rfl⟩ | ⟨text, ws, rfl, -, -, rfl⟩ |
    ⟨n, poll, -, rfl⟩ | ⟨r, v, rfl, rfl⟩ | ⟨x, v, -, -, rfl⟩ | ⟨o, ws, -, rfl⟩ |
    ⟨dev, e, -, -, rfl⟩ | ⟨-, hr⟩ | ⟨msg, -, hi⟩ | ⟨x, rfl, -⟩ | rfl | ⟨dev, d, -, -, rfl⟩
  · exact .inl rfl
  · exact .inl rfl
  · exact .inr (.inr ⟨text, rfl, rfl⟩)
  · exact .inl rfl
  · cases r with
    | ia => exact .inr (.inl ⟨v, rfl, rfl⟩)
    | reg | pc | sp | ex => exact .inl rfl
  · exact .inl rfl
  · exact .inl rfl
  · exact .inl ((State.sameSystemAndIds.refl s).signal dev (.event e) []).ia
  · exact .inl (renderOnDemand_ia hr)
  · exact .inl (interrupt_ia hi)
  · exact .inl rfl
  · exact .inl rfl
  · exact .inl rfl

/-- R268, D23: between runs a host operation is made. -/
theorem hostStep_betweenRuns (ha : s.agents = []) (hp : s.phase = .host) :
    hostStep op s = hostMove op s :=
  if_pos ⟨ha, hp⟩

/-- R33, R216: the CPU answers a latched fault. -/
theorem step_latched {f : Fault} (hf : s.fault = some f) (ha : s.agents = []) :
    step s = .fault f := by
  simp [step, move1, cpuMove, ha, hf]

/-- R266: no run begins under a latched fault. -/
theorem startCycles_latched {f : Fault} (hf : s.fault = some f) (n : Nat) (poll : Bool) :
    startCycles n poll s = .fault f := by
  simp [startCycles, hf]

end

/-- R260: with legal parameters and well-formed memory contents, construction gives good order. -/
theorem State.construct_inv {p : Params} {m : Memory} (hp : p.legal) (hwf : m.wf)
    (hin : m.inside p.memSize) : (State.construct p m).Inv where
  params := hp
  memWf := hwf
  memInside := hin
  watchSorted := .nil
  watchKnown _ h := absurd h List.not_mem_nil
  busIds := List.nodup_nil
  busKnown _ h := absurd h List.not_mem_nil
  agentsKnown _ h := absurd h List.not_mem_nil
  stopped _ := rfl

/-- Settles O50: the table of what the host can do, and its row of register writes. -/
theorem onlyTheHostWritesIa : Obligations.OnlyTheHostWritesIa := by
  refine ⟨fun s t op h => ?_, fun s v ha hp => ?_⟩
  · obtain ⟨-, -, hm⟩ := hostStep_next h
    exact hostMove_ia hm
  · simp only [hostStep_betweenRuns ha hp]
    exact ⟨fun _ => rfl, rfl, rfl, rfl, rfl⟩

/-- Settles O7: the CPU move and the beginning of a run look at the latch first. -/
theorem latchedFaultStopsTheCpu : Obligations.LatchedFaultStopsTheCpu := by
  intro s f n hf ha
  refine ⟨step_latched hf ha, fun hp => ?_⟩
  simp only [hostStep_betweenRuns ha hp]
  exact ⟨startCycles_latched hf n true, startCycles_latched hf n false⟩

/-- Settles O47: the default parameters are legal and the empty memory is well-formed. -/
theorem resetIsInGoodOrder : Obligations.ResetIsInGoodOrder :=
  State.construct_inv (by decide) reset_mem_wf fun _ h => absurd h List.not_mem_nil

/-- Settles O51: `State.construct` with the default parameters and no memory contents. -/
theorem resetValues : Obligations.ResetValues := by
  have reset_reg : ∀ r, State.reset.reg r = 0 := fun r => by cases r <;> rfl
  exact ⟨reset_reg, rfl, rfl, rfl, rfl, fun _ => rfl, rfl, rfl, rfl, rfl⟩

end Sys2Proof.Machine
end

section
/-! PROOFS. MemRead, MemWrite, `load` and `watch`: what the memory operations and the host's calls of them do. -/

namespace Sys2Proof.Machine

section
variable {s t : State} {op : HostOp}

/-! ## Reads, writes and loads -/

theorem memWrite_outside {x : Nat} {v : Word} (h : s.params.memSize ≤ x) :
    memWrite x v s = .raised (.addressing x) s :=
  memWrite_out (Nat.not_lt.2 h)

theorem memRead_outside {x : Nat} (h : s.params.memSize ≤ x) :
    memRead x s = .raised (.addressing x) s :=
  memRead_out (Nat.not_lt.2 h)

/-- R44: a load that fits copies its Words. -/
theorem load_in {o : Nat} {ws : List Word} (h : o + ws.length ≤ s.params.memSize) :
    load o ws s = .ok () (s.setMem (s.mem.copy o ws)) :=
  if_neg (Nat.not_lt.2 h)

/-- R44: a load that does not fit copies nothing. -/
theorem load_out {o : Nat} {ws : List Word} (h : s.params.memSize < o + ws.length) :
    load o ws s = .raised (.addressing (o + ws.length - 1)) s :=
  if_pos h

/-- R43: the activation a write opens, written out. -/
theorem observers_eq (x : Nat) (v : Word) (s : State) :
    observers x v s = match lookupCell x s.watch with
      | some h => [.observe h x v]
      | none => [] := by
  cases h : lookupCell x s.watch with
  | none => exact observers_unwatched h
  | some hd => exact observers_watched h

/-! ## Observers -/

/-- R45: a new observer takes its own address only, so no address loses its observer. -/
theorem lookup_insert_isSome {α : Type} {x : Nat} {l : List (Nat × α)} (h : (lookupCell x l).isSome)
    (y : Nat) (v : α) : (lookupCell x (insertCell y v l)).isSome := by
  by_cases hx : x = y
  · simp [hx, lookup_insert_same]
  · rwa [lookup_insert_ne _ _ _ _ hx]

theorem State.sameSystemAndIds.watch (h : s.sameSystemAndIds t) : t.watch = s.watch := h.1.2.1

/-- R267: rendering on demand changes no observer. -/
theorem renderOnDemand_watch (h : conclude (renderOnDemand s) = .next t) : t.watch = s.watch :=
  conclude_next (P := fun u => u.watch = s.watch) h (renderOnDemand_keeps (fun _ _ _ h => h) rfl)
    fun _ _ h => h

/-- R222: interrupt entry changes no observer. -/
theorem interrupt_watch {msg : Word} (h : conclude (interrupt msg s) = .next t) :
    t.watch = s.watch :=
  (conclude_next h (interrupt_keeps (sameSystemAndIds_stable s) (.refl s) msg) fun _ _ h => h).watch

/-- R45: of the host's operations only `watch` changes the observers, and it adds or replaces one. -/
theorem hostMove_watch (h : hostMove op s = .next t) :
    t.watch = s.watch ∨ ∃ x hd, t.watch = insertCell x hd s.watch := by
  rcases hostMove_next h with ⟨d, -, rfl⟩ | ⟨x, hd, -, -, rfl⟩ | ⟨text, ws, -, -, -, rfl⟩ |
    ⟨n, poll, -, rfl⟩ | ⟨r, v, -, rfl⟩ | ⟨x, v, -, -, rfl⟩ | ⟨o, ws, -, rfl⟩ |
    ⟨dev, e, -, -, rfl⟩ | ⟨-, hr⟩ | ⟨msg, -, hi⟩ | ⟨x, rfl, -⟩ | rfl | ⟨dev, d, -, -, rfl⟩
  · exact .inl rfl
  · exact .inr ⟨x, hd, rfl⟩
  · exact .inl rfl
  · exact .inl rfl
  · cases r <;> exact .inl rfl
  · exact .inl rfl
  · exact .inl rfl
  · exact .inl ((State.sameSystemAndIds.refl s).signal dev (.event e) []).watch
  · exact .inl (renderOnDemand_watch hr)
  · exact .inl (interrupt_watch hi)
  · exact .inl rfl
  · exact .inl rfl
  · exact .inl rfl

end

/-- Settles O39: the observers after a host operation are those before it, or with one inserted. -/
theorem watchReplacesAndNothingRemoves : Obligations.WatchReplacesAndNothingRemoves := by
  refine ⟨fun s x h ha hp hd => ⟨insertCell x h s.watch, ?_, lookup_insert_same .., fun y hy =>
    lookup_insert_ne _ _ _ _ hy⟩, fun s t op x h hx => ?_, fun s t x h => ?_,
    fun s x v hx => memWrite_outside hx⟩
  · rw [hostStep_betweenRuns ha hp]
    exact if_pos hd
  · obtain ⟨-, -, hm⟩ := hostStep_next h
    rcases hostMove_watch hm with e | ⟨y, hd, e⟩ <;> rw [e]
    · exact hx
    · exact lookup_insert_isSome hx y hd
  · obtain ⟨⟨-, hw, -⟩, -⟩ := noStepChangesIaObserversOrBus s t h
    rw [hw]

/-- Settles O37: the state after a write in range is `State.stored`. -/
theorem memWriteStoresThenNotifies : Obligations.MemWriteStoresThenNotifies := by
  intro s x v
  refine ⟨memWrite_outside, fun hx => ⟨s.mem.write x (BitVec.ofNat 16 v), ?_⟩⟩
  have hw : memWrite x (BitVec.ofNat 16 v) s =
      .ok () (s.stored x (BitVec.ofNat 16 v)) := memWrite_in hx
  rw [State.stored, observers_eq] at hw
  refine ⟨hw, fun ha hp => ?_, by simp, fun y hy => Memory.read_write_ne _ _ _ _ hy⟩
  rw [hostStep_betweenRuns ha hp]
  exact congrArg conclude hw

/-- Settles O52: the host's `load` is `load` of its values reduced to Words. -/
theorem loadCopiesAllOrNothing : Obligations.LoadCopiesAllOrNothing := by
  refine fun s offset => ⟨fun ws => ⟨load_out, fun h => ⟨_, load_in h, fun k w hw =>
    Memory.read_copy ws s.mem offset hw, fun x hx => Memory.read_copy_outside ws s.mem hx⟩⟩,
    fun ns ha hp => ?_⟩
  rw [hostStep_betweenRuns ha hp, hostMove, ← List.length_map (as := ns) (BitVec.ofNat 16)]
  refine ⟨fun h => congrArg conclude (load_out h), fun h => ⟨_, congrArg conclude (load_in h),
    fun k n hn => ?_⟩⟩
  have hk : (ns.map (BitVec.ofNat 16))[k]? = some (BitVec.ofNat 16 n) := by simp [hn]
  rw [Memory.read_copy _ _ _ hk, BitVec.toNat_ofNat]

/-- Settles O36: the two cases of the bounds check. -/
theorem memReadIsBoundsCheckedAndPure : Obligations.MemReadIsBoundsCheckedAndPure :=
  fun _ _ => ⟨memRead_outside, memRead_in⟩

/-- Settles O38: with all 65536 Words every Word is an address inside memory. -/
theorem boundsOfMemory : Obligations.BoundsOfMemory := by
  refine ⟨fun s v hl => ?_, fun s x v hm => ?_, fun s x v ha hp hx => ?_, fun s x ha hp hx => ?_⟩
  · have hlast : s.params.memSize - 1 < s.params.memSize := Nat.sub_one_lt_of_lt hl.1
    exact ⟨memRead_outside le_rfl, memWrite_outside le_rfl, ⟨_, memRead_in hlast⟩,
      ⟨_, memWrite_in hlast⟩⟩
  · have hx := toNat_lt_full hm x
    exact ⟨⟨_, memRead_in hx⟩, ⟨_, memWrite_in hx⟩⟩
  · simp only [hostStep_betweenRuns ha hp, hostMove]
    rw [memWrite_outside hx, memRead_outside hx]
    exact ⟨rfl, rfl⟩
  · rw [hostStep_betweenRuns ha hp, hostMove, memRead_in hx]
    rfl

end Sys2Proof.Machine
end


section
/-! PROOFS. What instructions do to memory: everything before the write access leaves it alone, and an
instruction whose write access faults has stored nothing. -/

namespace Sys2Proof.Machine

section
variable {α β : Type} {a b : Operand} {s t : State} {f : Fault} {μ : Memory}

/-! ## Before the write access -/

theorem resolve_mem (h : s.mem = μ) (o : Operand) : (resolve o s).All fun u => u.mem = μ := by
  cases hr : resolve o s with
  | ok d t => rw [resolve_ok hr]; exact h
  | raised f t => obtain ⟨-, -, -, rfl⟩ := resolve_raised hr; exact h

theorem readDesc_mem (h : s.mem = μ) (d : Desc) : (readDesc d s).All fun u => u.mem = μ := by
  cases hr : readDesc d s with
  | ok v t => rw [readDesc_ok hr]; exact h
  | raised f t => obtain ⟨rfl, -⟩ := readDesc_raised hr; exact h

theorem readPair_mem (h : s.mem = μ) (dA dB : Desc) :
    (readPair dA dB s).All fun u => u.mem = μ := by
  have hall := readPair_all (dA := dA) (dB := dB) (s := s)
  cases hr : readPair dA dB s <;> rw [hr] at hall <;> obtain ⟨sp, rfl, -⟩ := hall <;> exact h

theorem target_mem (h : s.mem = μ) (a : Operand) (dA : Desc) :
    (target a dA s).All fun u => u.mem = μ := by
  unfold target
  split
  · exact h
  · split
    · exact resolve_mem h a
    · exact h

/-- A completed micro-operation has the property that its two ends have. -/
theorem Micro.All.of_ok {P : State → Prop} {m : Micro α} {v : α} (hm : m.All P) (h : m = .ok v t) :
    P t := by
  subst h
  exact hm

/-! ## A fault has stored nothing -/

/-- R10: memory is kept up to a fault if the first part keeps it and the second does up to its fault. -/
theorem Micro.bind_raised_mem {m : Micro α} {k : α → State → Micro β} (h : m.bind k = .raised f t)
    (hm : m.All fun u => u.mem = μ)
    (hk : ∀ v u, u.mem = μ → k v u = .raised f t → t.mem = μ) : t.mem = μ := by
  cases m with
  | ok v u => exact hk v u hm h
  | raised g u => cases h; exact hm

theorem writeDesc_raised_mem {d : Desc} {v : Word} (h : writeDesc d v s = .raised f t) :
    t.mem = s.mem := by
  obtain ⟨rfl | ⟨-, rfl⟩, -⟩ := writeDesc_raised h <;> rfl

/-- R141 steps 7 and 8: the update of EX does not fault. -/
theorem putPair_raised_mem {d : Desc} {r : Word × Word} (h : putPair d r s = .raised f t) :
    t.mem = s.mem := by
  unfold putPair at h
  split at h
  · rcases Micro.bind_eq_raised.1 h with h | ⟨v, u, -, h⟩
    · exact writeDesc_raised_mem h
    · cases h
  · exact writeDesc_raised_mem (s := s.setEx r.2) h

theorem move_raised_mem (h : move a b s = .raised f t) : t.mem = s.mem :=
  Micro.bind_raised_mem h (resolve_mem rfl a) fun _ _ h1 h =>
  Micro.bind_raised_mem h (resolve_mem h1 b) fun dB _ h2 h =>
  Micro.bind_raised_mem h (readDesc_mem h2 dB) fun _ _ h3 h =>
  (writeDesc_raised_mem h).trans h3

theorem compute_raised_mem {g : Word → Word → Word × Word} (h : compute g a b s = .raised f t) :
    t.mem = s.mem :=
  Micro.bind_raised_mem h (resolve_mem rfl a) fun dA _ h1 h =>
  Micro.bind_raised_mem h (resolve_mem h1 b) fun dB _ h2 h =>
  Micro.bind_raised_mem h (readPair_mem h2 dA dB) fun _ _ h3 h =>
  Micro.bind_raised_mem h (target_mem h3 a dA) fun _ _ h4 h =>
  (putPair_raised_mem h).trans h4

/-- No micro-operation of an instruction touches the latch: only its conclusion does (R33). -/
theorem fault_stable (s : State) : Stable fun u => u.fault = s.fault where
  reg _ _ _ h := h
  pc _ _ h := h
  sp _ _ h := h
  ex _ _ h := h
  write _ _ _ h _ := h
  agents _ _ _ h := h
  waits _ _ _ _ _ h _ _ := h

/-- R60, R141: every instruction is the conclusion of a micro-operation that keeps the latch and, if it
faults, memory. -/
theorem exec_raised_mem (i : Instr) (s : State) :
    ∃ m : Micro Unit, exec i s = conclude m ∧ (m.All fun u => u.fault = s.fault) ∧
      ∀ f u, m = .raised f u → u.mem = s.mem := by
  have hs := fault_stable s
  have computes : ∀ a b g, ((compute g a b s).All fun u => u.fault = s.fault) ∧
      ∀ f u, compute g a b s = .raised f u → u.mem = s.mem :=
    fun a b g => ⟨compute_keeps hs rfl g a b, fun _ _ h => compute_raised_mem h⟩
  cases i with
  | set a b => exact ⟨_, rfl, move_keeps hs rfl a b, fun _ _ h => move_raised_mem h⟩
  | add a b => exact ⟨_, rfl, computes a b addPair⟩
  | sub a b => exact ⟨_, rfl, computes a b subPair⟩
  | mul a b => exact ⟨_, rfl, computes a b mulPair⟩
  | mli a b => exact ⟨_, rfl, computes a b mliPair⟩
  | _ => exact ⟨.raised (.unknownOpcode _) s, rfl, rfl, fun f u h => by cases h; rfl⟩

/-! ## The write access -/

/-- R160: with its operands resolved and its source read, SET is its write access. -/
theorem exec_set_eq {dA dB : Desc} {v : Word} {s1 s2 s3 : State} (h1 : resolve a s = .ok dA s1)
    (h2 : resolve b s1 = .ok dB s2) (h3 : readDesc dB s2 = .ok v s3) :
    exec (.set a b) s = conclude (writeDesc dA v s3) := by
  simp only [exec, execSet, move, h1, h2, h3, Micro.ok_bind]

/-- R165: with its operands resolved and read, a computing instruction is its write of the pair. -/
theorem compute_eq {g : Word → Word → Word × Word} {dA dB d : Desc} {v : Word × Word}
    {s1 s2 s3 s4 : State} (h1 : resolve a s = .ok dA s1) (h2 : resolve b s1 = .ok dB s2)
    (h3 : readPair dA dB s2 = .ok v s3) (h4 : target a dA s3 = .ok d s4) :
    compute g a b s = putPair d (g v.1 v.2) s4 := by
  simp only [compute, h1, h2, h3, h4, Micro.ok_bind]

/-- R165: ADD, SUB, MUL and MLI have one shape. -/
theorem exec_computing {i : Instr} (hi : i ∈ [Instr.add a b, .sub a b, .mul a b, .mli a b])
    (s : State) : ∃ g, exec i s = conclude (compute g a b s) := by
  simp only [List.mem_cons, List.not_mem_nil, or_false] at hi
  rcases hi with rfl | rfl | rfl | rfl
  · exact ⟨addPair, rfl⟩
  · exact ⟨subPair, rfl⟩
  · exact ⟨mulPair, rfl⟩
  · exact ⟨mliPair, rfl⟩

/-- With all 65536 Words a push completes. -/
theorem exec_set_push (hm : s.fullMemory) (r : Reg) :
    exec (.set .stack (.reg r)) s =
      .next ((s.setSp (s.sp - 1)).stored (s.sp - 1).toNat (s.reg r)) := by
  have hx : (s.sp - 1).toNat < (s.setSp (s.sp - 1)).params.memSize := toNat_lt_full hm _
  rw [exec_set_eq (a := .stack) (b := .reg r) rfl rfl rfl]
  exact congrArg conclude (memWrite_in hx)

/-- With all 65536 Words a pop into a register completes. -/
theorem exec_set_pop (hm : s.fullMemory) (q : Reg) :
    exec (.set (.reg q) .stack) s =
      .next ((s.setSp (s.sp + 1)).setReg q (s.mem.read s.sp.toNat)) := by
  have hr : readDesc .stack s = .ok (s.mem.read s.sp.toNat) (s.setSp (s.sp + 1)) := by
    rw [readDesc, memRead_in (toNat_lt_full hm _), Micro.ok_bind]
  rw [exec_set_eq (a := .reg q) (b := .stack) rfl rfl hr]
  rfl

end

/-- Settles O30: memory is as before when SET comes to its write access. -/
theorem setMemoryFrame : Obligations.SetMemoryFrame := by
  intro a b dA dB v s s1 s2 s3 t h1 h2 h3 he x hx
  have hmem1 : s1.mem = s.mem := (resolve_mem rfl a).of_ok h1
  have hmem2 : s2.mem = s.mem := (resolve_mem hmem1 b).of_ok h2
  have hmem3 : s3.mem = s.mem := (readDesc_mem hmem2 dB).of_ok h3
  rw [exec_set_eq h1 h2 h3] at he
  rw [← hmem3]
  exact conclude_next he writeDesc_mem (fun _ _ h => h) x hx

/-- Settles O31: memory is as before when a computing instruction comes to its write access. -/
theorem computeMemoryFrame : Obligations.ComputeMemoryFrame := by
  intro a b i dA dB d v s s1 s2 s3 s4 t hi h1 h2 h3 h4 he x hx
  have hmem1 : s1.mem = s.mem := (resolve_mem rfl a).of_ok h1
  have hmem2 : s2.mem = s.mem := (resolve_mem hmem1 b).of_ok h2
  have hmem3 : s3.mem = s.mem := (readPair_mem hmem2 dA dB).of_ok h3
  have hmem4 : s4.mem = s.mem := (target_mem hmem3 a dA).of_ok h4
  obtain ⟨g, hg⟩ := exec_computing hi s
  rw [hg, compute_eq h1 h2 h3 h4] at he
  rw [← hmem4]
  exact conclude_next he putPair_mem (fun _ _ h => h) x hx

/-- Settles O32: an instruction that completes leaves the latch, one that faults leaves memory. -/
theorem faultingInstructionStoresNothing : Obligations.FaultingInstructionStoresNothing := by
  intro i s t hs he ht
  obtain ⟨m, hm, hfault, hmem⟩ := exec_raised_mem i s
  rw [hm] at he
  cases m with
  | ok u v => cases he; exact absurd (hfault.trans hs) ht
  | raised f u => cases he; exact hmem f u rfl

/-- Settles O35: the pop reads the cell the push stored to, as SP has moved by -1 and then by 1. -/
theorem popUndoesPush : Obligations.PopUndoesPush := by
  intro s r q hm
  have hm' : ((s.setSp (s.sp - 1)).stored (s.sp - 1).toNat (s.reg r)).fullMemory := hm
  refine ⟨_, _, exec_set_push hm r, exec_set_pop hm' q, ?_⟩
  simp

end Sys2Proof.Machine
end

section
/-! PROOFS. Activations: those beneath the innermost wait, and what a device that is told of something does
next. -/

namespace Sys2Proof.Machine

section
variable {s t : State}

/-- The step of a machine with an open activation is the move of the innermost one. -/
theorem step_agent {f : Frame} {rest : List Frame} (h : s.agents = f :: rest) :
    step s = conclude (agentMove f (s.setAgents rest)) := by
  simp [step, move1, h]

/-- R47, R226: `rest` waits under the activations that are open above it. -/
def State.opensAbove (rest : List Frame) (t : State) : Prop :=
  ∃ opened, t.agents = opened ++ rest

theorem State.opensAbove.cons {rest fs : List Frame} {f : Frame} (h : s.opensAbove rest)
    (ht : t.agents = fs ++ f :: s.agents) : t.opensAbove rest := by
  obtain ⟨o, ho⟩ := h
  exact ⟨fs ++ f :: o, by simp [ht, ho]⟩

theorem opensAbove_stable (rest : List Frame) : Stable (State.opensAbove rest) where
  reg _ _ _ h := h
  pc _ _ h := h
  sp _ _ h := h
  ex _ _ h := h
  write _ _ _ h _ := h
  agents u x v := fun ⟨o, ho⟩ => ⟨observers x v u ++ o, by simp [ho]⟩
  waits _ _ _ _ h _ _ _ := h.cons rfl

/-- R232: a signal opens an activation above those that are open. -/
theorem State.opensAbove.signal {rest : List Frame} (h : s.opensAbove rest) (dev : Nat)
    (sig : Signal) (todo : List DevAction) : (signal dev sig todo s).opensAbove rest := by
  rcases signal_eq dev sig todo s with ⟨-, he⟩ | ⟨d, -, he⟩ <;> rw [he]
  · exact h
  · exact h.cons (fs := []) rfl

theorem agentMove_opensAbove (f : Frame) (rest : List Frame) (s : State) :
    (agentMove f (s.setAgents rest)).All (State.opensAbove rest) :=
  agentMove_keeps (opensAbove_stable rest) (fun _ _ _ h => h)
    (fun _ dev sig todo h => h.signal dev sig todo) (fun _ _ h => h) ⟨[], rfl⟩
    fun dev _ todo _ => ⟨[.acts dev todo], rfl⟩

/-! ## A device that is told of something -/

section
variable {dev : Nat} {d : Device} (hd : s.devices[dev]? = some d)
include hd

/-- R232: the device's state changes and what it does now is due before the rest. -/
theorem signal_known (sig : Signal) (todo : List DevAction) :
    signal dev sig todo s = { s with
      devices := s.devices.set dev (react d sig).1,
      agents := .acts dev ((react d sig).2 ++ todo) :: s.agents } := by
  rcases signal_eq dev sig todo s with ⟨hn, -⟩ | ⟨d', hd', he⟩
  · cases hn.symm.trans hd
  · cases hd'.symm.trans hd
    exact he

/-- R232: the same for a device that was doing nothing. -/
theorem signal_idle (sig : Signal) :
    signal dev sig [] s = { s with
      devices := s.devices.set dev (react d sig).1,
      agents := .acts dev (react d sig).2 :: s.agents } := by
  rw [signal_known hd, List.append_nil]

/-- R230: the update of a device that is no Display. -/
theorem updateDevice_signal (hx : ∀ x, d ≠ .display x) (input : Nat) :
    updateDevice dev input s = .ok () (signal dev (.update input) [] s) := by
  cases d with
  | display x => exact absurd rfl (hx x)
  | keyboard k => simp [updateDevice, hd]
  | clock c => simp [updateDevice, hd]
  | other id data => simp [updateDevice, hd]

end

section
variable {dev : Nat} {todo : List DevAction} {rest : List Frame}

/-- R42, R59: a device's read tells it the Word. -/
theorem step_acts_read {x : Nat} (h : s.agents = .acts dev (.read x :: todo) :: rest)
    (hx : x < s.params.memSize) :
    step s = .next (signal dev (.data x (s.mem.read x)) todo (s.setAgents rest)) := by
  rw [step_agent h, agentMove, deviceMove, memRead_in (s := s.setAgents rest) hx]
  rfl

/-- R211: a device's read outside memory. -/
theorem step_acts_read_outside {x : Nat} (h : s.agents = .acts dev (.read x :: todo) :: rest)
    (hx : s.params.memSize ≤ x) : step s = .next (s.latch (.addressing x)) := by
  rw [step_agent h, agentMove, deviceMove, memRead_outside (s := s.setAgents rest) hx]
  rfl

/-- R43: a device's write is a `MemWrite`, with the rest of what it does beneath. -/
theorem step_acts_write {x v : Nat} (h : s.agents = .acts dev (.write x v :: todo) :: rest) :
    step s = conclude (memWrite x (BitVec.ofNat 16 v) (s.setAgents (.acts dev todo :: rest))) :=
  step_agent h

end

end

/-- Settles O11: every move of an activation opens others above those that wait. -/
theorem activationsNest : Obligations.ActivationsNest := by
  intro s t f rest ha h
  rw [step_agent ha] at h
  have hopen := agentMove_opensAbove f rest s
  cases hm : agentMove f (s.setAgents rest) with
  | ok u v =>
    rw [hm] at h hopen
    cases h
    exact .inr ⟨rfl, hopen⟩
  | raised g u =>
    rw [hm] at h
    cases h
    obtain ⟨x, rfl, hx⟩ := agentMove_raised hm
    exact .inl ⟨u, x, rfl, hx, rfl⟩

/-- Settles O40: three ways to be told of something, the three actions, and the end of a reaction. -/
theorem observerIsItsDeviceToldOfTheWrite : Obligations.ObserverIsItsDeviceToldOfTheWrite := by
  refine ⟨fun s h x v rest d ha hd => ?observed, fun s dev rest d ha hd hx => ?updated,
    fun s dev e d ha hp hd => ?event, fun s dev x todo rest ha => ⟨?readOut, fun d hx hd => ?readIn⟩,
    fun s dev x v todo rest ha => ⟨fun hx => ?writeOut, fun hx => ?writeIn⟩,
    fun s dev msg todo rest ha => step_agent ha, fun s dev rest ha => step_agent ha⟩
  case observed =>
    rw [step_agent ha, agentMove, signal_idle (s := s.setAgents rest) hd]
    rfl
  case updated =>
    rw [step_agent ha, agentMove, updateDevice_signal (s := (s.setAgents rest).setDraws _) hd hx,
      signal_idle (s := (s.setAgents rest).setDraws _) hd]
    rfl
  case event =>
    obtain ⟨hlt, -⟩ := List.getElem?_eq_some_iff.1 hd
    rw [hostStep_betweenRuns ha hp, hostMove, if_pos hlt, signal_idle hd, ha]
  case readOut => exact step_acts_read_outside ha
  case readIn =>
    rw [step_acts_read ha hx, signal_known (s := s.setAgents rest) hd]
    rfl
  case writeOut =>
    rw [step_acts_write ha, memWrite_outside (s := s.setAgents (.acts dev todo :: rest)) hx]
    rfl
  case writeIn =>
    rw [step_acts_write ha, memWrite_in (s := s.setAgents (.acts dev todo :: rest)) hx]
    rfl

end Sys2Proof.Machine
end

section
/-! PROOFS. The encoding: what the decoder makes of a packed Word, and the class of a Word from its fields. -/

namespace Sys2Proof

/-! ## Instructions and their fields -/

@[simp] theorem operandA_decodeOpcode (op : BitVec 4) (a b : Operand) :
    (decodeOpcode op a b).operandA = a := by
  unfold decodeOpcode
  split <;> rfl

@[simp] theorem operandB_decodeOpcode (op : BitVec 4) (a b : Operand) :
    (decodeOpcode op a b).operandB = b := by
  unfold decodeOpcode
  split <;> rfl

@[simp] theorem operandA_decode (w : Word) : (decode w).operandA = decodeOperand (fieldA w) :=
  operandA_decodeOpcode _ _ _

@[simp] theorem operandB_decode (w : Word) : (decode w).operandB = decodeOperand (fieldB w) :=
  operandB_decodeOpcode _ _ _

@[simp] theorem opcodeValue_decode (w : Word) : opcodeValue (decode w) = opcodeField w :=
  opcodeValue_decodeOpcode _ _ _

/-- R71, R72: the decoder sees the three fields that were packed. -/
theorem decode_packWord (op : BitVec 4) (a b : BitVec 6) :
    decode (packWord op a b) = decodeOpcode op (decodeOperand a) (decodeOperand b) := by
  obtain ⟨hop, ha, hb⟩ := fields_packWord op a b
  rw [decode, hop, ha, hb]

/-- R71, R76: the length of an instruction, from the operand codes packed into its Word. -/
theorem length_decode_packWord (op : BitVec 4) (a b : BitVec 6) :
    (decode (packWord op a b)).length =
      1 + (if (decodeOperand a).needsWord then 1 else 0) +
        (if (decodeOperand b).needsWord then 1 else 0) := by
  rw [decode_packWord, Instr.length, operandA_decodeOpcode, operandB_decodeOpcode]

/-! ## Classes -/

/-- R78: the opcodes with semantics are 1 to 5. -/
theorem implemented_iff (i : Instr) :
    i.implemented = true ↔ 1 ≤ (opcodeValue i).toNat ∧ (opcodeValue i).toNat ≤ 5 := by
  cases i <;> simp [Instr.implemented, opcodeValue]

/-- R75, R81 (b): the literal codes are 0x1F and those above it. -/
theorem isLiteral_decodeOperand_iff (p : BitVec 6) :
    (decodeOperand p).isLiteral = true ↔ 0x1F ≤ p.toNat := by
  revert p
  decide

/-- R81: the three classes, by the two tests that tell them apart. -/
theorem wordClass_iff (i : Instr) :
    (i.wordClass = .illegalOpcode ↔ ¬ i.implemented = true) ∧
    (i.wordClass = .illegalDestination ↔ i.implemented = true ∧ i.operandA.isLiteral = true) ∧
    (i.wordClass = .legal ↔ i.implemented = true ∧ ¬ i.operandA.isLiteral = true) := by
  unfold Instr.wordClass
  by_cases hi : i.implemented = true <;> by_cases hl : i.operandA.isLiteral = true <;> simp [hi, hl]

/-! ## The statements -/

/-- Settles O1: the fields of the packed Word are the instruction's, and each decodes to its own part. -/
theorem decodeEncodeRoundTrip : Obligations.DecodeEncodeRoundTrip := by
  intro i hwf
  obtain ⟨ha, hb⟩ := Bool.and_eq_true_iff.1 hwf
  rw [encode, decode_packWord, decodeOperand_encodeOperand _ ha, decodeOperand_encodeOperand _ hb,
    decodeOpcode_opcodeValue]

/-- Settles O2: each field is the code of what it decodes to, and a Word is packed from its fields. -/
theorem everyWordIsTheWordOfItsInstruction : Obligations.EveryWordIsTheWordOfItsInstruction := by
  intro w
  constructor
  · rw [Instr.wf, operandA_decode, operandB_decode, decodeOperand_wf, decodeOperand_wf, Bool.and_self]
  · rw [encode, opcodeValue_decode, operandA_decode, operandB_decode, encodeOperand_decodeOperand,
      encodeOperand_decodeOperand, packWord_fields]

/-- Settles O3: the two tests of the classes, read off the opcode and the field of operand a. -/
theorem wordClassFromFields : Obligations.WordClassFromFields := by
  intro w
  obtain ⟨hopcode, hdest, hlegal⟩ := wordClass_iff (decode w)
  rw [hopcode, hdest, hlegal, implemented_iff, opcodeValue_decode, operandA_decode,
    isLiteral_decodeOperand_iff]
  omega

/-- Settles O4: the decoder run on each of the eight Words. -/
theorem workedEncodingsDecode : Obligations.WorkedEncodingsDecode :=
  ⟨rfl, rfl, rfl, rfl, rfl, rfl, rfl, rfl⟩

end Sys2Proof
end

section
/-! PROOFS. The assembler: what a line's operand is encoded as, what the two passes and the backfill make of
a list of lines, and that the sizes of the one are the lengths of the other. -/

namespace Sys2Proof.Machine

/-! ## Operand codes -/

/-- R75, R76: the operand codes that take an extra Word. -/
theorem needsWord_decodeOperand_iff (p : BitVec 6) :
    (decodeOperand p).needsWord = true ↔
      (0x10 ≤ p.toNat ∧ p.toNat < 0x18) ∨ p.toNat = 0x1A ∨ p.toNat = 0x1E ∨ p.toNat = 0x1F := by
  revert p
  decide

theorem regName_lt {t : List Char} {r : Nat} (h : regName t = some r) : r < 8 := by
  unfold regName at h
  split at h
  · obtain ⟨hr, -, -⟩ := List.idxOf?_eq_some_iff.1 h
    exact hr
  · cases h

theorem specialName_range {t : List Char} {c : Nat} (h : specialName t = some c) :
    0x1B ≤ c ∧ c ≤ 0x1D := by
  unfold specialName at h
  split at h <;> cases h <;> decide

/-- R75, R95, C3: a code below 0x10, that of a special register and that of a bracketed special register
take no extra Word. -/
theorem needsWord_code_eq_false {n : Nat}
    (h : n < 0x10 ∨ (0x1B ≤ n ∧ n ≤ 0x1D) ∨ (0x23 ≤ n ∧ n ≤ 0x25)) :
    (decodeOperand (BitVec.ofNat 6 n)).needsWord = false := by
  rw [← Bool.not_eq_true, needsWord_decodeOperand_iff, BitVec.toNat_ofNat]
  omega

/-- R76, R95: the code of an operand takes an extra Word exactly if the operand has one. -/
theorem needsWord_parseOperand (t : List Char) :
    (decodeOperand (parseOperand t).1).needsWord = (parseOperand t).2.isSome := by
  unfold parseOperand
  split
  next r _ _ hr =>
    have := regName_lt hr
    exact needsWord_code_eq_false (by omega)
  next c _ _ hc =>
    have := specialName_range hc
    exact needsWord_code_eq_false (by omega)
  next u _ _ _ =>
    split
    next r _ hr =>
      have := regName_lt hr
      exact needsWord_code_eq_false (by omega)
    next c _ hc =>
      have := specialName_range hc
      exact needsWord_code_eq_false (by omega)
    next => rfl
  next => rfl

/-- R76, R92: pass 1 counts the extra Word that the CPU will take. -/
theorem extraSize_eq (t : Option (List Char)) :
    extraSize t = if (decodeOperand (operandOf t).1).needsWord then 1 else 0 := by
  cases t with
  | none => rfl
  | some t =>
    rw [operandOf, needsWord_parseOperand, extraSize, operandOf]
    cases (parseOperand t).2 <;> rfl

theorem length_extraWords (t : Option (List Char)) :
    (operandOf t).2.toList.length = extraSize t := by
  unfold extraSize
  cases (operandOf t).2 <;> rfl

/-! ## Lines -/

/-- R93: what an instruction line emits. -/
theorem emitLine_instr {m : List Char} {op : BitVec 4} (h : mnemonicCode m = .ok op)
    (a b : Option (List Char)) :
    emitLine (.instr m a b) = .ok (.word (packWord op (operandOf a).1 (operandOf b).1) ::
      ((operandOf a).2.toList ++ (operandOf b).2.toList)) := by
  rw [emitLine, h]

/-- R92, C2: the size of a line is the number of Words it emits. -/
theorem length_emitLine {l : Line} {es : List Emitted} (h : emitLine l = .ok es) :
    es.length = lineSize l := by
  cases l with
  | label name =>
    cases h
    rfl
  | instr m a b =>
    cases hm : mnemonicCode m with
    | error e => simp [emitLine, hm] at h
    | ok op =>
      cases (emitLine_instr hm a b).symm.trans h
      simp only [List.length_cons, List.length_append, length_extraWords, lineSize]
      omega

/-! ## The two passes and the backfill -/

theorem pass2_cons {l : Line} {ls : List Line} {es : List Emitted} (h : pass2 (l :: ls) = .ok es) :
    ∃ ws rest, emitLine l = .ok ws ∧ pass2 ls = .ok rest ∧ es = ws ++ rest := by
  cases hl : emitLine l with
  | error e => simp [pass2, hl] at h
  | ok ws =>
    cases hls : pass2 ls with
    | error e => simp [pass2, hl, hls] at h
    | ok rest =>
      simp only [pass2, hl, hls, Except.ok.injEq] at h
      exact ⟨ws, rest, rfl, rfl, h.symm⟩

/-- R93: pass 2 emits as many Words as pass 1 counts. -/
theorem length_pass2 {ls : List Line} {es : List Emitted} (h : pass2 ls = .ok es) :
    es.length = (ls.map lineSize).sum := by
  induction ls generalizing es with
  | nil =>
    cases h
    rfl
  | cons l ls ih =>
    obtain ⟨ws, rest, hl, hls, rfl⟩ := pass2_cons h
    rw [List.length_append, length_emitLine hl, ih hls, List.map_cons, List.sum_cons]

theorem backfill_cons {labels : List (List Char × Nat)} {e : Emitted} {es : List Emitted}
    {ws : List Word} (h : backfill labels (e :: es) = .ok ws) :
    ∃ w rest, backfill labels es = .ok rest ∧ ws = w :: rest := by
  simp only [backfill] at h
  split at h
  · cases h
  next w _ =>
    split at h
    · cases h
    next rest hes => exact ⟨w, rest, hes, (Except.ok.inj h).symm⟩

/-- R94: the backfill puts one Word for each that was emitted. -/
theorem length_backfill {labels : List (List Char × Nat)} {es : List Emitted} {ws : List Word}
    (h : backfill labels es = .ok ws) : ws.length = es.length := by
  induction es generalizing ws with
  | nil =>
    cases h
    rfl
  | cons e es ih =>
    obtain ⟨w, rest, hes, rfl⟩ := backfill_cons h
    rw [List.length_cons, List.length_cons, ih hes]

theorem pass1_label {addr : Nat} {name : List Char} {labels out : List (List Char × Nat)}
    {ls : List Line} (h : pass1 addr labels (.label name :: ls) = .ok out) :
    labels.lookup name = none ∧ pass1 addr (labels ++ [(name, addr)]) ls = .ok out := by
  unfold pass1 at h
  split at h
  · cases h
  next hnew => exact ⟨Option.not_isSome_iff_eq_none.1 hnew, h⟩

/-- R92: pass 1 goes on to the next line at the address after this one. -/
theorem pass1_cons {addr : Nat} {labels out : List (List Char × Nat)} {l : Line} {ls : List Line}
    (h : pass1 addr labels (l :: ls) = .ok out) :
    ∃ labels', labels <+: labels' ∧ pass1 (addr + lineSize l) labels' ls = .ok out := by
  cases l with
  | label name => exact ⟨_, ⟨_, rfl⟩, (pass1_label h).2⟩
  | instr m a b => exact ⟨labels, ⟨[], List.append_nil _⟩, h⟩

/-- R92: a label keeps the address it was bound to. -/
theorem pass1_keeps_labels {addr : Nat} {labels out : List (List Char × Nat)} {ls : List Line}
    (h : pass1 addr labels ls = .ok out) : labels <+: out := by
  induction ls generalizing addr labels with
  | nil =>
    cases h
    exact ⟨[], List.append_nil _⟩
  | cons l ls ih =>
    obtain ⟨labels', hpre, hls⟩ := pass1_cons h
    exact hpre.trans (ih hls)

/-- R92: a label is bound to the address after the lines before it. -/
theorem pass1_lookup {addr : Nat} {name : List Char} {labels out : List (List Char × Nat)}
    {before after : List Line} (h : pass1 addr labels (before ++ .label name :: after) = .ok out) :
    out.lookup name = some (addr + (before.map lineSize).sum) := by
  induction before generalizing addr labels with
  | nil =>
    obtain ⟨hnew, hafter⟩ := pass1_label h
    exact (pass1_keeps_labels hafter).lookup_eq_some (by simp [List.lookup_append, hnew])
  | cons l before ih =>
    obtain ⟨labels', -, hls⟩ := pass1_cons h
    rw [ih hls, List.map_cons, List.sum_cons, Nat.add_assoc]

/-- R90: a text that assembles went through pass 1, pass 2 and the backfill. -/
theorem assemble_ok {text : List Char} {ws : List Word} (h : assemble text = .ok ws) :
    ∃ labels es, pass1 0 [] ((normalize text).map parseLine) = .ok labels ∧
      pass2 ((normalize text).map parseLine) = .ok es ∧ backfill labels es = .ok ws := by
  unfold assemble at h
  extract_lets lines at h
  split at h
  · cases h
  next labels h1 =>
    split at h
    · cases h
    next es h2 => exact ⟨labels, es, h1, h2, h⟩

/-! ## The statements -/

/-- Settles O59: each line emits what pass 1 counts for it, and the backfill changes no length. -/
theorem assemblerSizesAgreeWithEmission : Obligations.AssemblerSizesAgreeWithEmission := by
  constructor
  · intro text ws h
    obtain ⟨labels, es, -, hes, hws⟩ := assemble_ok h
    rw [length_backfill hws, length_pass2 hes, List.map_map]
    rfl
  · intro before after name labels es hlabels hes
    rw [pass1_lookup hlabels, length_pass2 hes, Nat.zero_add]

/-- Settles O60: the line's Word is packed from the mnemonic's opcode and two codes that take an extra
Word exactly if the line emits it. -/
theorem assembledInstructionTakesItsWords : Obligations.AssembledInstructionTakesItsWords := by
  intro m a b op es hm hes
  have hlen := length_emitLine hes
  cases (emitLine_instr hm a b).symm.trans hes
  refine ⟨_, _, rfl, ?_, ?_⟩
  · rw [decode_packWord, opcodeValue_decodeOpcode]
  · rw [hlen, length_decode_packWord, ← extraSize_eq, ← extraSize_eq, lineSize]

end Sys2Proof.Machine
end

section
/-! PROOFS. The cycle: the fetch, the decoded instruction, the opcodes without semantics, and the count of
the cycles. -/

namespace Sys2Proof.Machine

section
variable {s t : State}

/-- R120, R123: with PC inside memory a cycle is the decoded instruction run with PC past its Word. -/
theorem cycle_in (h : s.pc.toNat < s.params.memSize) :
    cycle s = exec (decode (s.mem.read s.pc.toNat)) (s.setPc (s.pc + 1)) := by
  rw [cycle, nextWord_in h]

/-- R123, R211: a fetch outside memory does not advance PC. -/
theorem cycle_out (h : s.params.memSize ≤ s.pc.toNat) :
    cycle s = .next (s.latch (.addressing s.pc.toNat)) := by
  rw [cycle, nextWord_out (Nat.not_lt.2 h)]

/-- R215: a cycle that no fault ends leaves the turn where it is. -/
theorem cycle_phase (h : cycle s = .next t) (ht : t.fault = none) : t.phase = s.phase := by
  by_cases hp : s.pc.toNat < s.params.memSize
  · rw [cycle_in hp] at h
    exact (exec_phaseAndOpened h ht).1
  · rw [cycle_out (Nat.not_lt.1 hp)] at h
    cases h
    cases ht

theorem State.counted_phase {n : Nat} {poll : Bool} (h : s.phase = .cycles (n + 1) poll) :
    s.counted.phase = .cycles n poll := by
  simp [State.counted, h]

theorem State.atCycle.agents (h : s.atCycle) : s.agents = [] := h.2.1

/-- R266: a run begins while no fault is latched. -/
theorem startCycles_unlatched (hf : s.fault = none) (n : Nat) (poll : Bool) :
    startCycles n poll s = .next (s.setPhase (.cycles n poll)) := by
  simp [startCycles, hf]

/-- R124: an opcode without semantics is raised with its value, and nothing else is done. -/
theorem exec_unimplemented {i : Instr} (h : i.implemented = false) (s : State) :
    exec i s = .next (s.latch (.unknownOpcode (opcodeValue i))) := by
  cases i with
  | set | add | sub | mul | mli => cases h
  | _ => rfl

end

/-- Settles O5: a cycle with its fetch inside memory. -/
theorem stepRunsTheDecodedInstruction : Obligations.StepRunsTheDecodedInstruction := by
  intro s hc hp
  rw [step_atCycle hc, cycle_in (by simpa using hp), State.counted_mem, State.counted_pc]

/-- Settles O6: a cycle with its fetch outside memory. -/
theorem fetchOutsideMemoryLatches : Obligations.FetchOutsideMemoryLatches := by
  intro s hc hp
  rw [step_atCycle hc, cycle_out (by simpa using hp), State.counted_latch, State.counted_pc]

/-- Settles O9: the beginning of a run, and a counted cycle. -/
theorem cyclesAreCountedOff : Obligations.CyclesAreCountedOff := by
  refine ⟨fun s n hf ha hp => ?_, fun s t n poll hf ha hp h ht => ?_⟩
  · simp only [hostStep_betweenRuns ha hp]
    exact ⟨startCycles_unlatched hf n true, startCycles_unlatched hf n false⟩
  · have hc : s.atCycle := ⟨hf, ha, by simp [hp]⟩
    rw [step_atCycle hc] at h
    exact (cycle_phase h ht).trans (State.counted_phase hp)

/-- Settles O12: each of the eleven is unimplemented and has the opcode value listed with it. -/
theorem opcodesWithoutSemanticsLatchUnknownOpcode :
    Obligations.OpcodesWithoutSemanticsLatchUnknownOpcode := by
  intro a b s i n h
  have hi : i.implemented = false ∧ opcodeValue i = n := by
    simp only [List.mem_cons, List.not_mem_nil, or_false, Prod.mk.injEq] at h
    rcases h with ⟨rfl, rfl⟩ | ⟨rfl, rfl⟩ | ⟨rfl, rfl⟩ | ⟨rfl, rfl⟩ | ⟨rfl, rfl⟩ | ⟨rfl, rfl⟩ |
      ⟨rfl, rfl⟩ | ⟨rfl, rfl⟩ | ⟨rfl, rfl⟩ | ⟨rfl, rfl⟩ | ⟨rfl, rfl⟩ <;> exact ⟨rfl, rfl⟩
  obtain ⟨hi, rfl⟩ := hi
  exact exec_unimplemented hi s

/-- R124: the step at a Word whose opcode has no semantics. -/
theorem step_unimplemented {s : State} (hc : s.atCycle) (hp : s.pc.toNat < s.params.memSize)
    (hi : (decode (s.mem.read s.pc.toNat)).implemented = false) :
    step s = .next ((s.setPc (s.pc + 1)).latch
      (.unknownOpcode (opcodeField (s.mem.read s.pc.toNat)))) := by
  rw [stepRunsTheDecodedInstruction s hc hp, exec_unimplemented hi, opcodeValue_decode,
    State.counted_setPc_latch]

/-- Settles O14: the opcodes above 5 have no semantics; no activation was open before. -/
theorem declaredOpcodesFaultPastTheirWord : Obligations.DeclaredOpcodesFaultPastTheirWord := by
  intro s hc hp hop
  have hi : (decode (s.mem.read s.pc.toNat)).implemented = false := by
    rw [← Bool.not_eq_true, implemented_iff, opcodeValue_decode]
    omega
  rw [step_unimplemented hc hp hi, State.latch, ← hc.agents]
  rfl

end Sys2Proof.Machine
end

section
/-! PROOFS. SET: its effect, from every source and into every destination. -/

namespace Sys2Proof.Machine

section
variable {s : State} {a b : Operand}

/-! ## Extra Words -/

theorem extra_inline (h : a.needsWord = false) : extra a = 0 := by
  simp [extra, h]

theorem extra_word (h : a.needsWord = true) : extra a = 1 := by
  simp [extra, h]

@[simp] theorem extra_reg (r : Reg) : extra (.reg r) = 0 :=
  extra_inline rfl

theorem pcAfter_reg_left (r : Reg) : pcAfter (.reg r) b s = s.pc + extra b := by
  simp [pcAfter]

theorem pcAfter_reg_right (q : Reg) : pcAfter a (.reg q) s = s.pc + extra a := by
  simp [pcAfter]

theorem wordB_reg (r : Reg) : wordB (.reg r) s = wordA s := by
  simp [wordB, wordA]

/-! ## The effect -/

/-- R160: SET, with its extra Words and its source inside memory, is its write access. -/
theorem exec_set_reads (h : setReadsInside a b s) :
    exec (.set a b) s =
      conclude (writeDesc (descOf a (wordA s) s) (readValue b (wordB a s) (pcAfter a b s) s.sp s)
        ((s.setPc (pcAfter a b s)).setSp (spAfterRead b s.sp))) := by
  rw [exec, execSet, move_in a b h]

/-- R160: the decision D7 matters only if b is the stack. -/
theorem exec_set_in (h : setInside a b s) (hl : a.isLiteral = false)
    (ho : s.params.order.addressTime = .atResolve ∨ spAfterRead b s.sp = s.sp) :
    exec (.set a b) s = .next (setEffect a b s) := by
  obtain ⟨hreads, hstore⟩ := h
  have hw := writeDesc_in (s := s) (t := (s.setPc (pcAfter a b s)).setSp (spAfterRead b s.sp)) rfl
    a hl (wordA s) (readValue b (wordB a s) (pcAfter a b s) s.sp s) hstore ho
  rw [exec_set_reads hreads, hw]
  rfl

/-- R160: SET into a register does not depend on the order of its accesses. -/
theorem exec_set_reg (r : Reg) (hw : b.needsWord = true → s.pc.toNat < s.params.memSize)
    (hi : s.inside (readAddr b (wordA s) s.sp s) = true) :
    exec (.set (.reg r) b) s =
      .next (((s.setPc (s.pc + extra b)).setSp (spAfterRead b s.sp)).setReg r
        (readValue b (wordA s) (s.pc + extra b) s.sp s)) := by
  have hreads : setReadsInside (.reg r) b s := ⟨⟨nofun, by simpa using hw⟩, by rwa [wordB_reg]⟩
  rw [exec_set_reads hreads, pcAfter_reg_left, wordB_reg]
  rfl

/-- R73: a source without an extra Word. -/
theorem exec_set_reg_inline (r : Reg) (hb : b.needsWord = false)
    (hi : s.inside (readAddr b (wordA s) s.sp s) = true) :
    exec (.set (.reg r) b) s =
      .next ((s.setSp (spAfterRead b s.sp)).setReg r (readValue b (wordA s) s.pc s.sp s)) := by
  rw [exec_set_reg r (by simp [hb]) hi, extra_inline hb, add_zero]
  rfl

/-- R73: a source with an extra Word, which is no pop. -/
theorem exec_set_reg_word (r : Reg) (hb : b.needsWord = true)
    (hp : s.pc.toNat < s.params.memSize)
    (hi : s.inside (readAddr b (wordA s) s.sp s) = true) :
    exec (.set (.reg r) b) s =
      .next ((s.setPc (s.pc + 1)).setReg r (readValue b (wordA s) (s.pc + 1) s.sp s)) := by
  have hstack : b ≠ .stack := by rintro rfl; cases hb
  rw [exec_set_reg r (fun _ => hp) hi, extra_word hb, spAfterRead, if_neg hstack]
  rfl

/-- R160: SET from a register: the value is in hand before the write access. -/
theorem exec_set_from_reg (q : Reg) (hl : a.isLiteral = false)
    (hw : a.needsWord = true → s.pc.toNat < s.params.memSize)
    (hi : s.inside (writeAddr a (wordA s) s.sp s) = true) :
    exec (.set a (.reg q)) s =
      .next (putValue a (wordA s) (s.reg q) s (s.setPc (s.pc + extra a))) := by
  have hin : setInside a (.reg q) s := ⟨⟨⟨hw, nofun⟩, rfl⟩, hi⟩
  rw [exec_set_in hin hl (.inr rfl), setEffect, pcAfter_reg_right]
  rfl

/-- R73: a destination without an extra Word. -/
theorem exec_set_from_reg_inline (q : Reg) (hl : a.isLiteral = false) (ha : a.needsWord = false)
    (hi : s.inside (writeAddr a (wordA s) s.sp s) = true) :
    exec (.set a (.reg q)) s = .next (putValue a (wordA s) (s.reg q) s s) := by
  rw [exec_set_from_reg q hl (by simp [ha]) hi, extra_inline ha, add_zero, State.setPc_self]

/-- R73: a destination with an extra Word. -/
theorem exec_set_from_reg_word (q : Reg) (hl : a.isLiteral = false) (ha : a.needsWord = true)
    (hp : s.pc.toNat < s.params.memSize)
    (hi : s.inside (writeAddr a (wordA s) s.sp s) = true) :
    exec (.set a (.reg q)) s =
      .next (putValue a (wordA s) (s.reg q) s (s.setPc (s.pc + 1))) := by
  rw [exec_set_from_reg q hl (fun _ => hp) hi, extra_word ha]

end

/-- The spec's orders compute an address at resolution (D7). -/
theorem State.specOrder.atResolve {s : State} (h : s.specOrder) :
    s.params.order.addressTime = .atResolve := by
  rw [h]
  rfl

/-- They read a before b (D8). -/
theorem State.specOrder.aThenB {s : State} (h : s.specOrder) :
    s.params.order.readOrder = .aThenB := by
  rw [h]
  rfl

/-- They update EX after the result is written (D8). -/
theorem State.specOrder.afterResult {s : State} (h : s.specOrder) :
    s.params.order.exOrder = .afterResult := by
  rw [h]
  rfl

/-- Settles O17: the two accesses are inside memory, and addresses are computed at resolution. -/
theorem setCompletesWithItsEffect : Obligations.SetCompletesWithItsEffect :=
  fun _ _ _ hin ho hl => exec_set_in hin hl (.inl ho.atResolve)

/-- Settles O15: each source is one without an extra Word or one with it. -/
theorem setReadsEverySource : Obligations.SetReadsEverySource := by
  intro s r q v
  refine ⟨?reg, fun hx => ?regInd, fun hp hx => ?regNext, fun hx => ?stack, fun hx => ?peek,
    fun hp hx => ?spNext, ?sp, ?pc, ?ex, fun hp hx => ?nextInd, fun hp => ?nextLit, fun _ => ?lit⟩
  case reg | sp | pc | ex | lit => exact exec_set_reg_inline r rfl rfl
  case regInd | stack | peek => exact exec_set_reg_inline r rfl (decide_eq_true hx)
  case regNext | spNext | nextInd => exact exec_set_reg_word r rfl hp (decide_eq_true hx)
  case nextLit => exact exec_set_reg_word r rfl hp rfl

/-- Settles O16: each destination is one without an extra Word or one with it. -/
theorem setWritesEveryDestination : Obligations.SetWritesEveryDestination := by
  intro s r q
  refine ⟨?reg, fun hx => ?regInd, fun hp hx => ?regNext, fun hx => ?stack, fun hx => ?peek,
    fun hp hx => ?spNext, ?sp, ?pc, ?ex, fun hp hx => ?nextInd⟩
  case reg | sp | pc | ex => exact exec_set_from_reg_inline q rfl rfl rfl
  case regInd | stack | peek => exact exec_set_from_reg_inline q rfl rfl (decide_eq_true hx)
  case regNext | spNext | nextInd => exact exec_set_from_reg_word q rfl rfl hp (decide_eq_true hx)

end Sys2Proof.Machine
end

section
/-! PROOFS. Accesses that fault: extra Words, sources and destinations outside memory, and literal
destinations. -/

namespace Sys2Proof.Machine

section
variable {s : State} {a b : Operand} {i : Instr} {x : Word} {g : Word → Word → Word × Word}

/-- R141 steps 3 and 4: the five instructions with semantics resolve a and then b. -/
theorem exec_resolves (hi : i ∈ [Instr.set a b, .add a b, .sub a b, .mul a b, .mli a b])
    (s : State) : ∃ k : Desc → Desc → State → Micro Unit,
      exec i s = conclude ((resolve a s).bind fun dA s1 => (resolve b s1).bind fun dB s2 =>
        k dA dB s2) := by
  rcases List.mem_cons.1 hi with rfl | hi
  · exact ⟨_, rfl⟩
  · obtain ⟨g, hg⟩ := exec_computing hi s
    exact ⟨_, hg⟩

/-- R123: a's extra Word outside memory. -/
theorem exec_wordA_out (hi : i ∈ [Instr.set a b, .add a b, .sub a b, .mul a b, .mli a b])
    (ha : a.needsWord = true) (hp : s.params.memSize ≤ s.pc.toNat) :
    exec i s = .next (s.latch (.addressing s.pc.toNat)) := by
  obtain ⟨k, hk⟩ := exec_resolves hi s
  rw [hk, resolve_out a ha hp]
  rfl

/-- R123: b's extra Word outside memory, after a's was taken. -/
theorem exec_wordB_out (hi : i ∈ [Instr.set a b, .add a b, .sub a b, .mul a b, .mli a b])
    (ha : a.needsWord = true → s.pc.toNat < s.params.memSize) (hb : b.needsWord = true)
    (hp : s.params.memSize ≤ (s.pc + extra a).toNat) :
    exec i s = .next ((s.setPc (s.pc + extra a)).latch (.addressing (s.pc + extra a).toNat)) := by
  obtain ⟨k, hk⟩ := exec_resolves hi s
  rw [hk, resolve_in a ha, Micro.ok_bind, resolve_out (s := s.setPc (s.pc + extra a)) b hb hp]
  rfl

/-- R126, R165: the first source of a computing instruction outside memory (D8: a is read first). -/
theorem compute_sourceA_out (ho : s.specOrder) (h : wordsInside a b s)
    (hx : readAddr a (wordA s) s.sp s = some x) (hi : s.params.memSize ≤ x.toNat) :
    compute g a b s = .raised (.addressing x.toNat) (s.setPc (pcAfter a b s)) := by
  have hA := readDesc_out (s := s) a (wordA s) (pcAfter a b s) s.sp hx hi (.inr rfl)
  change readDesc _ (s.setPc (pcAfter a b s)) = _ at hA
  rw [compute, resolve_both a b h]
  simp only [readPair, State.setPc_params, ho.aThenB, hA, Micro.raised_bind]
  rfl

/-- R126, R165: the second source of a computing instruction outside memory. -/
theorem compute_sourceB_out (ho : s.specOrder) (h : wordsInside a b s)
    (ha : s.inside (readAddr a (wordA s) s.sp s) = true)
    (hx : readAddr b (wordB a s) (spAfterRead a s.sp) s = some x) (hi : s.params.memSize ≤ x.toNat) :
    compute g a b s = .raised (.addressing x.toNat)
      ((s.setPc (pcAfter a b s)).setSp (spAfterRead a s.sp)) := by
  rw [compute_reads ho g a b h ha, readDesc_out b _ _ _ hx hi (.inl ho.atResolve), Micro.raised_bind]

/-- A literal is no memory operand. -/
theorem readAddr_literal (h : a.isLiteral = true) (nw sp : Word) : readAddr a nw sp s = none := by
  cases a with
  | nextLit | lit => rfl
  | _ => cases h

theorem spAfterRead_literal (h : a.isLiteral = true) (sp : Word) : spAfterRead a sp = sp := by
  cases a with
  | nextLit | lit => rfl
  | _ => cases h

@[simp] theorem afterReads_params : (afterReads a b s).params = s.params := (rfl)
@[simp] theorem afterReads_agents : (afterReads a b s).agents = s.agents := (rfl)
@[simp] theorem observers_afterReads (y : Nat) (v : Word) :
    observers y v (afterReads a b s) = observers y v s := (rfl)

/-- R127, R165: the write access to a literal comes before the update of EX (D8, D10). -/
theorem putPair_literal (ho : s.specOrder) (hl : a.isLiteral = true) (nw : Word) (r : Word × Word)
    {t : State} (ht : t.params = s.params) :
    putPair (descOf a nw s) r t = .raised (.illegalWrite (encodeOperand a)) t := by
  simp only [putPair, ht, ho.afterResult, writeDesc_literal a hl, Micro.raised_bind]

/-- R165: a literal destination is read without an access to memory. -/
theorem compute_literal (ho : s.specOrder) (h : setReadsInside a b s) (hl : a.isLiteral = true) :
    compute g a b s = .raised (.illegalWrite (encodeOperand a))
      ((s.setPc (pcAfter a b s)).setSp (spAfterRead b s.sp)) := by
  obtain ⟨hwords, hb⟩ := h
  have hin : computeInside a b s :=
    ⟨hwords, by rw [readAddr_literal hl]; rfl, by rwa [spAfterRead_literal hl]⟩
  rw [compute_in ho g a b hin, putPair_literal ho hl _ _ afterReads_params, afterReads, spAfterRead_literal hl]

end

/-- Settles O18: the first access outside memory is a's extra Word, b's, or a source. -/
theorem sourceOutsideMemoryLatches : Obligations.SourceOutsideMemoryLatches := by
  intro a b s i x
  refine ⟨fun hi => ⟨exec_wordA_out hi, exec_wordB_out hi⟩, fun h hx hout => ?set,
    fun hi ho h hout => ⟨fun hx => ?sourceA, fun ha hx => ?sourceB⟩⟩
  case set => rw [exec, execSet, move_source_out a b h hx hout, conclude_raised]
  case sourceA =>
    obtain ⟨g, hg⟩ := exec_computing hi s
    rw [hg, compute_sourceA_out ho h hx hout, conclude_raised]
  case sourceB =>
    obtain ⟨g, hg⟩ := exec_computing hi s
    rw [hg, compute_sourceB_out ho h ha hx hout, conclude_raised]

/-- Settles O19: a's extra Word, or the store after the reads. -/
theorem destinationOutsideMemoryLatches : Obligations.DestinationOutsideMemoryLatches := by
  intro a b s x
  refine ⟨exec_wordA_out (b := b) List.mem_cons_self, fun ho h hx hout => ?_⟩
  have hw := writeDesc_out (s := s) (t := (s.setPc (pcAfter a b s)).setSp (spAfterRead b s.sp)) rfl
    a (wordA s) (readValue b (wordB a s) (pcAfter a b s) s.sp s) hx hout (.inl ho.atResolve)
  rw [exec_set_reads h, hw, conclude_raised]
  rfl

/-- Settles O20: SET and the computing instructions come to the same write access. -/
theorem literalDestinationLatchesIllegalWrite :
    Obligations.LiteralDestinationLatchesIllegalWrite := by
  intro a b s i h ho hl hi
  rcases List.mem_cons.1 hi with rfl | hi
  · rw [exec_set_reads h, writeDesc_literal a hl, conclude_raised]
  · obtain ⟨g, hg⟩ := exec_computing hi s
    rw [hg, compute_literal ho h hl, conclude_raised]

end Sys2Proof.Machine
end

section
/-! PROOFS. The result and EX: with an observer between them, and for the idiom `SUB PC, EX`. -/

namespace Sys2Proof.Machine

section
variable {s t : State} {a b : Operand} {x : Word} {h : Handler}

theorem writeAddr_not_literal {nw sp : Word} (hx : writeAddr a nw sp s = some x) :
    a.isLiteral = false := by
  cases a with
  | nextLit | lit => cases hx
  | _ => rfl

/-- R127: a write access to a cell is a store there, after the decrement of a push. -/
theorem putValue_stored {nw : Word} (hx : writeAddr a nw t.sp s = some x) (v : Word) :
    putValue a nw v s t = (t.setSp (spAfterWrite a t.sp)).stored x.toNat v := by
  by_cases hs : a = .stack
  · subst hs
    cases hx
    rfl
  · rw [writeAddr, if_neg hs] at hx
    rw [putValue_effAddr hx, spAfterWrite, if_neg hs, State.setSp_self]

/-- R141 step 8, R221: EX waits beneath the observer that was called. -/
theorem exAfter_watched {f : Frame} (ht : t.agents = f :: s.agents) (v : Word) :
    exAfter v s t = t.setAgents (f :: .exUpdate v :: s.agents) := by
  rcases exAfter_cases v (opened := [f]) ht with ⟨hnil, -⟩ | he
  · cases hnil
  · exact he

/-- R165: a computing instruction that completes. -/
theorem compute_completes (ho : s.specOrder) (g : Word → Word → Word × Word)
    (hin : computeInside a b s) (hl : a.isLiteral = false) :
    compute g a b s = .ok () (computeEffect a b (g (sourceA a b s) (sourceB a b s)).1
      (g (sourceA a b s) (sourceB a b s)).2 s) := by
  have hw := writeDesc_in (s := s) (t := afterReads a b s) rfl a hl (wordA s)
    (g (sourceA a b s) (sourceB a b s)).1 (computeInside_store a b hin) (.inl ho.atResolve)
  simp only [compute_in ho g a b hin, putPair, afterReads_params, ho.afterResult, hw, Micro.ok_bind]
  rfl

/-- R221: the effect of a computing instruction whose result goes to a watched cell. -/
theorem computeEffect_watched (hx : writeAddr a (wordA s) (afterReads a b s).sp s = some x)
    (hh : lookupCell x.toNat s.watch = some h) (result ex : Word) :
    computeEffect a b result ex s =
      (((afterReads a b s).setSp (spAfterWrite a (afterReads a b s).sp)).stored x.toNat
        result).setAgents (.observe h x.toNat result :: .exUpdate ex :: s.agents) := by
  rw [computeEffect, putValue_stored hx]
  refine exAfter_watched ?_ ex
  rw [State.stored_agents, observers_setSp, observers_afterReads, observers_watched hh]
  rfl

/-- R142: no decision on the order of accesses matters where both operands are registers. -/
theorem compute_pc_ex (g : Word → Word → Word × Word) (s : State) :
    compute g .pc .ex s = .ok () ((s.setPc (g s.pc s.ex).1).setEx (g s.pc s.ex).2) := by
  have hread : readPair .pc .ex s = .ok (s.pc, s.ex) s := by unfold readPair; split <;> rfl
  have htarget : target .pc .pc s = .ok .pc s := by unfold target; split <;> rfl
  rw [compute_eq (dA := .pc) (dB := .ex) rfl rfl hread htarget]
  unfold putPair
  split
  · exact congrArg (Micro.ok ()) (exAfter_unwatched _ rfl)
  · rfl

/-- R142, R167: the difference goes to PC and the borrow to EX. -/
theorem exec_sub_pc_ex (s : State) :
    exec (.sub .pc .ex) s = .next ((s.setPc (s.pc - s.ex)).setEx
      (if s.pc.toNat < s.ex.toNat then 0xFFFF else 0)) := by
  rw [exec, execSub, compute_pc_ex, subPair_eq]
  rfl

end

/-- Settles O25: the effect with a watched cell, and the move of the waiting update. -/
theorem exIsUpdatedAfterTheObserver : Obligations.ExIsUpdatedAfterTheObserver := by
  refine ⟨fun a b s h x i r hin ho hx hh hi => ?_, fun s v rest ha => step_agent ha⟩
  have hl := writeAddr_not_literal hx
  have hexec : exec i s = .next (computeEffect a b r.1 r.2 s) := by
    simp only [List.mem_cons, List.not_mem_nil, or_false, Prod.mk.injEq] at hi
    rcases hi with ⟨rfl, rfl⟩ | ⟨rfl, rfl⟩ | ⟨rfl, rfl⟩ | ⟨rfl, rfl⟩ <;>
      exact congrArg conclude (compute_completes ho _ hin hl)
  rw [computeEffect_watched hx hh] at hexec
  exact ⟨_, hexec, rfl, Memory.read_write_same .., rfl⟩

/-- Settles O28: subtracting 0xFFFF adds 1, and borrows unless the minuend is 0xFFFF. -/
theorem subPcExSkipsOnBorrow : Obligations.SubPcExSkipsOnBorrow := by
  intro s
  rw [exec_sub_pc_ex]
  refine ⟨fun hex => ?_, fun hex => ?_⟩
  · have hborrow : ¬ s.pc.toNat < (0 : Word).toNat := Nat.not_lt_zero _
    rw [hex, sub_zero, if_neg hborrow, ← hex, State.setPc_self, State.setEx_self]
  · have hdiff : s.pc - 0xFFFF = s.pc + 1 := by bv_omega
    have hborrow : (if s.pc.toNat < (0xFFFF : Word).toNat then (0xFFFF : Word) else 0) =
        if s.pc = 0xFFFF then 0 else 0xFFFF := by
      by_cases h : s.pc = 0xFFFF
      · rw [if_pos h, h]
        rfl
      · rw [if_neg h, if_pos (by bv_omega)]
    rw [hex, hdiff, hborrow]

end Sys2Proof.Machine
end

section
/-! PROOFS. ADD, SUB, MUL and MLI: their effect, and what the result and EX say of the exact result. -/

namespace Sys2Proof.Machine

section
variable {s : State} {a b : Operand}

/-! ## The effect -/

/-- R165: a computing instruction completes with the pair of its two sources; `exec` of ADD, SUB, MUL and
MLI is this `conclude` by definition. -/
theorem conclude_compute (hin : computeInside a b s) (ho : s.specOrder) (hl : a.isLiteral = false)
    {g : Word → Word → Word × Word} {result ex : Word}
    (hg : g (sourceA a b s) (sourceB a b s) = (result, ex)) :
    conclude (compute g a b s) = .next (computeEffect a b result ex s) := by
  rw [compute_completes ho g hin hl, hg, conclude_ok]

/-! ## The exact result -/

/-- R169: the signed reading of 32 bits is that of their high Word, and the low Word. -/
theorem toInt_eq_high_low (x : BitVec 32) :
    x.toInt = 0x10000 * (x.extractLsb' 16 16).toInt + (x.extractLsb' 0 16).toNat := by
  have hx := x.isLt
  simp only [BitVec.toInt_eq_toNat_cond, BitVec.extractLsb'_toNat, Nat.shiftRight_eq_div_pow]
  split <;> split <;> omega

theorem addPair_exact (va vb : Word) :
    va.toNat + vb.toNat = 0x10000 * (addPair va vb).2.toNat + (addPair va vb).1.toNat := by
  rw [addPair_eq]
  split <;> bv_omega

theorem subPair_exact (va vb : Word) :
    (va.toNat : Int) - vb.toNat = 0x10000 * (subPair va vb).2.toInt + (subPair va vb).1.toNat := by
  rw [subPair_eq]
  by_cases hborrow : va.toNat < vb.toNat
  · have hEx : (0xFFFF : Word).toInt = -1 := rfl
    rw [if_pos hborrow, hEx]
    bv_omega
  · have hEx : (0 : Word).toInt = 0 := rfl
    rw [if_neg hborrow, hEx]
    bv_omega

theorem mulPair_exact (va vb : Word) :
    va.toNat * vb.toNat = 0x10000 * (mulPair va vb).2.toNat + (mulPair va vb).1.toNat := by
  have hprod := mul_lt va vb
  simp only [mulPair, BitVec.toNat_ofNat]
  omega

/-- R169: the signed product fits in 32 bits. -/
theorem mliPair_exact (va vb : Word) :
    va.toInt * vb.toInt = 0x10000 * (mliPair va vb).2.toInt + (mliPair va vb).1.toNat := by
  obtain ⟨hmin, hmax⟩ := signed_mul_bounds va vb
  simp only [mliPair, signed_eq_toInt]
  rw [← toInt_eq_high_low, BitVec.toInt_ofInt_eq_self (by decide) (by omega) (by omega)]

/-! ## The values EX takes -/

/-- R171: the high Word of an unsigned product. -/
theorem mulPair_ex_le (va vb : Word) : (mulPair va vb).2.toNat ≤ 0xFFFE := by
  have hexact := mulPair_exact va vb
  have hprod := mul_lt va vb
  omega

/-- R171: the high Word of a signed product, read as signed, is -0x4000 to 0x4000. -/
theorem mliPair_ex_range (va vb : Word) :
    (mliPair va vb).2.toNat ≤ 0x4000 ∨ 0xC000 ≤ (mliPair va vb).2.toNat := by
  have hexact := mliPair_exact va vb
  obtain ⟨hmin, hmax⟩ := signed_mul_bounds va vb
  have hlow := (mliPair va vb).1.isLt
  rw [BitVec.toInt_eq_toNat_cond (x := (mliPair va vb).2)] at hexact
  split at hexact <;> omega

end

/-- Settles O21: the pair of ADD is the sum and the carry. -/
theorem addCompletesWithSumAndCarry : Obligations.AddCompletesWithSumAndCarry :=
  fun _ _ _ hin ho hl => conclude_compute hin ho hl (addPair_eq _ _)

/-- Settles O22: the pair of SUB is the difference and the borrow. -/
theorem subCompletesWithDifferenceAndBorrow : Obligations.SubCompletesWithDifferenceAndBorrow :=
  fun _ _ _ hin ho hl => conclude_compute hin ho hl (subPair_eq _ _)

/-- Settles O23: the pair of MUL is the two Words of the unsigned product. -/
theorem mulCompletesWithUnsignedProduct : Obligations.MulCompletesWithUnsignedProduct :=
  fun _ _ _ hin ho hl => conclude_compute hin ho hl (mulPair_eq _ _)

/-- Settles O24: the low Word of the signed product is that of the unsigned one. -/
theorem mliCompletesWithSignedProduct : Obligations.MliCompletesWithSignedProduct :=
  fun _ _ _ hin ho hl => conclude_compute hin ho hl (mliPair_eq _ _)

/-- Settles O26: each pair is the exact result, cut at 16 bits. -/
theorem resultAndExHoldTheExactResult : Obligations.ResultAndExHoldTheExactResult :=
  fun va vb => ⟨addPair_exact va vb, subPair_exact va vb, mulPair_exact va vb, mliPair_exact va vb⟩

/-- Settles O27: the carry and the borrow by their cases, the high Words by the range of the product. -/
theorem exTakesOnlyTheListedValues : Obligations.ExTakesOnlyTheListedValues := by
  intro va vb
  refine ⟨?carry, ?borrow, mulPair_ex_le va vb, mliPair_ex_range va vb⟩
  case carry =>
    rw [addPair_eq]
    exact (ite_eq_or_eq _ _ _).symm
  case borrow =>
    rw [subPair_eq]
    exact (ite_eq_or_eq _ _ _).symm

end Sys2Proof.Machine
end

section
/-! PROOFS. The Word with opcode 0x0, which no mnemonic has. -/

namespace Sys2Proof.Machine

/-- Settles O13: the opcode 0 has no semantics; no activation was open before. -/
theorem opcodeZeroFaultsPastItsWord : Obligations.OpcodeZeroFaultsPastItsWord := by
  intro s hc hp hop
  have hi : (decode (s.mem.read s.pc.toNat)).implemented = false := by
    rw [← Bool.not_eq_true, implemented_iff, opcodeValue_decode, hop]
    decide
  rw [step_unimplemented hc hp hi, hop, State.latch, ← hc.agents]
  rfl

end Sys2Proof.Machine
end

section
/-! PROOFS. The invariant `State.Inv` is kept by the host: by devices that are registered and put on the bus, by
an observer, a load and a reset, and so by every host operation. -/

namespace Sys2Proof.Machine

section
variable {s t : State}

/-! ## Devices and the bus -/

theorem Frame.known_mono {f : Frame} {m n : Nat} (hmn : m ≤ n) (h : f.known m = true) :
    f.known n = true := by
  cases f with
  | observe | update | acts =>
    simp only [Frame.known, decide_eq_true_eq] at h ⊢
    exact Nat.lt_of_lt_of_le h hmn
  | pushA | jump | exUpdate => rfl

/-- R228: a new device stands after the others, so every reference to a device stays good. -/
theorem State.Inv.addDevice (h : s.Inv) (d : Device) : (s.setDevices (s.devices ++ [d])).Inv := by
  have hlen : s.devices.length ≤ (s.devices ++ [d]).length := by simp
  exact { h with
    watchKnown := fun p hp => Nat.lt_of_lt_of_le (h.watchKnown p hp) hlen
    busKnown := fun p hp => by
      obtain ⟨e, he, hid⟩ := Option.map_eq_some_iff.1 (h.busKnown p hp)
      obtain ⟨hlt, -⟩ := List.getElem?_eq_some_iff.1 he
      rw [State.setDevices_devices, List.getElem?_append_left hlt, he, Option.map_some, hid]
    agentsKnown := fun f hf => Frame.known_mono hlen (h.agentsKnown f hf) }

/-- R31: an id is inserted in the registry once. -/
theorem busInsert_nodup {b : List (HardwareId × Nat)} (h : (b.map Prod.fst).Nodup) (id : HardwareId)
    (n : Nat) : ((busInsert id n b).map Prod.fst).Nodup := by
  rw [busInsert_ids]
  split
  · exact h
  · rename_i hid
    rw [← List.concat_eq_append]
    exact h.concat hid

/-- R228: a device is put on the bus under the id it has. -/
theorem State.Inv.putOnBus (h : s.Inv) {dev : Nat} {d : Device} (hd : s.devices[dev]? = some d) :
    (putOnBus d.id dev s).Inv :=
  { h with
    busIds := busInsert_nodup h.busIds d.id dev
    busKnown := busInsert_known (congrArg (Option.map Device.id) hd) h.busKnown }

theorem State.Inv.registerDevice (h : s.Inv) (d : Device) : (registerDevice d s).Inv :=
  (h.addDevice d).putOnBus List.getElem?_concat_length

/-! ## The other operations -/

/-- R45: an observer of an existing device. -/
theorem State.Inv.insertWatch (h : s.Inv) (x : Nat) {hd : Handler} (hlt : hd.dev < s.devices.length) :
    (s.setWatch (insertCell x hd s.watch)).Inv :=
  { h with
    watchSorted := insert_sorted x hd h.watchSorted
    watchKnown := fun p hp => by
      rcases mem_insert hp with rfl | hp
      · exact hlt
      · exact h.watchKnown p hp }

/-- R44: a load that fits. -/
theorem State.Inv.setMem_copy (h : s.Inv) {o : Nat} {ws : List Word}
    (hfit : o + ws.length ≤ s.params.memSize) : (s.setMem (s.mem.copy o ws)).Inv :=
  { h with
    memWf := Memory.copy_wf ws h.memWf o
    memInside := Memory.copy_inside ws h.memInside hfit }

/-- R262: a reset closes every activation and clears the latch. -/
theorem State.Inv.resetCpu (h : s.Inv) : s.resetCpu.Inv :=
  { h with agentsKnown := fun _ hf => absurd hf List.not_mem_nil, stopped := fun _ => rfl }

theorem State.Inv.writeHostReg (h : s.Inv) (r : HostReg) (v : Word) : (writeHostReg r v s).Inv := by
  cases r <;> exact { h with }

/-- R43: a write in range. -/
theorem State.Inv.stored (h : s.Inv) {x : Nat} (hx : x < s.params.memSize) (v : Word) :
    (s.stored x v).Inv :=
  inv_stable.agents _ x v (h.setMem_write hx v)

/-- R267: rendering on demand changes the state of a device only. -/
theorem State.Inv.renderOnDemand (h : s.Inv) (hr : conclude (renderOnDemand s) = .next t) : t.Inv :=
  conclude_next hr (renderOnDemand_keeps (fun _ _ hids hu => hu.setDevices hids) h)
    fun _ f hu => hu.latch f

/-- R232: an injected interrupt. -/
theorem State.Inv.interrupt (h : s.Inv) {msg : Word} (hi : conclude (interrupt msg s) = .next t) :
    t.Inv :=
  conclude_next hi (interrupt_keeps inv_stable h msg) fun _ f hu => hu.latch f

/-- R268: row by row of what the host can do. -/
theorem State.Inv.hostMove {op : HostOp} (h : s.Inv) (hm : hostMove op s = .next t) : t.Inv := by
  rcases hostMove_next hm with ⟨d, -, rfl⟩ | ⟨x, hd, -, hlt, rfl⟩ | ⟨text, ws, -, -, hfit, rfl⟩ |
    ⟨n, poll, hf, rfl⟩ | ⟨r, v, -, rfl⟩ | ⟨x, v, -, hx, rfl⟩ | ⟨o, ws, hfit, rfl⟩ |
    ⟨dev, e, -, -, rfl⟩ | ⟨-, hr⟩ | ⟨msg, -, hi⟩ | ⟨x, rfl, -⟩ | rfl | ⟨dev, d, -, hd, rfl⟩
  · exact h.registerDevice d
  · exact h.insertWatch x hlt
  · exact (h.setMem_copy (by omega)).resetCpu
  · exact h.setPhase hf _
  · exact h.writeHostReg r _
  · exact h.stored hx _
  · exact h.setMem_copy hfit
  · exact h.signal dev _ []
  · exact h.renderOnDemand hr
  · exact h.interrupt hi
  · exact h.latch _
  · exact h
  · exact h.putOnBus hd

end

/-- Settles O48: a host operation that has an effect is a row of the table of what the host can do. -/
theorem hostOperationKeepsTheInvariant : Obligations.HostOperationKeepsTheInvariant := by
  intro s t op h hstep
  obtain ⟨-, -, hmove⟩ := hostStep_next hstep
  exact h.hostMove hmove

end Sys2Proof.Machine
end

section
/-! PROOFS. Registering a device, and the poll of the bus at the end of a run. -/

namespace Sys2Proof.Machine

section
variable {s : State}

/-- R228, R229: a device put on the bus is found by its id, every other id finds what it found before. -/
theorem getDevice_putOnBus (id : HardwareId) (dev : Nat) (s : State) :
    getDevice id (putOnBus id dev s) = some dev ∧
      ∀ k, k ≠ id → getDevice k (putOnBus id dev s) = getDevice k s :=
  ⟨lookup_busInsert_same id dev s.bus, fun _ hk => lookup_busInsert_ne hk dev s.bus⟩

/-- R121: with no cycle left the step is the end of `exec`. -/
theorem step_endOfExec {poll : Bool} (hf : s.fault = none) (ha : s.agents = [])
    (hp : s.phase = .cycles 0 poll) : step s = .next (endOfExec poll s) := by
  simp [step, move1, cpuMove, turn, ha, hf, hp]

end

/-- Settles O55: either way of registering puts the device on the bus under its id. -/
theorem registerDeviceReplacesById : Obligations.RegisterDeviceReplacesById := by
  refine ⟨fun _ _ _ => ⟨rfl, rfl, rfl⟩, fun s d ha hp => ⟨?new, fun dev hd => ?again⟩⟩
  case new =>
    obtain ⟨hsame, hother⟩ :=
      getDevice_putOnBus d.id s.devices.length (s.setDevices (s.devices ++ [d]))
    exact ⟨registerDevice d s, hostStep_betweenRuns ha hp, hsame, rfl, hother,
      busInsert_ids d.id s.devices.length s.bus, rfl, rfl, rfl⟩
  case again =>
    obtain ⟨hsame, hother⟩ := getDevice_putOnBus d.id dev s
    refine ⟨putOnBus d.id dev s, ?_, hsame, hother, busInsert_ids d.id dev s.bus, rfl⟩
    rw [hostStep_betweenRuns ha hp, hostMove, hd]

/-- Settles O10: no fault is latched and no activation is open, so the step is the end of `exec`. -/
theorem endOfRunPollsEveryDevice : Obligations.EndOfRunPollsEveryDevice := by
  refine fun s hf ha => ⟨fun hp => step_endOfExec hf ha hp, fun hp => ?_⟩
  rw [step_endOfExec hf ha hp, endOfExec, ha]
  rfl

end Sys2Proof.Machine
end

section
/-! PROOFS. The faults an instruction can latch: those of its accesses, or that of its opcode. -/

namespace Sys2Proof.Machine

section
variable {α β : Type} {a b o : Operand} {s t : State} {f : Fault} {p : Params}

/-- R211, R213: the faults the accesses of an instruction with destination `a` can raise: a memory access
outside memory, or a write access to a literal. -/
def accessFault (a : Operand) (p : Params) (f : Fault) : Prop :=
  (∃ x, f = .addressing x ∧ p.memSize ≤ x) ∨
    (a.isLiteral = true ∧ f = .illegalWrite (encodeOperand a))

theorem params_stable (p : Params) : Stable fun u => u.params = p :=
  .of_sameSystem fun _ _ ⟨_, _, _, hp⟩ _ _ h => hp.trans h

/-- R10: a fault of `m ; k` is one of `m`, or one of `k` after `m` completed. -/
theorem Micro.bind_raised_cases {G : Prop} {P : State → Prop} {m : Micro α} {k : α → State → Micro β}
    (h : m.bind k = .raised f t) (hP : m.All P) (hm : m = .raised f t → G)
    (hk : ∀ v u, m = .ok v u → P u → k v u = .raised f t → G) : G := by
  rcases Micro.bind_eq_raised.1 h with h | ⟨v, u, hv, h⟩
  · exact hm h
  · exact hk v u hv (hP.of_ok hv) h

theorem resolve_accessFault (a : Operand) (hs : s.params = p) (h : resolve o s = .raised f t) :
    accessFault a p f := by
  obtain ⟨-, hx, rfl, -⟩ := resolve_raised h
  exact .inl ⟨_, rfl, hs ▸ Nat.not_lt.1 hx⟩

theorem readDesc_accessFault {d : Desc} (a : Operand) (hs : s.params = p)
    (h : readDesc d s = .raised f t) : accessFault a p f := by
  obtain ⟨-, hx⟩ := readDesc_raised h
  exact .inl (hs ▸ hx)

theorem readPair_accessFault {dA dB : Desc} (a : Operand) (hs : s.params = p)
    (h : readPair dA dB s = .raised f t) : accessFault a p f := by
  have key : ∀ (d₁ d₂ : Desc) (g : Word → Word → Word × Word),
      ((readDesc d₁ s).bind fun x u => (readDesc d₂ u).bind fun y w => .ok (g x y) w) = .raised f t →
      accessFault a p f := fun d₁ d₂ g h =>
    Micro.bind_raised_cases h (readDesc_keeps (params_stable p) hs d₁) (readDesc_accessFault a hs)
      fun _ _ _ h₁ h =>
    Micro.bind_raised_cases h (readDesc_keeps (params_stable p) h₁ d₂) (readDesc_accessFault a h₁)
      fun _ _ _ _ h => nomatch h
  unfold readPair at h
  split at h
  · exact key dA dB (fun x y => (x, y)) h
  · exact key dB dA (fun y x => (x, y)) h

/-- R213: the destination's descriptor is a literal only if the destination is. -/
theorem writeDesc_accessFault {d : Desc} {v : Word} {u w : State} (hd : resolve a u = .ok d w)
    (hs : s.params = p) (h : writeDesc d v s = .raised f t) : accessFault a p f := by
  obtain ⟨-, ⟨x, rfl, hx⟩ | ⟨c, v, hlit, rfl⟩⟩ := writeDesc_raised h
  · exact .inl ⟨x, rfl, hs ▸ hx⟩
  · obtain ⟨-, -, -, -, -, hcode⟩ := resolve_names hd
    obtain ⟨hl, rfl⟩ := hcode c v hlit
    exact .inr ⟨hl, rfl⟩

/-- R141 steps 7 and 8: of the two updates only the write access can fault. -/
theorem putPair_accessFault {d : Desc} {r : Word × Word} {u w : State} (hd : resolve a u = .ok d w)
    (hs : s.params = p) (h : putPair d r s = .raised f t) : accessFault a p f := by
  unfold putPair at h
  split at h
  · rcases Micro.bind_eq_raised.1 h with h | ⟨_, _, -, h⟩
    · exact writeDesc_accessFault hd hs h
    · cases h
  · exact writeDesc_accessFault (s := s.setEx r.2) hd hs h

/-- R125 (D6): the result is written through a descriptor of the destination. -/
theorem target_resolves {dA d : Desc} {u w : State} (hA : resolve a u = .ok dA w)
    (h : target a dA s = .ok d t) : ∃ u w, resolve a u = .ok d w := by
  rcases target_ok h with ⟨-, rfl⟩ | ⟨hd, -⟩
  · exact ⟨u, w, hA⟩
  · exact ⟨s, t, hd⟩

theorem target_accessFault {dA : Desc} (hs : s.params = p) (h : target a dA s = .raised f t) :
    accessFault a p f := by
  unfold target at h
  split at h
  · cases h
  · split at h
    · exact resolve_accessFault a hs h
    · cases h

theorem move_accessFault (h : move a b s = .raised f t) : accessFault a s.params f :=
  have hP := params_stable s.params
  Micro.bind_raised_cases h (resolve_keeps hP rfl a) (resolve_accessFault a rfl) fun _ _ hA h1 h =>
  Micro.bind_raised_cases h (resolve_keeps hP h1 b) (resolve_accessFault a h1) fun dB _ _ h2 h =>
  Micro.bind_raised_cases h (readDesc_keeps hP h2 dB) (readDesc_accessFault a h2) fun _ _ _ h3 h =>
  writeDesc_accessFault hA h3 h

theorem compute_accessFault {g : Word → Word → Word × Word} (h : compute g a b s = .raised f t) :
    accessFault a s.params f :=
  have hP := params_stable s.params
  Micro.bind_raised_cases h (resolve_keeps hP rfl a) (resolve_accessFault a rfl) fun dA _ hA h1 h =>
  Micro.bind_raised_cases h (resolve_keeps hP h1 b) (resolve_accessFault a h1) fun dB _ _ h2 h =>
  Micro.bind_raised_cases h (readPair_keeps hP h2 dA dB) (readPair_accessFault a h2) fun _ _ _ h3 h =>
  Micro.bind_raised_cases h (target_keeps hP h3 a dA) (target_accessFault h3) fun _ _ ht h4 h =>
  have ⟨_, _, hd⟩ := target_resolves hA ht
  putPair_accessFault hd h4 h

/-- R141: an implemented instruction is the conclusion of a micro-operation that keeps the latch and raises
only the faults of its accesses. -/
theorem exec_implemented {i : Instr} (hi : i.implemented = true) (s : State) :
    ∃ m : Micro Unit, exec i s = conclude m ∧ (m.All fun u => u.fault = s.fault) ∧
      ∀ f u, m = .raised f u → accessFault i.operandA s.params f := by
  have computes : ∀ a b g, ((compute g a b s).All fun u => u.fault = s.fault) ∧
      ∀ f u, compute g a b s = .raised f u → accessFault a s.params f :=
    fun a b g => ⟨compute_keeps (fault_stable s) rfl g a b, fun _ _ h => compute_accessFault h⟩
  cases i with
  | set a b => exact ⟨_, rfl, move_keeps (fault_stable s) rfl a b, fun _ _ h => move_accessFault h⟩
  | add a b => exact ⟨_, rfl, computes a b addPair⟩
  | sub a b => exact ⟨_, rfl, computes a b subPair⟩
  | mul a b => exact ⟨_, rfl, computes a b mulPair⟩
  | mli a b => exact ⟨_, rfl, computes a b mliPair⟩
  | _ => cases hi

/-- R210 to R213: an instruction leaves no fault, or latches that of its opcode or of one of its accesses. -/
theorem exec_fault_cases {i : Instr} (hs : s.fault = none) (he : exec i s = .next t) :
    (i.implemented = true ∧ t.fault = none) ∨ ∃ (f : Fault) (u : State), t = u.latch f ∧
      ((i.implemented = false ∧ f = .unknownOpcode (opcodeValue i)) ∨
        (i.implemented = true ∧ accessFault i.operandA s.params f)) := by
  cases hi : i.implemented with
  | false =>
    rw [exec_unimplemented hi] at he
    cases he
    exact .inr ⟨_, s, rfl, .inl ⟨rfl, rfl⟩⟩
  | true =>
    obtain ⟨m, hm, hkeep, hraised⟩ := exec_implemented hi s
    rw [hm] at he
    cases m with
    | ok _ u => cases he; exact .inl ⟨rfl, hkeep.trans hs⟩
    | raised f u => cases he; exact .inr ⟨f, u, rfl, .inr ⟨rfl, hraised f u rfl⟩⟩

end

/-- Settles O33: no fault, the fault of an opcode without semantics, or one of the two of an access. -/
theorem faultsAnInstructionCanLatch : Obligations.FaultsAnInstructionCanLatch := by
  intro i s t hs he
  rcases exec_fault_cases hs he with
    ⟨hi, hf⟩ | ⟨f, u, rfl, ⟨hi, rfl⟩ | ⟨hi, ⟨x, rfl, hx⟩ | ⟨hl, rfl⟩⟩⟩
  · simp [hi, hf]
  · simp [hi, eq_comm (a := opcodeValue i)]
  · simpa [hi] using hx
  · simp [hi, hl]

end Sys2Proof.Machine
end

section
/-! PROOFS. Interrupt entry and the return from it. -/

namespace Sys2Proof.Machine

section
variable {s : State} {v msg : Word}

/-! ## Two pushes -/

/-- R222: the state after a push to a cell without an observer. -/
def State.pushed (s : State) (v : Word) : State :=
  (s.setSp (s.sp - 1)).setMem (s.mem.write (s.sp - 1).toNat v)

@[simp] theorem State.pushed_sp : (s.pushed v).sp = s.sp - 1 := (rfl)
@[simp] theorem State.pushed_mem : (s.pushed v).mem = s.mem.write (s.sp - 1).toNat v := (rfl)

theorem word_sub_one_sub_one (w : Word) : w - 1 - 1 = w - 2 := by bv_omega

theorem word_sub_two_add_one (w : Word) : w - 2 + 1 = w - 1 := by bv_omega

/-- R222: the two pushes go to two cells. -/
theorem word_sub_one_ne_sub_two (w : Word) : (w - 1).toNat ≠ (w - 2).toNat := by bv_omega

/-- R222: after the push of PC, with no observer called, the entry goes on with the push of A. -/
theorem interrupt_pushPc (hia : s.ia ≠ 0) (hx : (s.sp - 1).toNat < s.params.memSize)
    (hw : lookupCell (s.sp - 1).toNat s.watch = none) :
    interrupt msg s = entryPushA msg (s.pushed s.pc) := by
  rw [interrupt_enabled msg hia, pushThen_unwatched hx hw]
  rfl

theorem entryPushA_unwatched (hx : (s.sp - 1).toNat < s.params.memSize)
    (hw : lookupCell (s.sp - 1).toNat s.watch = none) :
    entryPushA msg s = .ok () (((s.pushed (s.reg .a)).setPc s.ia).setReg .a msg) := by
  rw [entryPushA, pushThen_unwatched hx hw]
  rfl

theorem entryPushA_watched (hx : (s.sp - 1).toNat < s.params.memSize) {hd : Handler}
    (hw : lookupCell (s.sp - 1).toNat s.watch = some hd) :
    entryPushA msg s = .ok () ((s.pushed (s.reg .a)).setAgents
      (.observe hd (s.sp - 1).toNat (s.reg .a) :: .jump msg :: s.agents)) := by
  rw [entryPushA, pushThen_watched hx hw]
  rfl

theorem entryPushA_out (hx : s.params.memSize ≤ (s.sp - 1).toNat) :
    entryPushA msg s = .raised (.addressing (s.sp - 1).toNat) (s.setSp (s.sp - 1)) :=
  pushThen_out (Nat.not_lt.2 hx)

/-- R222: what the two pushes of the entry leave on the stack. -/
theorem pushed_pushed_read (s : State) (v w : Word) :
    ((s.pushed v).pushed w).mem.read (s.sp - 1).toNat = v ∧
      ((s.pushed v).pushed w).mem.read (s.sp - 2).toNat = w ∧
      ∀ x, x ≠ (s.sp - 1).toNat → x ≠ (s.sp - 2).toNat →
        ((s.pushed v).pushed w).mem.read x = s.mem.read x := by
  simp only [State.pushed_mem, State.pushed_sp, word_sub_one_sub_one]
  refine ⟨?_, Memory.read_write_same .., fun x hx1 hx2 => ?_⟩
  · rw [Memory.read_write_ne _ _ _ _ (word_sub_one_ne_sub_two s.sp), Memory.read_write_same]
  · rw [Memory.read_write_ne _ _ _ _ hx2, Memory.read_write_ne _ _ _ _ hx1]

/-! ## The return -/

theorem Regs.set_set (g : Regs) (r : Reg) (v w : Word) : (g.set r v).set r w = g.set r w := by
  cases r <;> rfl

/-- With all 65536 Words a pop into PC completes. -/
theorem exec_set_pc_pop (hm : s.fullMemory) :
    exec (.set .pc .stack) s =
      .next ((s.setSp (s.sp + 1)).setPc (s.mem.read s.sp.toNat)) := by
  obtain ⟨hreads, -⟩ := setInside_full hm .pc .stack
  rw [exec_set_reads hreads]
  rfl

/-- R225: the return sequence takes A and then PC from the stack. -/
theorem return_pops (hm : s.fullMemory) :
    ∃ u v, exec (.set (.reg .a) .stack) s = .next u ∧ exec (.set .pc .stack) u = .next v ∧
      v.regs = s.regs.set .a (s.mem.read s.sp.toNat) ∧ v.pc = s.mem.read (s.sp + 1).toNat ∧
      v.sp = s.sp + 1 + 1 ∧ v.ex = s.ex ∧ v.ia = s.ia :=
  have hm' : ((s.setSp (s.sp + 1)).setReg .a (s.mem.read s.sp.toNat)).fullMemory := hm
  ⟨_, _, exec_set_pop hm .a, exec_set_pc_pop hm', rfl, rfl, rfl, rfl, rfl⟩

end

/-- Settles O41: the entry looks at IA first. -/
theorem interruptDisabledDoesNothing : Obligations.InterruptDisabledDoesNothing :=
  fun _ msg h => interrupt_disabled msg h

/-- Settles O42: two pushes to cells without an observer, and the jump at once. -/
theorem interruptEntryPushesPcThenA : Obligations.InterruptEntryPushesPcThenA := by
  refine ⟨fun s msg hia hx1 hx2 hw1 hw2 => ⟨((s.pushed s.pc).pushed (s.reg .a)).mem, ?_,
    pushed_pushed_read s s.pc (s.reg .a)⟩, fun s msg ha hp => hostStep_betweenRuns ha hp⟩
  rw [← word_sub_one_sub_one] at hx2 hw2 ⊢
  rw [interrupt_pushPc hia hx1 hw1, entryPushA_unwatched (s := s.pushed s.pc) hx2 hw2]
  rfl

/-- Settles O43: the push of PC or the push of A calls an observer; a waiting push, and a waiting jump. -/
theorem interruptEntryWaitsForAnObserver : Obligations.InterruptEntryWaitsForAnObserver := by
  refine ⟨fun s msg h hia hx => ⟨fun hw => ?pcWatched, fun hw hx2 hw2 => ?aWatched⟩,
    fun s msg rest ha => ⟨fun hx => ?pushOut, fun hx => ?pushIn⟩, fun s msg rest ha => step_agent ha⟩
  case pcWatched =>
    have hpush : interrupt msg s = _ :=
      (interrupt_enabled msg hia).trans (pushThen_watched hx hw)
    exact ⟨_, hpush, rfl, rfl, rfl, Memory.read_write_same .., rfl⟩
  case aWatched =>
    obtain ⟨hpc, hra, -⟩ := pushed_pushed_read s s.pc (s.reg .a)
    have hsp : (s.pushed s.pc).sp - 1 = s.sp - 2 := word_sub_one_sub_one s.sp
    have hpush := entryPushA_watched (s := s.pushed s.pc) (msg := msg) (by rwa [hsp]) (by rwa [hsp])
    rw [← interrupt_pushPc hia hx hw] at hpush
    exact ⟨_, hpush, rfl, rfl, hsp, hpc, hra, by rw [hsp]; rfl⟩
  case pushOut =>
    rw [step_agent ha, agentMove, entryPushA_out (s := s.setAgents rest) hx]
    rfl
  case pushIn =>
    refine ⟨(s.pushed (s.reg .a)).mem, Memory.read_write_same ..,
      fun x hne => Memory.read_write_ne _ _ _ _ hne, fun hw => ?_, fun h hw => ?_⟩
    · rw [step_agent ha, agentMove, entryPushA_unwatched (s := s.setAgents rest) hx hw]
      rfl
    · rw [step_agent ha, agentMove, entryPushA_watched (s := s.setAgents rest) hx hw]
      rfl

/-- Settles O44: the first push faults, or the second after a first to a cell without an observer. -/
theorem interruptEntryFaults : Obligations.InterruptEntryFaults := by
  refine fun s msg hia => ⟨fun hx => ?first, fun hx1 hx2 hw => ?second⟩
  case first =>
    exact (interrupt_enabled msg hia).trans (pushThen_out (Nat.not_lt.2 hx))
  case second =>
    have hsp : (s.pushed s.pc).sp - 1 = s.sp - 2 := word_sub_one_sub_one s.sp
    refine ⟨(s.pushed s.pc).setSp (s.sp - 2), ?_, rfl, rfl, rfl, Memory.read_write_same ..⟩
    rw [interrupt_pushPc hia hx1 hw, entryPushA_out (by rwa [hsp]), hsp]

/-- Settles O45: the pops read the two Words the entry pushed, A's first. -/
theorem returnSequenceUndoesEntry : Obligations.ReturnSequenceUndoesEntry := by
  intro s t msg hm hia hw1 hw2 ht
  obtain ⟨hentry, -⟩ := interruptEntryPushesPcThenA
  obtain ⟨m, hok, hpc, hra, -⟩ :=
    hentry s msg hia (toNat_lt_full hm _) (toNat_lt_full hm _) hw1 hw2
  cases hok.symm.trans ht
  obtain ⟨u, v, hu, hv, hregs, hpcv, hspv, hexv, hiav⟩ :=
    return_pops (s := { s with regs := s.regs.set .a msg, pc := s.ia, sp := s.sp - 2, mem := m }) hm
  refine ⟨u, v, hu, hv, ?_, ?_, ?_, hexv, hiav⟩
  · rw [hregs, hra, Regs.set_set, State.reg, Regs.set_get]
  · rw [hpcv, word_sub_two_add_one, hpc]
  · rw [hspv, word_sub_two_add_one, sub_add_cancel]

end Sys2Proof.Machine
end

section
/-! PROOFS. The Display: its registers, its dirty flag, its rendering, its update and `getDisplayPixels()`. -/

namespace Sys2Proof.Machine

section
variable {s t : State} {x : Display} {r q : DisplayReg} {addr dev : Nat} {v : Word} {clears : Bool}

/-! ## Registers and the dirty flag -/

/-- R233: a written register takes the value. -/
theorem register_displayRegister_same (x : Display) (r : DisplayReg) (v : Word) :
    (displayRegister x r.offset v).register r = v := by
  simp [displayRegister_offset, Display.register]

/-- R233: the other three registers stand at other offsets. -/
theorem register_displayRegister_ne (h : q ≠ r) :
    (displayRegister x r.offset v).register q = x.register q := by
  have hne : (r.offset : Nat) ≠ q.offset := fun e => h (DisplayReg.offset_inj (Fin.ext e.symm))
  simp [displayRegister_offset, Display.register, Vector.getElem_set_ne _ _ hne]

/-- R233: the window depends on the screen base only. -/
theorem inScreen_congr {y : Display} (h : y.register .screenBase = x.register .screenBase) :
    inScreen y addr = inScreen x addr := by
  rw [inScreen, inScreen, h]

/-- R233: a write that changes the register makes the Display dirty by itself, any other leaves the window
where it was. -/
theorem dirty_register_write :
    (touchScreen (displayRegister x r.offset v) addr).dirty = true ↔
      x.dirty = true ∨ x.register r ≠ v ∨ inScreen x addr = true := by
  have hd : (displayRegister x r.offset v).dirty = (x.dirty || x.register r != v) := by
    rw [displayRegister_offset]
  by_cases hv : x.register r = v
  · have hbase : (displayRegister x r.offset v).register .screenBase = x.register .screenBase := by
      by_cases hr : DisplayReg.screenBase = r
      · rw [hr, register_displayRegister_same, hv]
      · exact register_displayRegister_ne hr
    simp [touchScreen, hd, inScreen_congr hbase, hv]
  · simp [touchScreen, hd, hv]

/-! ## Rendering -/

theorem render_clean (ha : x.attached = true) (hd : x.dirty = false) : render dev clears x s = .ok () s := by
  simp [render, ha, hd]

/-- R234: a dirty Display renders every pixel. -/
theorem render_dirty (ha : x.attached = true) (hd : x.dirty = true) :
    render dev clears x s = renderPixels dev clears pixelCount x s := by
  simp [render, ha, hd]

/-- R234: without a CPU/memory reference the buffer is filled, or a clean Display left alone. -/
theorem render_detached (ha : x.attached = false) :
    (x.dirty = false ∧ render dev clears x s = .ok () s) ∨
      render dev clears x s = .ok () (setDevice dev (.display (fallbackFill clears x)) s) := by
  unfold render
  rw [ha]
  cases hd : x.dirty with
  | true => exact .inr rfl
  | false =>
    cases Config.fallbackWhenClean with
    | true => exact .inr rfl
    | false => exact .inl ⟨rfl, rfl⟩

/-- R230: the update of a Display renders it and clears the flag. -/
theorem updateDevice_display (hd : s.devices[dev]? = some (.display x)) (input : Nat) :
    updateDevice dev input s = render dev true x s := by
  simp [updateDevice, hd]

/-! ## The Display of the bus -/

theorem busDisplay_eq_none
    (h : ∀ dev x, getDevice displayId s = some dev → s.devices[dev]? ≠ some (.display x)) :
    busDisplay s = none := by
  refine Option.eq_none_iff_forall_ne_some.2 fun ⟨dev, x⟩ hb => ?_
  obtain ⟨hbus, hdev⟩ := busDisplay_eq_some.1 hb
  exact h dev x hbus hdev

/-- R267: a completed rendering leaves a Display at its place among the devices. -/
theorem render_ok_display (hd : s.devices[dev]? = some (.display x))
    (h : render dev clears x s = .ok () t) :
    t.bus = s.bus ∧ ∃ y, t.devices[dev]? = some (.display y) := by
  obtain ⟨hlt, -⟩ := List.getElem?_eq_some_iff.1 hd
  rcases (render_all dev clears x s).of_ok h with rfl | ⟨y, rfl⟩
  · exact ⟨rfl, x, hd⟩
  · exact ⟨rfl, y, List.getElem?_set_self hlt⟩

/-- R267: the buffer given out is that of the Display of the bus. -/
theorem displayPixels_display (hbus : getDevice displayId s = some dev)
    (hd : s.devices[dev]? = some (.display x)) : displayPixels s = x.pixels := by
  rw [displayPixels, busDisplay_eq_some.2 ⟨hbus, hd⟩]

end

/-- Settles O56: a write is the register's change and the window's; a rendering is of all pixels, or the
fallback. -/
theorem displayRegistersAndDirtyFlag : Obligations.DisplayRegistersAndDirtyFlag := by
  refine ⟨fun k => ?offsets, fun x r q addr v => ⟨?register, ?window⟩,
    fun s dev clears x => ⟨render_clean, fun ha hd => ?dirty, fun ha => ?detached⟩,
    fun s dev rest x ha hd => ?update, fun s ha hp => ⟨fun hno => ?blank, fun dev x hbus hd => ?pixels⟩⟩
  case offsets =>
    obtain ⟨r, rfl⟩ := DisplayReg.exists_offset k
    exact ⟨r, rfl, fun q hq => DisplayReg.offset_inj hq⟩
  case register =>
    refine ⟨touchScreen (displayRegister x r.offset v) addr, rfl, register_displayRegister_same x r v,
      register_displayRegister_ne, ?_, dirty_register_write⟩
    rw [displayRegister_offset]
    rfl
  case window => exact ⟨touchScreen x addr, rfl, rfl, rfl, Bool.or_eq_true_iff⟩
  case dirty =>
    rw [render_dirty ha hd]
    rcases renderPixels_cases dev clears pixelCount x s (Nat.le_refl _) with
      ⟨y, hok, hregs, -, hdirty, hpixels⟩ | ⟨u, a, n, hraised, ha, hn, hpixel, hu⟩
    · refine .inl ⟨y, hregs, by simpa [hd] using hdirty, fun n h => ?_, hok⟩
      simpa using hpixels n h
    · refine .inr ⟨n, a, u, hn, ha, hpixel, hraised, hu.imp_right fun ⟨y, hy, hregs, _, hdirty⟩ => ?_⟩
      exact ⟨y, hregs, hdirty.trans hd, hy⟩
  case detached =>
    refine (render_detached ha).imp_right fun h =>
      ⟨fallbackFill clears x, rfl, fun hd => ?_, fun n hn => ?_, h⟩
    · simp [fallbackFill, hd]
    · exact Vector.getElem_replicate hn
  case update =>
    rw [step_agent ha, agentMove, updateDevice_display (s := (s.setAgents rest).setDraws _) hd]
    rfl
  case blank =>
    have hb := busDisplay_eq_none hno
    rw [hostStep_betweenRuns ha hp, hostMove, renderOnDemand, displayPixels, hb]
    exact ⟨rfl, rfl⟩
  case pixels =>
    refine ⟨?_, fun t ht => ?_⟩
    · rw [hostStep_betweenRuns ha hp, hostMove, renderOnDemand, busDisplay_eq_some.2 ⟨hbus, hd⟩]
    · obtain ⟨hsame, y, hy⟩ := render_ok_display hd ht
      have hbus' : getDevice displayId t = some dev := by rw [getDevice, hsame]; exact hbus
      exact ⟨y, hy, displayPixels_display hbus' hy⟩

end Sys2Proof.Machine
end

section
/-! PROOFS. The Keyboard and the Clock: key events, and the interrupts of an update. -/

namespace Sys2Proof.Machine

/-! ## The Keyboard -/

section
variable {k : Keyboard} {key : Nat} {code : Word}

/-- R235: a key that is recognised acts with its fixed code. -/
theorem react_key (h : Config.keyCode key = some code) :
    react (.keyboard k) (.event (.keyDown key)) =
        (.keyboard (keyDown k key code).1, (keyDown k key code).2) ∧
      react (.keyboard k) (.event (.keyUp key)) = (.keyboard (keyUp k key code), []) := by
  simp [react, keyboardReact, h]

/-- R235: a key that is not recognised does nothing. -/
theorem react_unknown_key (h : Config.keyCode key = none) :
    react (.keyboard k) (.event (.keyDown key)) = (.keyboard k, []) ∧
      react (.keyboard k) (.event (.keyUp key)) = (.keyboard k, []) := by
  simp [react, keyboardReact, h]

/-- R235: the interrupt of a new key-down is raised at once or left to the update, if a message is
configured; nothing else of the Keyboard changes. -/
theorem keyInterrupt_cases (k : Keyboard) : ∃ y acts, keyInterrupt k = (y, acts) ∧
    y.held = k.held ∧ y.fifo = k.fifo ∧
    (k.message = none → acts = [] ∧ y.pending = k.pending) ∧
    ∀ msg, k.message = some msg →
      (acts = [.interrupt msg.toNat] ∧ y.pending = k.pending) ∨
      (acts = [] ∧ y.pending = k.pending ++ [msg]) := by
  unfold keyInterrupt
  cases hm : k.message with
  | none => exact ⟨k, [], rfl, rfl, rfl, fun _ => ⟨rfl, rfl⟩, nofun⟩
  | some m =>
    cases Config.keyboardDefers with
    | true => exact ⟨_, [], rfl, rfl, rfl, nofun, fun _ h => by cases h; exact .inr ⟨rfl, rfl⟩⟩
    | false => exact ⟨k, _, rfl, rfl, rfl, nofun, fun _ h => by cases h; exact .inl ⟨rfl, rfl⟩⟩

theorem keyDown_new (h : heldKey key code ∉ k.held) :
    keyDown k key code =
      keyInterrupt { k with held := k.held ++ [heldKey key code], fifo := pushKey k.fifo code } := by
  simp [keyDown, h]

theorem keyDown_repeat (h : heldKey key code ∈ k.held) :
    keyDown k key code = ({ k with fifo := Config.keyboardRepeat k.fifo code }, []) := by
  simp [keyDown, h]

theorem mem_held_keyUp {j : Nat} :
    j ∈ (keyUp k key code).held ↔ j ∈ k.held ∧ j ≠ heldKey key code := by
  simp [keyUp]

end

/-! ## The Clock -/

/-- R236: the quotient by the period counts the multiples passed. -/
theorem multiples_passed (p a n : Nat) :
    ((List.range n).filter fun k => (a + k + 1) % p == 0).length = (a + n) / p - a / p := by
  induction n with
  | zero => simp
  | succ n ih =>
    have hmono : a / p ≤ (a + n) / p := Nat.div_le_div_right (Nat.le_add_right a n)
    rw [List.range_succ, List.filter_append, List.length_append, ih, ← Nat.add_assoc a n 1,
      Nat.succ_div]
    by_cases hd : p ∣ a + n + 1
    · simp [hd, Nat.mod_eq_zero_of_dvd hd]
      omega
    · simp [hd, Nat.dvd_iff_mod_eq_zero.not.1 hd]

theorem clockInterrupts_idle {c : Clock} (h : c.enabled = false ∨ c.period = 0) (n : Nat) :
    clockInterrupts c n = 0 := by
  rcases h with h | h <;> simp [clockInterrupts, h]

theorem clockInterrupts_enabled {c : Clock} (he : c.enabled = true) (hp : c.period ≠ 0) (n : Nat) :
    clockInterrupts c n = (c.ticks + n) / c.period - c.ticks / c.period := by
  simp [clockInterrupts, he, hp]

/-! ## The update -/

/-- R230: the update of a device that is no Display is a signal with a fresh input. -/
theorem step_update {s : State} {dev : Nat} {rest : List Frame} {d : Device}
    (ha : s.agents = .update dev :: rest) (hd : s.devices[dev]? = some d) (hx : ∀ x, d ≠ .display x) :
    step s = .next { s with
      draws := s.draws + 1,
      devices := s.devices.set dev (react d (.update (Config.deviceInput s.draws))).1,
      agents := .acts dev (react d (.update (Config.deviceInput s.draws))).2 :: rest } := by
  obtain ⟨-, hupdate, -⟩ := observerIsItsDeviceToldOfTheWrite
  exact hupdate s dev rest d ha hd hx

/-- Settles O57: a key-down is of a new key or of a held one; the update raises what is pending. -/
theorem keyboardHeldKeysAndFifo : Obligations.KeyboardHeldKeysAndFifo := by
  refine ⟨fun k key code => ⟨?translated, fun hnew => ?new,
    fun hheld => ⟨_, keyDown_repeat hheld, rfl⟩, rfl, fun j => mem_held_keyUp⟩,
    fun s dev rest k ha hd => step_update ha hd nofun⟩
  case translated =>
    split
    · rename_i h
      exact react_key (Option.some_get h).symm
    · rename_i h
      exact react_unknown_key (Option.not_isSome_iff_eq_none.1 h)
  case new =>
    obtain ⟨y, acts, heq, hheld, hfifo, hnone, hsome⟩ := keyInterrupt_cases
      { k with held := k.held ++ [heldKey key code], fifo := pushKey k.fifo code }
    refine ⟨y, acts, (keyDown_new hnew).trans heq, hheld, fun hroom => ?_, hnone, hsome⟩
    rw [hfifo, pushKey, if_pos hroom]

/-- Settles O58: as many interrupts as the quotient by the period grows. -/
theorem clockTicksAndInterrupts : Obligations.ClockTicksAndInterrupts := by
  intro s dev rest c ha hd
  refine ⟨List.replicate (clockInterrupts c (Config.deviceInput s.draws)) (.interrupt c.message.toNat),
    step_update ha hd nofun, fun hidle => ?_, fun he hp => ?_,
    fun act hact => List.eq_of_mem_replicate hact⟩
  · rw [clockInterrupts_idle hidle, List.replicate_zero]
  · rw [List.length_replicate, clockInterrupts_enabled he hp, multiples_passed]

end Sys2Proof.Machine
end

section
/-! PROOFS. Where a step stops, the host's turn, and `loadAssembly` with the reset of the CPU. -/

namespace Sys2Proof.Machine

section
variable {s : State} {op : HostOp} {text : List Char} {ws : List Word}

/-! ## A step -/

/-- R120: a cycle completes or latches a fault. -/
theorem cycle_eq_next (s : State) : ∃ t, cycle s = .next t := by
  by_cases hp : s.pc.toNat < s.params.memSize
  · rw [cycle_in hp]
    exact exec_next _ _
  · exact ⟨_, cycle_out (Nat.not_lt.1 hp)⟩

/-- R269: with no fault latched and no activation open the step is the end of `exec` or a cycle. -/
theorem step_unlatched (hf : s.fault = none) (ha : s.agents = []) : ∃ t, step s = .next t := by
  by_cases hend : ∃ poll, s.phase = .cycles 0 poll
  · obtain ⟨poll, hp⟩ := hend
    exact ⟨_, step_endOfExec hf ha hp⟩
  · rw [step_atCycle ⟨hf, ha, fun poll hp => hend ⟨poll, hp⟩⟩]
    exact cycle_eq_next _

/-- R269, R33: a step answers the latched fault if no activation is open; otherwise it moves. -/
theorem step_cases (s : State) :
    (∃ f, s.fault = some f ∧ s.agents = [] ∧ step s = .fault f) ∨
      ((s.fault = none ∨ s.agents ≠ []) ∧ ∃ t, step s = .next t) := by
  cases ha : s.agents with
  | cons f rest =>
    rw [step_agent ha]
    exact .inr ⟨.inr (List.cons_ne_nil f rest), conclude_eq_next _⟩
  | nil =>
    cases hf : s.fault with
    | some f => exact .inl ⟨f, rfl, rfl, step_latched hf ha⟩
    | none => exact .inr ⟨.inl rfl, step_unlatched hf ha⟩

/-! ## The host -/

/-- R268, D23: during a run a host operation is not made. -/
theorem hostStep_duringRun (h : s.agents ≠ [] ∨ s.phase ≠ .host) :
    hostStep op s = .refused .hostDuringRun :=
  if_neg fun ⟨ha, hp⟩ => h.elim (· ha) (· hp)

/-- R261: a program that fits is loaded at address 0 and the CPU reset. -/
theorem loadAssembly_fits (hw : assemble text = .ok ws) (h : ws.length ≤ s.params.memSize) :
    loadAssembly text s = .next (s.setMem (s.mem.copy 0 ws)).resetCpu := by
  simp [loadAssembly, hw, load_in (o := 0) (by simpa using h)]

/-- R44, R33: a program that does not fit latches AddressingFault before the reset. -/
theorem loadAssembly_tooLong (hw : assemble text = .ok ws) (h : s.params.memSize < ws.length) :
    loadAssembly text s = .next (s.latch (.addressing (ws.length - 1))) := by
  simp [loadAssembly, hw, load_out (o := 0) (by simpa using h)]

/-- R214: a text that does not assemble is refused. -/
theorem loadAssembly_error {e : AsmError} (he : assemble text = .error e) :
    loadAssembly text s = .refused (.assemblyFailed e) := by
  simp [loadAssembly, he]

/-- R262: between runs a reset changes the registers and the latch only. -/
theorem State.resetCpu_betweenRuns (ha : s.agents = []) (hp : s.phase = .host) :
    s.resetCpu = { s with
      regs := s.params.reset.regs, pc := s.params.reset.pc, sp := s.params.reset.sp,
      ex := s.params.reset.ex, ia := s.params.reset.ia, fault := none } := by
  rw [State.resetCpu, ← ha, ← hp]

/-- R262, D3: with the spec's reset values every register but SP is 0 after a reset. -/
theorem State.resetCpu_spec (h : s.params.reset = ResetRegs.spec s.params.reset.sp) :
    (∀ r, s.resetCpu.reg r = 0) ∧ s.resetCpu.pc = 0 ∧ s.resetCpu.ex = 0 ∧ s.resetCpu.ia = 0 := by
  rw [resetCpu_pc, resetCpu_ex, resetCpu_ia, h]
  refine ⟨fun r => ?_, rfl, rfl, rfl⟩
  rw [State.reg, resetCpu_regs, h]
  cases r <;> rfl

end

/-- Settles O8: either the step answers the latched fault, or it answers a next state. -/
theorem stepStopsOnlyAtALatchedFault : Obligations.StepStopsOnlyAtALatchedFault := by
  intro s
  rcases step_cases s with ⟨f, hf, ha, hstep⟩ | ⟨hmoves, t, hstep⟩
  · rw [hstep]
    exact ⟨fun g => by simp [hf, ha], nofun⟩
  · rw [hstep]
    refine ⟨fun g => ⟨nofun, fun ⟨hf, ha⟩ => ?_⟩, nofun⟩
    simp [hf, ha] at hmoves

/-- Settles O54: the host's turn is the condition of every host operation. -/
theorem hostHasNoMoveDuringARun : Obligations.HostHasNoMoveDuringARun :=
  fun _ _ => hostStep_duringRun

/-- Settles O53: the text assembles to a program that fits, to one that does not, or to none. -/
theorem loadAssemblyLoadsThenResets : Obligations.LoadAssemblyLoadsThenResets := by
  intro s text ha hp
  rw [hostStep_betweenRuns ha hp, hostMove]
  refine ⟨fun ws hw hfit => ⟨s.mem.copy 0 ws, _, loadAssembly_fits hw hfit,
    State.resetCpu_betweenRuns ha hp, State.resetCpu_spec, fun k w hk => ?inside, fun x hx => ?beyond⟩,
    fun ws hw => loadAssembly_tooLong hw, fun e => loadAssembly_error⟩
  case inside => simpa using Memory.read_copy ws s.mem 0 hk
  case beyond => exact Memory.read_copy_outside ws s.mem (.inr (by omega))

end Sys2Proof.Machine
end
